-- ==== Sys2Proof/Word.lean ====
section
/-! DEFINITION. The word types of the command port and of the buffers. -/

namespace Sys2Proof

/-- One byte of a slot's buffer (R25). -/
abbrev Byte := BitVec 8

/-- The 32-bit command word of a packet (R70, R71). -/
abbrev Word := BitVec 32

/-- A 128-bit operand or result field of a packet (R70, R73). -/
abbrev Operand := BitVec 128

/-- A binary64 bit pattern (R18). -/
abbrev F64 := BitVec 64

end Sys2Proof
end

