-- ==== Sys2Proof/Config.lean ====
section
/-! DEFINITION. What an implementation fixes: the constants of R7 and the three parameters of R8. -/

namespace Sys2Proof

/-- RAWMAX: the widest raw access, in bits (R7). -/
def rawMax : Nat := 32

/-- BITSMAX: the widest codec pattern, in bits (R7). -/
def bitsMax : Nat := 128

/-- The three implementation parameters (R8; D2, D3, D4). -/
structure Config where
  /-- NSLOT, the number of cursor slots. -/
  nslot : Nat
  /-- NCTX, the number of codec contexts. -/
  nctx : Nat
  /-- CAP, the bytes of storage of each slot. -/
  cap : Nat
deriving DecidableEq, Repr

/-- The legal parameter values: 2 ≤ NSLOT ≤ 16, 1 ≤ NCTX ≤ 16, CAP ≤ 2^32 − 1 (R8). -/
abbrev Config.InRange (c : Config) : Prop :=
  (2 ≤ c.nslot ∧ c.nslot ≤ 16) ∧ (1 ≤ c.nctx ∧ c.nctx ≤ 16) ∧ c.cap ≤ 2 ^ 32 - 1

/-- The values R8 suggests; the test vectors of 95_test_vectors.md assume them.
DESIGN CHOICE (log 3), unsafe for a claim about `State.reset` only. -/
def Config.suggested : Config := { nslot := 4, nctx := 4, cap := 65536 }

/-- LENW, the number of bits needed for 0..CAP (R9). -/
def lenWidth (cap : Nat) : Nat := if cap = 0 then 0 else Nat.log2 cap + 1

end Sys2Proof
end

