-- ==== Sys2Proof/Syntax.lean ====
section
/-! DEFINITION. The command packet and the commands: one constructor per row of the opcode map R75.

Slot numbers, context numbers and bit counts are `Nat` (they are indexes and counts); `WellFormed.lean` says which fit
their fields of `word`. Operand values carry exactly the bits R74 says a command uses (log 11). -/

namespace Sys2Proof

/-- One command packet: a 32-bit command word and two 128-bit operands presented together (R70). -/
structure Packet where
  word : Word
  opa : Operand
  opb : Operand
deriving DecidableEq, Repr

/-- The four formats of R72. -/
inductive Format where
  /-- op, s: single-cursor commands without a bit count. -/
  | c
  /-- op, s, n: the raw accesses. -/
  | cn
  /-- op, s, t: SLICE and WRBS. -/
  | cc
  /-- op, k: codec commands. -/
  | k
deriving DecidableEq, Repr

/-- A command of the BCU (R75), with the operand fields of R74. `s`, `d` and `t` are slot numbers, `k` a context
number, `n` a bit count. -/
inductive Instr where
  /-- NEW (R100): construct a cursor of `len` zero bytes. -/
  | new (s : Nat) (len : BitVec 64)
  /-- SETIDX (R101). -/
  | setidx (s : Nat) (bits : BitVec 64)
  /-- GETIDX (R102). -/
  | getidx (s : Nat)
  /-- SETEND (R103): `big` is `opa[0]`. -/
  | setend (s : Nat) (big : Bool)
  /-- GETEND (R104). -/
  | getend (s : Nat)
  /-- BITSLEFT (R105). -/
  | bitsleft (s : Nat)
  /-- GETLEN (R106). -/
  | getlen (s : Nat)
  /-- ALIGN (R107). -/
  | align (s : Nat)
  /-- SLICE (R108): bytes `start..stop` of slot `t` into slot `d`, both offsets signed. -/
  | slice (d t : Nat) (start stop : BitVec 64)
  /-- RDB (R122). -/
  | rdb (s n : Nat)
  /-- RDBS (R123). -/
  | rdbs (s n : Nat)
  /-- WRBU (R124). -/
  | wrbu (s n : Nat) (value : BitVec 32)
  /-- WRB (R125). -/
  | wrb (s n : Nat) (value : BitVec 32)
  /-- RDBOOL (R143). -/
  | rdbool (s : Nat)
  /-- WRBOOL (R144). -/
  | wrbool (s : Nat) (b : Bool)
  /-- RDU4 (R145). -/
  | rdu4 (s : Nat)
  /-- RDU8 (R146). -/
  | rdu8 (s : Nat)
  /-- RDU16 (R147). -/
  | rdu16 (s : Nat)
  /-- RDU32 (R148). -/
  | rdu32 (s : Nat)
  /-- RDU64 (R149). -/
  | rdu64 (s : Nat)
  /-- RDU128 (R150). -/
  | rdu128 (s : Nat)
  /-- RDI4 (R151). -/
  | rdi4 (s : Nat)
  /-- RDI8 (R152). -/
  | rdi8 (s : Nat)
  /-- RDI16 (R153). -/
  | rdi16 (s : Nat)
  /-- RDI32 (R154). -/
  | rdi32 (s : Nat)
  /-- RDI64 (R155). -/
  | rdi64 (s : Nat)
  /-- RDI128 (R156). -/
  | rdi128 (s : Nat)
  /-- WRU4 (R157). -/
  | wru4 (s : Nat) (value : BitVec 4)
  /-- WRU8 (R158). -/
  | wru8 (s : Nat) (value : BitVec 8)
  /-- WRU16 (R159). -/
  | wru16 (s : Nat) (value : BitVec 16)
  /-- WRU32 (R160). -/
  | wru32 (s : Nat) (value : BitVec 32)
  /-- WRU64 (R161). -/
  | wru64 (s : Nat) (value : BitVec 64)
  /-- WRU128 (R162). -/
  | wru128 (s : Nat) (value : BitVec 128)
  /-- WRI4 (R163). -/
  | wri4 (s : Nat) (value : BitVec 4)
  /-- WRI8 (R164). -/
  | wri8 (s : Nat) (value : BitVec 8)
  /-- WRI16 (R165). -/
  | wri16 (s : Nat) (value : BitVec 16)
  /-- WRI32 (R166). -/
  | wri32 (s : Nat) (value : BitVec 32)
  /-- WRI64 (R167). -/
  | wri64 (s : Nat) (value : BitVec 64)
  /-- WRI128 (R168). -/
  | wri128 (s : Nat) (value : BitVec 128)
  /-- RDF8 (R223). -/
  | rdf8 (s : Nat)
  /-- RDF16 (R224). -/
  | rdf16 (s : Nat)
  /-- RDF32 (R225). -/
  | rdf32 (s : Nat)
  /-- RDF64 (R226). -/
  | rdf64 (s : Nat)
  /-- RDUF8 (R227). -/
  | rduf8 (s : Nat)
  /-- RDUF16 (R228). -/
  | rduf16 (s : Nat)
  /-- RDUF32 (R229). -/
  | rduf32 (s : Nat)
  /-- RDUF64 (R230). -/
  | rduf64 (s : Nat)
  /-- WRF8 (R231). -/
  | wrf8 (s : Nat) (x : F64)
  /-- WRF16 (R232). -/
  | wrf16 (s : Nat) (x : F64)
  /-- WRF32 (R233). -/
  | wrf32 (s : Nat) (x : F64)
  /-- WRF64 (R234). -/
  | wrf64 (s : Nat) (x : F64)
  /-- WRUF8 (R235). -/
  | wruf8 (s : Nat) (x : F64)
  /-- WRUF16 (R236). -/
  | wruf16 (s : Nat) (x : F64)
  /-- WRUF32 (R237). -/
  | wruf32 (s : Nat) (x : F64)
  /-- WRUF64 (R238). -/
  | wruf64 (s : Nat) (x : F64)
  /-- WRBS (R250): copy `nbits` bits from slot `t` to slot `d`. -/
  | wrbs (d t : Nat) (nbits : BitVec 64)
  /-- CNEW (R200). -/
  | cnew (k : Nat) (bits ebits : BitVec 8) (signed : Bool)
  /-- ENC (R201). -/
  | enc (k : Nat) (x : F64)
  /-- DEC (R202). -/
  | dec (k : Nat) (p : BitVec 128)
deriving DecidableEq, Repr

end Sys2Proof
end

