-- ==== Sys2Proof/Machine/State.lean ====
section
/-! DEFINITION. The state of the BCU: the slot bank and the context bank (R20), and beside them the model's own fields
for the command input, the response output and the parameter CAP (R11, R12; logs 1 to 3). -/

namespace Sys2Proof.Machine

/-- A slot's buffer (R25, R33): the bytes that differ from what an unlisted byte reads as, addresses strictly rising
(log 6). -/
abbrev Memory := List Host.Cell

/-- What a byte that is not listed reads as: NEW zero-fills its buffer (R100, R62). For a slot that nothing has
constructed the value is the model's and no command can see it (R340; log 4). -/
def Memory.blank : Byte := 0

/-- The canonical form of a buffer: addresses strictly rise and no entry equals what an unlisted byte reads as. -/
abbrev Memory.wf (m : Memory) : Prop :=
  m.Pairwise (fun x y => x.1 < y.1) ∧ ∀ x ∈ m, x.2 ≠ Memory.blank

/-- One cursor slot `c[s]` (R20, R28). -/
structure Slot where
  /-- `VALID` (R23). -/
  valid : Bool
  /-- `LEN`, LENW bits: the number of bytes of the buffer (R24). -/
  len : Nat
  /-- `IDX`, LENW + 3 bits: the bit index (R26). -/
  idx : Nat
  /-- `BIG`: false is 0, Little; true is 1, Big (R27). -/
  big : Bool
  /-- `BUF` (R25). -/
  buf : Memory
deriving DecidableEq, Repr

/-- One codec context `k[j]` (R20). -/
structure Context where
  /-- `VALID` (R29). -/
  valid : Bool
  /-- `BITS` (R30). -/
  bits : BitVec 8
  /-- `EBITS` (R30). -/
  ebits : BitVec 8
  /-- `SIGNED` (R30). -/
  signed : Bool
deriving DecidableEq, Repr

/-- The response statuses (R302). The other code values are never produced (U22). Their codes are `Status.code`. -/
inductive Status where
  /-- OK: the command was carried out. -/
  | ok
  /-- ERR_CONFIG: CNEW with an invalid configuration (R303). -/
  | config
  /-- ERR_WIDTH: a raw access of 0 or more than 32 bits (R304). -/
  | width
  /-- ERR_EXHAUSTED: a raw access of more bits than are left (R304). -/
  | exhausted
  /-- ERR_INDEX: SETIDX at or past the end (R304). -/
  | index
  /-- ERR_SLICE: SLICE offsets out of bounds (R304). -/
  | slice
  /-- ERR_ENCODING: host-side string sequences only, never produced by the BCU (R305). -/
  | encoding
  /-- ERR_ILLEGAL: the word does not decode (R310). -/
  | illegal
  /-- ERR_SLOT: no such constructed slot, or SLICE or WRBS with d = t (R311). -/
  | slot
  /-- ERR_CTX: no such constructed context (R312). -/
  | ctx
  /-- ERR_CAPACITY: NEW beyond CAP (R310). -/
  | capacity
deriving DecidableEq, Repr

/-- The response packet (R73). -/
structure Response where
  status : Status
  res : Operand
deriving DecidableEq, Repr

/-- The machine's state. NSLOT is the length of `slots`, NCTX the length of `ctxs` (log 3). -/
structure State where
  /-- The slot bank `c[0..NSLOT−1]` (R20). -/
  slots : List Slot
  /-- The context bank `k[0..NCTX−1]` (R20). -/
  ctxs : List Context
  /-- The parameter CAP, bytes of storage per slot (R8); no command writes it. The model's own field (log 3). -/
  cap : Nat
  /-- The command input: packets presented and not yet taken, the next one first (R10, R22). The model's own field
  (log 1). -/
  cmds : List Packet
  /-- The response output of the last step; no step reads it (R11, R34). The model's own field (log 2). -/
  resp : Option Response
deriving DecidableEq, Repr

/-- Why the machine stops: never. Every command is answered by a response and a next state (R300, R301; 93, Part 1),
so there is no constructor, which is safe (log 17). -/
inductive Fault where
deriving DecidableEq, Repr

/-- Why an instruction has no meaning. -/
inductive Refusal where
  /-- The instruction has no meaning yet; raised only by a refused arm of `exec`. Safe. No arm is refused. -/
  | notModelled (mnemonic : String)
deriving DecidableEq, Repr

/-- How a command ends. -/
abbrev Result := Host.Outcome State Fault Refusal

/-- A slot that holds no cursor (R23, R35): `VALID` is 0 and every other field has the model's value 0
(DESIGN CHOICE, log 4). -/
def Slot.unbuilt : Slot := { valid := false, len := 0, idx := 0, big := false, buf := [] }

/-- A context that holds no configuration (R29, R35), likewise. -/
def Context.unbuilt : Context := { valid := false, bits := 0, ebits := 0, signed := false }

/-- The machine after power-on with given parameters: every `VALID` bit is 0 (R35, R340), no command is presented and
no response has been given (R342). -/
def State.resetWith (c : Config) : State :=
  { slots := List.replicate c.nslot Slot.unbuilt
    ctxs := List.replicate c.nctx Context.unbuilt
    cap := c.cap
    cmds := []
    resp := none }

/-- The machine after power-on, with the suggested parameters (R8; log 3). -/
def State.reset : State := State.resetWith Config.suggested

end Sys2Proof.Machine
end

