-- ==== Sys2Proof/Machine/Operands.lean ====
section
/-! DEFINITION. Extension, truncation and reinterpretation of operands and results (R15, R16, R74). -/

namespace Sys2Proof.Machine

/-- `zext_128`: a value with zero upper bits (R16, R74). -/
def zext128 (v : Nat) : Operand := BitVec.ofNat 128 v

/-- `sext_128(v, w)`: the w-bit value `v` sign-extended to 128 bits (R16). -/
def sext128 (v w : Nat) : Operand :=
  BitVec.ofNat 128 (if v.testBit (w - 1) then v + 2 ^ 128 - 2 ^ w else v)

/-- `signed_w`: the w-bit pattern `v` as a two's complement integer (R16). -/
def signedValue (v w : Nat) : Int := if v.testBit (w - 1) then (v : Int) - 2 ^ w else v

/-- A 64-bit operand as a signed byte offset (R74, R108). -/
def signed64 (v : BitVec 64) : Int := signedValue v.toNat 64

/-- The sign extension RDBS does on its 32-bit result before extending it to 128 bits (R123). -/
def extendBits32 (v n : Nat) : Nat :=
  if n ≠ 32 ∧ v.testBit (n - 1) then v ||| (2 ^ 32 - 2 ^ n) else v

/-- A boolean operand as one bit: true is 1, false is 0 (R144; D31). -/
def boolBit (b : Bool) : Nat := if b then 1 else 0

/-- The result field of a float read: the binary64 pattern in `res[63:0]`, zeros above (R74). -/
def f64Result (x : F64) : Operand := zext128 x.toNat

end Sys2Proof.Machine
end

