-- ==== Sys2Proof/Machine/Codec.lean ====
section
/-! DEFINITION. The configurable float codec: configurations and derived constants (R180 to R187), `encode` (R189 to
R193), `decode` (R195 to R197), and the presets (R220).

Rational numbers are held exactly as a coefficient times a power of two; every number of the codec rules is of that
form (R15, D27; log 7). -/

namespace Sys2Proof.Machine

/-! ## Exact magnitudes -/

/-- The exact non-negative rational `coeff · 2^expo`. -/
structure Mag where
  coeff : Nat
  expo : Int
deriving DecidableEq, Repr

/-- `floor(log2 a)` for `a > 0`: the integer e with 2^e ≤ a < 2^(e+1) (R189). -/
def Mag.log2 (a : Mag) : Int := Nat.log2 a.coeff + a.expo

/-- `a < b`, exactly. Binades are compared first, so that the two coefficients are aligned only when their exponents
are near each other. -/
def Mag.lt (a b : Mag) : Bool :=
  if a.coeff = 0 then decide (b.coeff ≠ 0)
  else if b.coeff = 0 then false
  else if a.log2 ≠ b.log2 then decide (a.log2 < b.log2)
  else decide (a.coeff * 2 ^ (a.expo - min a.expo b.expo).toNat < b.coeff * 2 ^ (b.expo - min a.expo b.expo).toNat)

/-! ## Binary64 patterns (R18) -/

/-- Bit 63. -/
def f64Sign (x : F64) : Bool := x.getLsbD 63

/-- The exponent field, bits 62:52. -/
def f64Exp (x : F64) : Nat := x.toNat / 2 ^ 52 % 2 ^ 11

/-- The fraction field, bits 51:0. -/
def f64Frac (x : F64) : Nat := x.toNat % 2 ^ 52

/-- x is a NaN pattern. -/
def isNan (x : F64) : Bool := decide (f64Exp x = 2047) && decide (f64Frac x ≠ 0)

/-- x is ±Infinity. -/
def isInf (x : F64) : Bool := decide (f64Exp x = 2047) && decide (f64Frac x = 0)

/-- `|val(x)|` of a finite pattern, exactly. -/
def f64Mag (x : F64) : Mag :=
  if f64Exp x = 0 then { coeff := f64Frac x, expo := -1074 }
  else { coeff := 2 ^ 52 + f64Frac x, expo := (f64Exp x : Int) - 1075 }

/-- `n / 2^sh` rounded to an integer, ties to even. -/
def roundHalfEven (n sh : Nat) : Nat :=
  let q := n / 2 ^ sh
  let r := n % 2 ^ sh
  if 2 * r > 2 ^ sh ∨ (2 * r = 2 ^ sh ∧ q % 2 = 1) then q + 1 else q

/-- The sign-less pattern nearest to `a` in the binary format with `ew` exponent bits and `fw` fraction bits: round to
nearest, ties to the even fraction, Infinity when the rounded magnitude reaches the top (R18). -/
def roundToBinary (ew fw : Nat) (a : Mag) : Nat :=
  let bias : Int := ((2 ^ (ew - 1) : Nat) : Int) - 1
  let emin : Int := 1 - bias
  if a.coeff = 0 then 0
  else if a.log2 > bias then (2 ^ ew - 1) * 2 ^ fw
  else
    let q : Int := max a.log2 emin - fw
    let n :=
      if q ≤ a.expo then a.coeff * 2 ^ (a.expo - q).toNat
      else if (Nat.log2 a.coeff : Int) + 1 < q - a.expo then 0
      else roundHalfEven a.coeff (q - a.expo).toNat
    if a.log2 < emin then n else (a.log2 - emin).toNat * 2 ^ fw + n

/-- `RNE64`, without the sign (R18). -/
def rne64 (a : Mag) : Nat := roundToBinary 11 52 a

/-- `RNE32`, without the sign (R18). -/
def rne32 (a : Mag) : Nat := roundToBinary 8 23 a

/-! ## Configurations -/

/-- A codec configuration (B, E, S) (R180). -/
structure CodecCfg where
  /-- B, `bits`. -/
  bits : Nat
  /-- E, `exponent_bits`. -/
  ebits : Nat
  /-- S, `signed`. -/
  signed : Bool
deriving DecidableEq, Repr

/-- A configuration is valid iff 1 ≤ E < B ≤ 128 (R180). -/
abbrev CodecCfg.Valid (c : CodecCfg) : Prop := 1 ≤ c.ebits ∧ c.ebits < c.bits ∧ c.bits ≤ bitsMax

/-- `mantissa_width` M (R181). -/
def CodecCfg.mantissaWidth (c : CodecCfg) : Nat := c.bits - c.ebits - (if c.signed then 1 else 0)

/-- `sign_mask` (R182). -/
def CodecCfg.signMask (c : CodecCfg) : Nat := if c.signed then 2 ^ (c.bits - 1) else 0

/-- `exponent_mask` (R182). -/
def CodecCfg.exponentMask (c : CodecCfg) : Nat := (2 ^ c.ebits - 1) * 2 ^ c.mantissaWidth

/-- `mantissa_mask` (R182). -/
def CodecCfg.mantissaMask (c : CodecCfg) : Nat := 2 ^ c.mantissaWidth - 1

/-- `exponent_bias` (R183). -/
def CodecCfg.bias (c : CodecCfg) : Nat := 2 ^ (c.ebits - 1) - 1

/-- `special_exp` (R184). -/
def CodecCfg.specialExp (c : CodecCfg) : Nat := 2 ^ c.ebits - 1

/-- `hidden_bit` (R185). -/
def CodecCfg.hiddenBit (c : CodecCfg) : Nat := 2 ^ c.mantissaWidth

/-! ## The replaceable parts (R203) -/

/-- The exponent of `subnormal_coeff` = 2^(1 − bias − M) (R186). -/
def subnormalUnitExpo (c : CodecCfg) : Int := 1 - (c.bias : Int) - c.mantissaWidth

/-- `min_value` (R187). -/
def codecMinValue (c : CodecCfg) : Mag := { coeff := 1, expo := 1 - (c.bias : Int) - c.mantissaWidth }

/-- `max_value`: (2 − 2^(−M))·2^(2^(E−1) − 1) when E ≥ 2, 2·(1 − 2^(−M)) when E = 1 (R187). -/
def codecMaxValue (c : CodecCfg) : Mag :=
  if 2 ≤ c.ebits then
    { coeff := 2 ^ (c.mantissaWidth + 1) - 1, expo := ((2 ^ (c.ebits - 1) : Nat) : Int) - 1 - c.mantissaWidth }
  else { coeff := 2 ^ c.mantissaWidth - 1, expo := 1 - (c.mantissaWidth : Int) }

/-- The loop of `frac_to_bin`: `mw` bits of the fraction `r / 2^k` are still to be extracted into `m` (R192). -/
def fracLoop (k mw m r : Nat) : Nat × Nat :=
  match mw with
  | 0 => (m, r)
  | mw + 1 => fracLoop k mw (2 * m + 2 * r / 2 ^ k) (2 * r % 2 ^ k)

/-- `frac_to_bin(f, M)` for f = `num / 2^k`: the first M bits of f, rounded up when the residue is at least two
thirds (R192). -/
def fracToBin (num k mw : Nat) : Nat :=
  let (m, r) := fracLoop k mw 0 num
  if 2 * 2 ^ k ≤ 3 * r then m + 1 else m

/-- The assembly of the result: bitwise OR, the mantissa possibly carrying into the exponent field (R193). -/
def assemblePattern (sign field m : Nat) : Nat := sign ||| field ||| m

/-- The mantissa field of an encoded NaN (R191 (c)). -/
def nanMantissaField : Nat := 1

/-- The parts of the codec that R203 asks a model to keep replaceable. -/
structure Numerics where
  /-- `frac_to_bin`: the mantissa of `num / 2^k` in a given number of bits (R192, U4). -/
  fracToBin : Nat → Nat → Nat → Nat
  /-- The combination of sign, exponent field and mantissa (R193, U3). -/
  assemble : Nat → Nat → Nat → Nat
  /-- The exponent of the subnormal unit (R191 (d), R196, U9). -/
  subnormalUnit : CodecCfg → Int
  /-- The underflow bound (R187, U7). -/
  minValue : CodecCfg → Mag
  /-- The overflow bound (R187, U7). -/
  maxValue : CodecCfg → Mag
  /-- The mantissa of an encoded NaN (R191 (c), U8). -/
  nanMantissa : Nat
  /-- The binary64 rounding of `decode`, without the sign (R197, U5). -/
  round64 : Mag → Nat

/-- The replaceable parts as the rules instantiate them (R203; log 8). -/
def numerics : Numerics where
  fracToBin := fracToBin
  assemble := assemblePattern
  subnormalUnit := subnormalUnitExpo
  minValue := codecMinValue
  maxValue := codecMaxValue
  nanMantissa := nanMantissaField
  round64 := rne64

/-! ## Encode -/

/-- "value < 0": false for −0.0 and for NaN (R189). -/
def encodeNeg (x : F64) : Bool :=
  !isNan x && f64Sign x && (isInf x || decide ((f64Mag x).coeff ≠ 0))

/-- `sub`: x is finite and zero, or finite with floor(log2 a) ≤ −bias (R189). -/
def encodeSub (c : CodecCfg) (x : F64) : Bool :=
  !isNan x && !isInf x && (decide ((f64Mag x).coeff = 0) || decide ((f64Mag x).log2 ≤ -(c.bias : Int)))

/-- The general path (R191), with the steps (a) to (f) in its order. -/
def encodeGeneral (nx : Numerics) (c : CodecCfg) (x : F64) : Nat :=
  let a := f64Mag x
  let mw := c.mantissaWidth
  let sign := if c.signed && encodeNeg x then c.signMask else 0
  if !isNan x && !isInf x && Mag.lt a (nx.minValue c) then 0
  else if isNan x || isInf x || Mag.lt (nx.maxValue c) a then
    sign ||| c.exponentMask ||| (if isNan x then nx.nanMantissa else 0)
  else if encodeSub c x then
    -- f = a / 2^(1 − bias) = a / (subnormal unit · 2^M)
    nx.assemble sign 0 (nx.fracToBin a.coeff (nx.subnormalUnit c + mw - a.expo).toNat mw)
  else
    -- f = a / 2^e − 1, with a = coeff · 2^expo and 2^log2(coeff) ≤ coeff
    let e := a.log2
    nx.assemble sign ((e + c.bias).toNat * 2 ^ mw)
      (nx.fracToBin (a.coeff - 2 ^ Nat.log2 a.coeff) (Nat.log2 a.coeff) mw)

/-- `encode(cfg, x)`: the fast paths of (32,8,signed) and (64,11,signed) for values that are neither NaN nor subnormal
(R190), else the general path (R191). -/
def encodeFloat (nx : Numerics) (c : CodecCfg) (x : F64) : Nat :=
  if !isNan x && !encodeSub c x && decide (c = ⟨32, 8, true⟩) then
    (if f64Sign x then 2 ^ 31 else 0) ||| (if isInf x then 0x7F800000 else rne32 (f64Mag x))
  else if !isNan x && !encodeSub c x && decide (c = ⟨64, 11, true⟩) then x.toNat
  else encodeGeneral nx c x

/-! ## Decode -/

/-- The exponent field of a pattern (R195). -/
def patternExp (c : CodecCfg) (p : Nat) : Nat := (p &&& c.exponentMask) >>> c.mantissaWidth

/-- The mantissa field of a pattern (R195). -/
def patternMantissa (c : CodecCfg) (p : Nat) : Nat := p &&& c.mantissaMask

/-- `sgn`, the sign of a pattern (R195). -/
def patternSign (c : CodecCfg) (p : Nat) : Bool := c.signed && decide (p &&& c.signMask ≠ 0)

/-- The magnitude of a pattern with exponent field 0: no implicit leading 1 (R196). -/
def subnormalMag (nx : Numerics) (c : CodecCfg) (p : Nat) : Mag :=
  { coeff := patternMantissa c p, expo := nx.subnormalUnit c }

/-- The magnitude of a normal pattern, 2^(ex − bias)·(1 + raw) (R196). -/
def normalMag (c : CodecCfg) (p : Nat) : Mag :=
  { coeff := c.hiddenBit + patternMantissa c p, expo := (patternExp c p : Int) - c.bias - c.mantissaWidth }

/-- The canonical NaN (R197). -/
def canonicalNan : F64 := 0x7FF8000000000000

/-- A binary64 pattern from its sign and its other 63 bits. -/
def f64Pack (sgn : Bool) (m : Nat) : F64 := BitVec.ofNat 64 ((if sgn then 2 ^ 63 else 0) + m)

/-- `decode(cfg, p)` (R195 to R197). The decode fast path is not observable and is left out, as R198 allows
(log 10). -/
def decodeFloat (nx : Numerics) (c : CodecCfg) (p : Nat) : F64 :=
  if patternExp c p = 0 then f64Pack (patternSign c p) (nx.round64 (subnormalMag nx c p))
  else if patternExp c p = c.specialExp then
    (if patternMantissa c p = 0 then f64Pack (patternSign c p) 0x7FF0000000000000 else canonicalNan)
  else f64Pack (patternSign c p) (nx.round64 (normalMag c p))

/-! ## Presets (R220) -/

/-- F8S. -/
def presetF8S : CodecCfg := ⟨8, 3, true⟩
/-- F8U. -/
def presetF8U : CodecCfg := ⟨8, 3, false⟩
/-- F16S. -/
def presetF16S : CodecCfg := ⟨16, 5, true⟩
/-- F16U. -/
def presetF16U : CodecCfg := ⟨16, 5, false⟩
/-- F32S. -/
def presetF32S : CodecCfg := ⟨32, 8, true⟩
/-- F32U. -/
def presetF32U : CodecCfg := ⟨32, 8, false⟩
/-- F64S. -/
def presetF64S : CodecCfg := ⟨64, 11, true⟩
/-- F64U. -/
def presetF64U : CodecCfg := ⟨64, 11, false⟩

end Sys2Proof.Machine
end

