-- ==== Sys2Proof/Machine/Flags.lean ====
section
/-! DEFINITION. The status codes (R302) and the numeric coding of the one flag `BIG` (R27).

The machine has no condition codes and no command writes a flag as a side effect of computing a value (R27, R111,
R140, R307): there is no other flag computation. -/

namespace Sys2Proof.Machine

/-- The 8-bit code of a status (R302). -/
def Status.code (e : Status) : BitVec 8 :=
  match e with
  | .ok => 0x00
  | .config => 0x01
  | .width => 0x02
  | .exhausted => 0x03
  | .index => 0x04
  | .slice => 0x05
  | .encoding => 0x06
  | .illegal => 0x10
  | .slot => 0x11
  | .ctx => 0x12
  | .capacity => 0x13

/-- The response packet's 136 bits: status above result (R73 gives the fields; their order in one number is the
model's, log 13). -/
def Response.packet (r : Response) : BitVec 136 := r.status.code ++ r.res

/-- `BIG` as a number: 0 Little, 1 Big (R27, R104). -/
def bigCode (big : Bool) : Nat := if big then 1 else 0

end Sys2Proof.Machine
end

