-- ==== Sys2Proof/Machine/Ops.lean ====
section
/-! DEFINITION. The named operations over the banks and the buffers: slot and context access, responses (the machine's
one way to report a failure), bounds check, raw bit access, and the sub-steps every data command is built from. -/

namespace Sys2Proof.Machine

/-! ## The banks -/

/-- NSLOT (R8; log 3). -/
def State.nslot (s : State) : Nat := s.slots.length

/-- NCTX (R8; log 3). -/
def State.nctx (s : State) : Nat := s.ctxs.length

/-- `c[x]` (R17). A number outside the bank reads as a slot with `VALID` = 0; no command acts on it (R110). -/
def State.slot (s : State) (x : Nat) : Slot := (s.slots[x]?).getD Slot.unbuilt

/-- `c[x] <- c`. -/
def State.setSlot (s : State) (x : Nat) (c : Slot) : State := { s with slots := s.slots.set x c }

/-- `k[j]` (R17). A number outside the bank reads as a context with `VALID` = 0. -/
def State.ctx (s : State) (j : Nat) : Context := (s.ctxs[j]?).getD Context.unbuilt

/-- `k[j] <- k`. -/
def State.setCtx (s : State) (j : Nat) (k : Context) : State := { s with ctxs := s.ctxs.set j k }

/-- `BITSLEFT`: `8·LEN − IDX` (R105). Never negative in a state the machine reaches (R26; log 20). -/
def Slot.bitsLeft (c : Slot) : Nat := 8 * c.len - c.idx

/-! ## Responses -/

/-- `respond(v)`: the command ends with status OK and result v (R17, R73). -/
def respond (v : Operand) (s : State) : Result :=
  .next { s with resp := some { status := .ok, res := v } }

/-- `raise e`: the command ends at once with status `e` and result 0, with no further state change; what earlier
sub-steps did stays (R17, R73, R300, R308). There is nothing to return from (R308). -/
def raise (e : Status) (s : State) : Result :=
  .next { s with resp := some { status := e, res := 0 } }

/-! ## Slot and context checks -/

/-- `slotcheck(x)` passes: x < NSLOT and `c[x].VALID` = 1 (R110). -/
def slotOk (x : Nat) (s : State) : Bool := decide (x < s.nslot) && (s.slot x).valid

/-- The command's body on a slot that passes `slotcheck`, else ERR_SLOT (R110, R311). -/
def withSlot (x : Nat) (s : State) (body : Result) : Result :=
  if slotOk x s then body else raise .slot s

/-- ENC and DEC's check passes: j < NCTX and `k[j].VALID` = 1 (R201, R202, R312). -/
def ctxOk (j : Nat) (s : State) : Bool := decide (j < s.nctx) && (s.ctx j).valid

/-! ## Buffers -/

/-- The byte at address `a`. -/
def Memory.read (m : Memory) (a : Nat) : Byte :=
  match m with
  | [] => Memory.blank
  | (k, b) :: rest => if k = a then b else Memory.read rest a

/-- The buffer with byte `b` at address `a`, in canonical form. -/
def Memory.write (m : Memory) (a : Nat) (b : Byte) : Memory :=
  match m with
  | [] => if b = Memory.blank then [] else [(a, b)]
  | (k, c) :: rest =>
    if a < k then (if b = Memory.blank then (k, c) :: rest else (a, b) :: (k, c) :: rest)
    else if a = k then (if b = Memory.blank then rest else (a, b) :: rest)
    else (k, c) :: Memory.write rest a b

/-- The bytes `a..b−1` of a buffer as a buffer of their own: its byte i is byte a + i (R108). -/
def Memory.slice (m : Memory) (a b : Nat) : Memory :=
  (m.filter fun x => decide (a ≤ x.1) && decide (x.1 < b)).map fun x => (x.1 - a, x.2)

/-! ## Raw access -/

/-- The bits `off..` of byte `byte` that a raw access of `c` bits touches, as a number: positions `off..off+c−1` under
Little, `8−off−c..7−off` under Big (R51, R52). -/
def chunkOf (big : Bool) (byte : Byte) (off c : Nat) : Nat :=
  (byte.toNat >>> (if big then 8 - off - c else off)) &&& (2 ^ c - 1)

/-- The loop of `MemRead` (R52). `fuel` bounds its turns; each turn takes at least one bit. -/
def memReadLoop (m : Memory) (big : Bool) (fuel res got rem p : Nat) : Nat :=
  match fuel with
  | 0 => res
  | fuel + 1 =>
    if rem = 0 then res
    else
      let off := p % 8
      let c := min rem (8 - off)
      let chunk := chunkOf big (Memory.read m (p / 8)) off c
      let res' := if big then (res <<< c) ||| chunk else res ||| (chunk <<< got)
      memReadLoop m big fuel res' (got + c) (rem - c) (p + c)

/-- `MemRead`: `n` bits at bit address `a` under the given endianness, as an unsigned number (R52). -/
def memRead (m : Memory) (big : Bool) (a n : Nat) : Nat := memReadLoop m big n 0 0 n a

/-- A byte with the `c` bits at position `sh` replaced by `src` (R53). -/
def mergeByte (old : Byte) (sh c src : Nat) : Byte :=
  (old &&& ~~~(BitVec.ofNat 8 ((2 ^ c - 1) <<< sh))) ||| BitVec.ofNat 8 (src <<< sh)

/-- The loop of `MemWrite` (R53): `v` is the whole value, `w` what is left of it under Little. -/
def memWriteLoop (big : Bool) (n v fuel : Nat) (m : Memory) (done rem p w : Nat) : Memory :=
  match fuel with
  | 0 => m
  | fuel + 1 =>
    if rem = 0 then m
    else
      let off := p % 8
      let c := min rem (8 - off)
      let src := if big then (v >>> (n - done - c)) &&& (2 ^ c - 1) else w &&& (2 ^ c - 1)
      let sh := if big then 8 - off - c else off
      let m' := Memory.write m (p / 8) (mergeByte (Memory.read m (p / 8)) sh c src)
      memWriteLoop big n v fuel m' (done + c) (rem - c) (p + c) (if big then w else w >>> c)

/-- `MemWrite`: the low `n` bits of `v` stored at bit address `a` under the given endianness (R53). -/
def memWrite (m : Memory) (big : Bool) (a n v : Nat) : Memory := memWriteLoop big n v n m 0 n a v

/-! ## Sub-steps -/

/-- How a sub-step of a command ends: with a value, or with a status that ends the command. Either way the state it
leaves stays (R17, R306). -/
inductive SubStep (α : Type) where
  | done (v : α) (s : State)
  | raised (e : Status) (s : State)
deriving DecidableEq, Repr

/-- The first sub-step and then, if it did not raise, the second. -/
def SubStep.andThen {α β : Type} (r : SubStep α) (f : α → State → SubStep β) : SubStep β :=
  match r with
  | .done v s => f v s
  | .raised e s => .raised e s

/-- The end of a command: the result of its sub-steps as a response, or the status they raised. -/
def SubStep.answer {α : Type} (r : SubStep α) (f : α → Operand) : Result :=
  match r with
  | .done v s => respond (f v) s
  | .raised e s => raise e s

/-- `check(s, n)`: the status a raw access of `n` bits raises, if any; the width test comes first (R121, R313). -/
def check (c : Slot) (n : Nat) : Option Status :=
  if n < 1 ∨ rawMax < n then some .width
  else if c.bitsLeft < n then some .exhausted
  else none

/-- `read_bits(s, n)` (R120). -/
def readBits (x n : Nat) (s : State) : SubStep Nat :=
  match check (s.slot x) n with
  | some e => .raised e s
  | none =>
    let c := s.slot x
    .done (memRead c.buf c.big c.idx n) (s.setSlot x { c with idx := c.idx + n })

/-- `write_bits_us(s, v, n)` (R120). -/
def writeBits (x v n : Nat) (s : State) : SubStep Unit :=
  match check (s.slot x) n with
  | some e => .raised e s
  | none =>
    let c := s.slot x
    .done () (s.setSlot x { c with buf := memWrite c.buf c.big c.idx n (v % 2 ^ n), idx := c.idx + n })

/-- `rd_narrow(s, w)` (R141). -/
def readNarrow (x w : Nat) (s : State) : SubStep Nat := readBits x w s

/-- `wr_narrow(s, x, w)` (R141). -/
def writeNarrow (x v w : Nat) (s : State) : SubStep Unit := writeBits x (v % 2 ^ w) w s

/-- The loop of `rd_wide` from chunk `i` on: `k` chunks of 32 bits are still to be read into `v` (R142). -/
def readChunks (x k i v : Nat) (s : State) : SubStep Nat :=
  match k with
  | 0 => .done v s
  | k + 1 => (readBits x 32 s).andThen fun chunk s' => readChunks x k (i + 1) (v ||| (chunk <<< (32 * i))) s'

/-- `rd_wide(s, w)`: w/32 chunks, least significant first (R142). -/
def readWide (x w : Nat) (s : State) : SubStep Nat := readChunks x (w / 32) 0 0 s

/-- The loop of `wr_wide` from chunk `i` on: `k` chunks of `v` are still to be written (R142). -/
def writeChunks (x v k i : Nat) (s : State) : SubStep Unit :=
  match k with
  | 0 => .done () s
  | k + 1 => (writeBits x ((v >>> (32 * i)) % 2 ^ 32) 32 s).andThen fun _ s' => writeChunks x v k (i + 1) s'

/-- `wr_wide(s, x, w)`: w/32 chunks, least significant first (R142). -/
def writeWide (x v w : Nat) (s : State) : SubStep Unit := writeChunks x v (w / 32) 0 s

/-! ## What the read and write commands share -/

/-- A command that reads: `slotcheck`, the read, and its value as `f` puts it in the result field. -/
def readCommand (x : Nat) (read : State → SubStep Nat) (f : Nat → Operand) (s : State) : Result :=
  withSlot x s ((read s).answer f)

/-- A command that writes: `slotcheck`, the write, and an empty result (R73). -/
def writeCommand (x : Nat) (write : State → SubStep Unit) (s : State) : Result :=
  withSlot x s ((write s).answer fun _ => 0)

end Sys2Proof.Machine
end

