-- ==== Sys2Proof/Machine/CodecCommands.lean ====
section
/-! DEFINITION. The codec commands (43_float_codec.md, section 5). -/

namespace Sys2Proof.Machine

/-- The configuration a context holds (R30, R201). -/
def Context.cfg (k : Context) : CodecCfg :=
  { bits := k.bits.toNat, ebits := k.ebits.toNat, signed := k.signed }

/-- CNEW's test on its operands: ERR_CONFIG when it holds (R200, R303). -/
def badConfig (bits ebits : Nat) : Bool :=
  decide (bitsMax < bits) || decide (bits ≤ ebits) || decide (ebits = 0)

/-- CNEW (R200). -/
def execCnew (j : Nat) (bits ebits : BitVec 8) (signed : Bool) (s : State) : Result :=
  if s.nctx ≤ j then raise .ctx s
  else if badConfig bits.toNat ebits.toNat then raise .config s
  else respond 0 (s.setCtx j { valid := true, bits := bits, ebits := ebits, signed := signed })

/-- ENC (R201). -/
def execEnc (j : Nat) (x : F64) (s : State) : Result :=
  if ctxOk j s then respond (zext128 (encodeFloat numerics (s.ctx j).cfg x)) s else raise .ctx s

/-- DEC (R202). -/
def execDec (j : Nat) (p : BitVec 128) (s : State) : Result :=
  if ctxOk j s then respond (f64Result (decodeFloat numerics (s.ctx j).cfg p.toNat)) s else raise .ctx s

end Sys2Proof.Machine
end

