-- ==== Sys2Proof/Machine/CursorControl.lean ====
section
/-! DEFINITION. The cursor control commands (40_cursor_control.md). Each checks everything first and then acts (R111). -/

namespace Sys2Proof.Machine

/-- NEW (R100). The old cursor of the slot, if any, is discarded. -/
def execNew (x : Nat) (len : BitVec 64) (s : State) : Result :=
  if s.nslot ≤ x then raise .slot s
  else if s.cap < len.toNat then raise .capacity s
  else respond 0 (s.setSlot x { valid := true, len := len.toNat, idx := 0, big := false, buf := [] })

/-- SETIDX (R101). -/
def execSetidx (x : Nat) (bits : BitVec 64) (s : State) : Result :=
  withSlot x s <|
    if 8 * (s.slot x).len ≤ bits.toNat then raise .index s
    else respond 0 (s.setSlot x { s.slot x with idx := bits.toNat })

/-- GETIDX (R102). -/
def execGetidx (x : Nat) (s : State) : Result :=
  withSlot x s (respond (zext128 (s.slot x).idx) s)

/-- SETEND (R103). -/
def execSetend (x : Nat) (big : Bool) (s : State) : Result :=
  withSlot x s (respond 0 (s.setSlot x { s.slot x with big := big }))

/-- GETEND (R104). -/
def execGetend (x : Nat) (s : State) : Result :=
  withSlot x s (respond (zext128 (bigCode (s.slot x).big)) s)

/-- BITSLEFT (R105). -/
def execBitsleft (x : Nat) (s : State) : Result :=
  withSlot x s (respond (zext128 (s.slot x).bitsLeft) s)

/-- GETLEN (R106). -/
def execGetlen (x : Nat) (s : State) : Result :=
  withSlot x s (respond (zext128 (s.slot x).len) s)

/-- The bit index moved forward to the next multiple of 8, by 0 to 7 bits (R107). -/
def alignedIndex (idx : Nat) : Nat := idx + (8 - idx % 8) % 8

/-- ALIGN (R107). The buffer is not written. -/
def execAlign (x : Nat) (s : State) : Result :=
  withSlot x s (respond 0 (s.setSlot x { s.slot x with idx := alignedIndex (s.slot x).idx }))

/-- A byte offset of SLICE: a negative one counts from the end of the buffer, normalised once (R108). -/
def sliceOffset (v : BitVec 64) (len : Nat) : Int :=
  if signed64 v < 0 then signed64 v + len else signed64 v

/-- SLICE (R108). -/
def execSlice (d t : Nat) (start stop : BitVec 64) (s : State) : Result :=
  if s.nslot ≤ d then raise .slot s
  else withSlot t s <|
    if d = t then raise .slot s
    else
      let src := s.slot t
      let a := sliceOffset start src.len
      let b := sliceOffset stop src.len
      if a < 0 ∨ b < 0 ∨ (src.len : Int) < a ∨ (src.len : Int) < b ∨ b < a then raise .slice s
      else respond 0 (s.setSlot d { valid := true, len := b.toNat - a.toNat, idx := 0, big := src.big,
                                    buf := Memory.slice src.buf a.toNat b.toNat })

end Sys2Proof.Machine
end

