-- ==== Sys2Proof/Machine/FloatCursor.lean ====
section
/-! DEFINITION. The float commands of the cursor (44_float_cursor.md): the preset's pattern moved through the integer
path of its width (R221, R222, R239). -/

namespace Sys2Proof.Machine

/-- `decode(P, p)` as the result field of a float read (R221, R74). -/
def floatResult (c : CodecCfg) (p : Nat) : Operand := f64Result (decodeFloat numerics c p)

/-- RDF8 (R223). -/
def execRdf8 (x : Nat) (s : State) : Result := readCommand x (readNarrow x 8) (floatResult presetF8S) s

/-- RDF16 (R224). -/
def execRdf16 (x : Nat) (s : State) : Result := readCommand x (readNarrow x 16) (floatResult presetF16S) s

/-- RDF32 (R225). -/
def execRdf32 (x : Nat) (s : State) : Result := readCommand x (readNarrow x 32) (floatResult presetF32S) s

/-- RDF64 (R226). -/
def execRdf64 (x : Nat) (s : State) : Result := readCommand x (readWide x 64) (floatResult presetF64S) s

/-- RDUF8 (R227). -/
def execRduf8 (x : Nat) (s : State) : Result := readCommand x (readNarrow x 8) (floatResult presetF8U) s

/-- RDUF16 (R228). -/
def execRduf16 (x : Nat) (s : State) : Result := readCommand x (readNarrow x 16) (floatResult presetF16U) s

/-- RDUF32 (R229). -/
def execRduf32 (x : Nat) (s : State) : Result := readCommand x (readNarrow x 32) (floatResult presetF32U) s

/-- RDUF64 (R230). -/
def execRduf64 (x : Nat) (s : State) : Result := readCommand x (readWide x 64) (floatResult presetF64U) s

/-- WRF8 (R231). -/
def execWrf8 (x : Nat) (v : F64) (s : State) : Result :=
  writeCommand x (writeNarrow x (encodeFloat numerics presetF8S v) 8) s

/-- WRF16 (R232). -/
def execWrf16 (x : Nat) (v : F64) (s : State) : Result :=
  writeCommand x (writeNarrow x (encodeFloat numerics presetF16S v) 16) s

/-- WRF32 (R233). -/
def execWrf32 (x : Nat) (v : F64) (s : State) : Result :=
  writeCommand x (writeNarrow x (encodeFloat numerics presetF32S v) 32) s

/-- WRF64 (R234). -/
def execWrf64 (x : Nat) (v : F64) (s : State) : Result :=
  writeCommand x (writeWide x (encodeFloat numerics presetF64S v) 64) s

/-- WRUF8 (R235). -/
def execWruf8 (x : Nat) (v : F64) (s : State) : Result :=
  writeCommand x (writeNarrow x (encodeFloat numerics presetF8U v) 8) s

/-- WRUF16 (R236). -/
def execWruf16 (x : Nat) (v : F64) (s : State) : Result :=
  writeCommand x (writeNarrow x (encodeFloat numerics presetF16U v) 16) s

/-- WRUF32 (R237). -/
def execWruf32 (x : Nat) (v : F64) (s : State) : Result :=
  writeCommand x (writeNarrow x (encodeFloat numerics presetF32U v) 32) s

/-- WRUF64 (R238). -/
def execWruf64 (x : Nat) (v : F64) (s : State) : Result :=
  writeCommand x (writeWide x (encodeFloat numerics presetF64U v) 64) s

end Sys2Proof.Machine
end

