-- ==== Sys2Proof/Machine/Integers.lean ====
section
/-! DEFINITION. The boolean and integer commands (42_integers.md): 4 to 32 bits are one raw access (R141), 64 and 128
bits are two or four accesses of 32 bits, low chunk first (R142). -/

namespace Sys2Proof.Machine

/-- RDBOOL (R143). -/
def execRdbool (x : Nat) (s : State) : Result := readCommand x (readNarrow x 1) zext128 s

/-- WRBOOL (R144). -/
def execWrbool (x : Nat) (b : Bool) (s : State) : Result := writeCommand x (writeNarrow x (boolBit b) 1) s

/-- RDU4 (R145). -/
def execRdu4 (x : Nat) (s : State) : Result := readCommand x (readNarrow x 4) zext128 s

/-- RDU8 (R146). -/
def execRdu8 (x : Nat) (s : State) : Result := readCommand x (readNarrow x 8) zext128 s

/-- RDU16 (R147). -/
def execRdu16 (x : Nat) (s : State) : Result := readCommand x (readNarrow x 16) zext128 s

/-- RDU32 (R148). -/
def execRdu32 (x : Nat) (s : State) : Result := readCommand x (readNarrow x 32) zext128 s

/-- RDU64 (R149). -/
def execRdu64 (x : Nat) (s : State) : Result := readCommand x (readWide x 64) zext128 s

/-- RDU128 (R150). -/
def execRdu128 (x : Nat) (s : State) : Result := readCommand x (readWide x 128) zext128 s

/-- RDI4 (R151). -/
def execRdi4 (x : Nat) (s : State) : Result := readCommand x (readNarrow x 4) (fun v => sext128 v 4) s

/-- RDI8 (R152). -/
def execRdi8 (x : Nat) (s : State) : Result := readCommand x (readNarrow x 8) (fun v => sext128 v 8) s

/-- RDI16 (R153). -/
def execRdi16 (x : Nat) (s : State) : Result := readCommand x (readNarrow x 16) (fun v => sext128 v 16) s

/-- RDI32 (R154). -/
def execRdi32 (x : Nat) (s : State) : Result := readCommand x (readNarrow x 32) (fun v => sext128 v 32) s

/-- RDI64 (R155). -/
def execRdi64 (x : Nat) (s : State) : Result := readCommand x (readWide x 64) (fun v => sext128 v 64) s

/-- RDI128 (R156). -/
def execRdi128 (x : Nat) (s : State) : Result := readCommand x (readWide x 128) (fun v => sext128 v 128) s

/-- WRU4 (R157). -/
def execWru4 (x : Nat) (value : BitVec 4) (s : State) : Result :=
  writeCommand x (writeNarrow x value.toNat 4) s

/-- WRU8 (R158). -/
def execWru8 (x : Nat) (value : BitVec 8) (s : State) : Result :=
  writeCommand x (writeNarrow x value.toNat 8) s

/-- WRU16 (R159). -/
def execWru16 (x : Nat) (value : BitVec 16) (s : State) : Result :=
  writeCommand x (writeNarrow x value.toNat 16) s

/-- WRU32 (R160). -/
def execWru32 (x : Nat) (value : BitVec 32) (s : State) : Result :=
  writeCommand x (writeNarrow x value.toNat 32) s

/-- WRU64 (R161). -/
def execWru64 (x : Nat) (value : BitVec 64) (s : State) : Result :=
  writeCommand x (writeWide x value.toNat 64) s

/-- WRU128 (R162). -/
def execWru128 (x : Nat) (value : BitVec 128) (s : State) : Result :=
  writeCommand x (writeWide x value.toNat 128) s

/-- WRI4 (R163). -/
def execWri4 (x : Nat) (value : BitVec 4) (s : State) : Result :=
  writeCommand x (writeNarrow x value.toNat 4) s

/-- WRI8 (R164). -/
def execWri8 (x : Nat) (value : BitVec 8) (s : State) : Result :=
  writeCommand x (writeNarrow x value.toNat 8) s

/-- WRI16 (R165). -/
def execWri16 (x : Nat) (value : BitVec 16) (s : State) : Result :=
  writeCommand x (writeNarrow x value.toNat 16) s

/-- WRI32 (R166). -/
def execWri32 (x : Nat) (value : BitVec 32) (s : State) : Result :=
  writeCommand x (writeNarrow x value.toNat 32) s

/-- WRI64 (R167). -/
def execWri64 (x : Nat) (value : BitVec 64) (s : State) : Result :=
  writeCommand x (writeWide x value.toNat 64) s

/-- WRI128 (R168). -/
def execWri128 (x : Nat) (value : BitVec 128) (s : State) : Result :=
  writeCommand x (writeWide x value.toNat 128) s

end Sys2Proof.Machine
end

