-- ==== Sys2Proof/Machine/NestedStream.lean ====
section
/-! DEFINITION. The nested bit-stream copy (45_nested_stream.md). -/

namespace Sys2Proof.Machine

/-- One chunk of the copy: `c` bits read from slot `t` and written to slot `d`. When the write raises, the read has
already advanced the source (R250). -/
def copyChunk (d t c : Nat) (s : State) : SubStep Unit :=
  (readBits t c s).andThen fun v s' => writeBits d v c s'

/-- The loop of WRBS: `rem` bits are still to be copied, up to 32 at a time (R250). Each turn copies at least one bit,
so `fuel` = `rem` turns suffice (log 16). -/
def copyLoop (d t fuel rem : Nat) (s : State) : SubStep Unit :=
  match fuel with
  | 0 => .done () s
  | fuel + 1 =>
    if rem = 0 then .done () s
    else (copyChunk d t (min 32 rem) s).andThen fun _ s' => copyLoop d t fuel (rem - min 32 rem) s'

/-- WRBS (R250). -/
def execWrbs (d t : Nat) (nbits : BitVec 64) (s : State) : Result :=
  withSlot d s <| withSlot t s <|
    if d = t then raise .slot s
    else (copyLoop d t nbits.toNat nbits.toNat s).answer fun _ => 0

end Sys2Proof.Machine
end

