-- ==== Sys2Proof/Machine/RawBits.lean ====
section
/-! DEFINITION. The raw bit read and write commands (41_raw_bits.md). -/

namespace Sys2Proof.Machine

/-- RDB (R122). -/
def execRdb (x n : Nat) (s : State) : Result := readCommand x (readBits x n) zext128 s

/-- RDBS (R123): sign-extended to 32 bits, then to 128. -/
def execRdbs (x n : Nat) (s : State) : Result :=
  readCommand x (readBits x n) (fun v => sext128 (extendBits32 v n) 32) s

/-- WRBU (R124). -/
def execWrbu (x n : Nat) (value : BitVec 32) (s : State) : Result :=
  writeCommand x (writeBits x value.toNat n) s

/-- WRB (R125): the two's complement pattern is written as it stands. -/
def execWrb (x n : Nat) (value : BitVec 32) (s : State) : Result :=
  writeCommand x (writeBits x value.toNat n) s

end Sys2Proof.Machine
end

