-- ==== Sys2Proof/Machine/Dispatch.lean ====
section
/-! DEFINITION. One arm per command of the opcode map R75, each a direct call of its meaning. -/

namespace Sys2Proof.Machine

def exec (i : Instr) (s : State) : Host.Outcome State Fault Refusal :=
  match i with
  | .new c len => Sys2Proof.Machine.execNew c len s
  | .setidx c bits => Sys2Proof.Machine.execSetidx c bits s
  | .getidx c => Sys2Proof.Machine.execGetidx c s
  | .setend c big => Sys2Proof.Machine.execSetend c big s
  | .getend c => Sys2Proof.Machine.execGetend c s
  | .bitsleft c => Sys2Proof.Machine.execBitsleft c s
  | .getlen c => Sys2Proof.Machine.execGetlen c s
  | .align c => Sys2Proof.Machine.execAlign c s
  | .slice d t start stop => Sys2Proof.Machine.execSlice d t start stop s
  | .rdb c n => Sys2Proof.Machine.execRdb c n s
  | .rdbs c n => Sys2Proof.Machine.execRdbs c n s
  | .wrbu c n value => Sys2Proof.Machine.execWrbu c n value s
  | .wrb c n value => Sys2Proof.Machine.execWrb c n value s
  | .rdbool c => Sys2Proof.Machine.execRdbool c s
  | .wrbool c b => Sys2Proof.Machine.execWrbool c b s
  | .rdu4 c => Sys2Proof.Machine.execRdu4 c s
  | .rdu8 c => Sys2Proof.Machine.execRdu8 c s
  | .rdu16 c => Sys2Proof.Machine.execRdu16 c s
  | .rdu32 c => Sys2Proof.Machine.execRdu32 c s
  | .rdu64 c => Sys2Proof.Machine.execRdu64 c s
  | .rdu128 c => Sys2Proof.Machine.execRdu128 c s
  | .rdi4 c => Sys2Proof.Machine.execRdi4 c s
  | .rdi8 c => Sys2Proof.Machine.execRdi8 c s
  | .rdi16 c => Sys2Proof.Machine.execRdi16 c s
  | .rdi32 c => Sys2Proof.Machine.execRdi32 c s
  | .rdi64 c => Sys2Proof.Machine.execRdi64 c s
  | .rdi128 c => Sys2Proof.Machine.execRdi128 c s
  | .wru4 c value => Sys2Proof.Machine.execWru4 c value s
  | .wru8 c value => Sys2Proof.Machine.execWru8 c value s
  | .wru16 c value => Sys2Proof.Machine.execWru16 c value s
  | .wru32 c value => Sys2Proof.Machine.execWru32 c value s
  | .wru64 c value => Sys2Proof.Machine.execWru64 c value s
  | .wru128 c value => Sys2Proof.Machine.execWru128 c value s
  | .wri4 c value => Sys2Proof.Machine.execWri4 c value s
  | .wri8 c value => Sys2Proof.Machine.execWri8 c value s
  | .wri16 c value => Sys2Proof.Machine.execWri16 c value s
  | .wri32 c value => Sys2Proof.Machine.execWri32 c value s
  | .wri64 c value => Sys2Proof.Machine.execWri64 c value s
  | .wri128 c value => Sys2Proof.Machine.execWri128 c value s
  | .rdf8 c => Sys2Proof.Machine.execRdf8 c s
  | .rdf16 c => Sys2Proof.Machine.execRdf16 c s
  | .rdf32 c => Sys2Proof.Machine.execRdf32 c s
  | .rdf64 c => Sys2Proof.Machine.execRdf64 c s
  | .rduf8 c => Sys2Proof.Machine.execRduf8 c s
  | .rduf16 c => Sys2Proof.Machine.execRduf16 c s
  | .rduf32 c => Sys2Proof.Machine.execRduf32 c s
  | .rduf64 c => Sys2Proof.Machine.execRduf64 c s
  | .wrf8 c x => Sys2Proof.Machine.execWrf8 c x s
  | .wrf16 c x => Sys2Proof.Machine.execWrf16 c x s
  | .wrf32 c x => Sys2Proof.Machine.execWrf32 c x s
  | .wrf64 c x => Sys2Proof.Machine.execWrf64 c x s
  | .wruf8 c x => Sys2Proof.Machine.execWruf8 c x s
  | .wruf16 c x => Sys2Proof.Machine.execWruf16 c x s
  | .wruf32 c x => Sys2Proof.Machine.execWruf32 c x s
  | .wruf64 c x => Sys2Proof.Machine.execWruf64 c x s
  | .wrbs d t nbits => Sys2Proof.Machine.execWrbs d t nbits s
  | .cnew k bits ebits signed => Sys2Proof.Machine.execCnew k bits ebits signed s
  | .enc k x => Sys2Proof.Machine.execEnc k x s
  | .dec k p => Sys2Proof.Machine.execDec k p s

end Sys2Proof.Machine
end

