-- ==== Sys2Proof/WellFormed.lean ====
section
/-! DEFINITION. Which commands are well-formed: whose slot, context and count fields fit their bits of `word` (R71).

A well-formed command may still name a slot or context that does not exist or a count outside 1..32: R77 makes such a
word legal, and the command answers ERR_SLOT, ERR_CTX or ERR_WIDTH. -/

namespace Sys2Proof

/-- The number placed in `word[11:8]`: the primary slot, or the context of CNEW, ENC and DEC (R71). -/
def Instr.primary (i : Instr) : Nat :=
  match i with
  | .new i _ | .setidx i _ | .getidx i | .setend i _ | .getend i | .bitsleft i | .getlen i | .align i
  | .slice i _ _ _ | .rdb i _ | .rdbs i _ | .wrbu i _ _ | .wrb i _ _ | .rdbool i | .wrbool i _ | .rdu4 i
  | .rdu8 i | .rdu16 i | .rdu32 i | .rdu64 i | .rdu128 i | .rdi4 i | .rdi8 i | .rdi16 i | .rdi32 i | .rdi64 i
  | .rdi128 i | .wru4 i _ | .wru8 i _ | .wru16 i _ | .wru32 i _ | .wru64 i _ | .wru128 i _ | .wri4 i _
  | .wri8 i _ | .wri16 i _ | .wri32 i _ | .wri64 i _ | .wri128 i _ | .rdf8 i | .rdf16 i | .rdf32 i | .rdf64 i
  | .rduf8 i | .rduf16 i | .rduf32 i | .rduf64 i | .wrf8 i _ | .wrf16 i _ | .wrf32 i _ | .wrf64 i _
  | .wruf8 i _ | .wruf16 i _ | .wruf32 i _ | .wruf64 i _ | .wrbs i _ _ | .cnew i _ _ _ | .enc i _ | .dec i _ => i

/-- The number placed in `word[15:12]`: the source slot of SLICE and WRBS, zero elsewhere (R71). -/
def Instr.secondary (i : Instr) : Nat :=
  match i with
  | .slice _ t _ _ | .wrbs _ t _ => t
  | .new _ _ | .setidx _ _ | .getidx _ | .setend _ _ | .getend _ | .bitsleft _ | .getlen _ | .align _
  | .rdb _ _ | .rdbs _ _ | .wrbu _ _ _ | .wrb _ _ _ | .rdbool _ | .wrbool _ _ | .rdu4 _ | .rdu8 _ | .rdu16 _
  | .rdu32 _ | .rdu64 _ | .rdu128 _ | .rdi4 _ | .rdi8 _ | .rdi16 _ | .rdi32 _ | .rdi64 _ | .rdi128 _
  | .wru4 _ _ | .wru8 _ _ | .wru16 _ _ | .wru32 _ _ | .wru64 _ _ | .wru128 _ _ | .wri4 _ _ | .wri8 _ _
  | .wri16 _ _ | .wri32 _ _ | .wri64 _ _ | .wri128 _ _ | .rdf8 _ | .rdf16 _ | .rdf32 _ | .rdf64 _ | .rduf8 _
  | .rduf16 _ | .rduf32 _ | .rduf64 _ | .wrf8 _ _ | .wrf16 _ _ | .wrf32 _ _ | .wrf64 _ _ | .wruf8 _ _
  | .wruf16 _ _ | .wruf32 _ _ | .wruf64 _ _ | .cnew _ _ _ _ | .enc _ _ | .dec _ _ => 0

/-- The number placed in `word[21:16]`: the bit count of a raw access, zero elsewhere (R71). -/
def Instr.count (i : Instr) : Nat :=
  match i with
  | .rdb _ n | .rdbs _ n | .wrbu _ n _ | .wrb _ n _ => n
  | .new _ _ | .setidx _ _ | .getidx _ | .setend _ _ | .getend _ | .bitsleft _ | .getlen _ | .align _
  | .slice _ _ _ _ | .rdbool _ | .wrbool _ _ | .rdu4 _ | .rdu8 _ | .rdu16 _ | .rdu32 _ | .rdu64 _ | .rdu128 _
  | .rdi4 _ | .rdi8 _ | .rdi16 _ | .rdi32 _ | .rdi64 _ | .rdi128 _ | .wru4 _ _ | .wru8 _ _ | .wru16 _ _
  | .wru32 _ _ | .wru64 _ _ | .wru128 _ _ | .wri4 _ _ | .wri8 _ _ | .wri16 _ _ | .wri32 _ _ | .wri64 _ _
  | .wri128 _ _ | .rdf8 _ | .rdf16 _ | .rdf32 _ | .rdf64 _ | .rduf8 _ | .rduf16 _ | .rduf32 _ | .rduf64 _
  | .wrf8 _ _ | .wrf16 _ _ | .wrf32 _ _ | .wrf64 _ _ | .wruf8 _ _ | .wruf16 _ _ | .wruf32 _ _ | .wruf64 _ _
  | .wrbs _ _ _ | .cnew _ _ _ _ | .enc _ _ | .dec _ _ => 0

/-- Every numeric field fits: 4 bits for each slot or context number, 6 bits for a bit count (R71). -/
abbrev Instr.WellFormed (i : Instr) : Prop :=
  i.primary < 16 ∧ i.secondary < 16 ∧ i.count < 64

end Sys2Proof
end

