-- ==== Sys2Proof/Decode.lean ====
section
/-! DEFINITION. The decoder, total on every packet (R77), and the encoder, both written from the field table R71, the
formats R72, the operand table R74 and the opcode map R75. -/

namespace Sys2Proof

/-- Why a command word is illegal (R77): it is answered with ERR_ILLEGAL either way. -/
inductive Illegal where
  /-- R77 (a): no row of R75 has the opcode. -/
  | unknownOpcode
  /-- R77 (b): a bit outside the row's used fields is 1. -/
  | reservedBits
deriving DecidableEq, Repr

/-- `op`, `word[7:0]` (R71). -/
def Packet.fieldOp (p : Packet) : Nat := p.word.toNat % 2 ^ 8

/-- `s` or `k`, `word[11:8]` (R71). -/
def Packet.fieldS (p : Packet) : Nat := p.word.toNat / 2 ^ 8 % 2 ^ 4

/-- `t`, `word[15:12]` (R71). -/
def Packet.fieldT (p : Packet) : Nat := p.word.toNat / 2 ^ 12 % 2 ^ 4

/-- `n`, `word[21:16]` (R71). -/
def Packet.fieldN (p : Packet) : Nat := p.word.toNat / 2 ^ 16 % 2 ^ 6

/-- The mask of a format: the bits of `word` that must match (R72). -/
def Format.mask (f : Format) : Word :=
  match f with
  | .c => 0xFFFFF0FF
  | .cn => 0xFFC0F0FF
  | .cc => 0xFFFF00FF
  | .k => 0xFFFFF0FF

/-- One row of the opcode map (R75), with the operand fields of R74 as the function that reads the command. -/
structure Row where
  mnemonic : String
  op : Nat
  fmt : Format
  read : Packet → Instr

/-- R75: cursor control, opcodes 0x01 to 0x09. -/
def cursorRows : List Row := [
  ⟨"NEW", 0x01, .c, fun p => .new p.fieldS (p.opa.setWidth 64)⟩,
  ⟨"SETIDX", 0x02, .c, fun p => .setidx p.fieldS (p.opa.setWidth 64)⟩,
  ⟨"GETIDX", 0x03, .c, fun p => .getidx p.fieldS⟩,
  ⟨"SETEND", 0x04, .c, fun p => .setend p.fieldS (p.opa.getLsbD 0)⟩,
  ⟨"GETEND", 0x05, .c, fun p => .getend p.fieldS⟩,
  ⟨"BITSLEFT", 0x06, .c, fun p => .bitsleft p.fieldS⟩,
  ⟨"GETLEN", 0x07, .c, fun p => .getlen p.fieldS⟩,
  ⟨"ALIGN", 0x08, .c, fun p => .align p.fieldS⟩,
  ⟨"SLICE", 0x09, .cc, fun p => .slice p.fieldS p.fieldT (p.opa.setWidth 64) (p.opb.setWidth 64)⟩]

/-- R75: raw and boolean accesses, opcodes 0x10 to 0x15. -/
def rawRows : List Row := [
  ⟨"RDB", 0x10, .cn, fun p => .rdb p.fieldS p.fieldN⟩,
  ⟨"RDBS", 0x11, .cn, fun p => .rdbs p.fieldS p.fieldN⟩,
  ⟨"WRBU", 0x12, .cn, fun p => .wrbu p.fieldS p.fieldN (p.opa.setWidth 32)⟩,
  ⟨"WRB", 0x13, .cn, fun p => .wrb p.fieldS p.fieldN (p.opa.setWidth 32)⟩,
  ⟨"RDBOOL", 0x14, .c, fun p => .rdbool p.fieldS⟩,
  ⟨"WRBOOL", 0x15, .c, fun p => .wrbool p.fieldS (p.opa.getLsbD 0)⟩]

/-- R75: integer reads, opcodes 0x20 to 0x2D. -/
def integerReadRows : List Row := [
  ⟨"RDU4", 0x20, .c, fun p => .rdu4 p.fieldS⟩,
  ⟨"RDU8", 0x21, .c, fun p => .rdu8 p.fieldS⟩,
  ⟨"RDU16", 0x22, .c, fun p => .rdu16 p.fieldS⟩,
  ⟨"RDU32", 0x23, .c, fun p => .rdu32 p.fieldS⟩,
  ⟨"RDU64", 0x24, .c, fun p => .rdu64 p.fieldS⟩,
  ⟨"RDU128", 0x25, .c, fun p => .rdu128 p.fieldS⟩,
  ⟨"RDI4", 0x28, .c, fun p => .rdi4 p.fieldS⟩,
  ⟨"RDI8", 0x29, .c, fun p => .rdi8 p.fieldS⟩,
  ⟨"RDI16", 0x2A, .c, fun p => .rdi16 p.fieldS⟩,
  ⟨"RDI32", 0x2B, .c, fun p => .rdi32 p.fieldS⟩,
  ⟨"RDI64", 0x2C, .c, fun p => .rdi64 p.fieldS⟩,
  ⟨"RDI128", 0x2D, .c, fun p => .rdi128 p.fieldS⟩]

/-- R75: integer writes, opcodes 0x30 to 0x3D. -/
def integerWriteRows : List Row := [
  ⟨"WRU4", 0x30, .c, fun p => .wru4 p.fieldS (p.opa.setWidth 4)⟩,
  ⟨"WRU8", 0x31, .c, fun p => .wru8 p.fieldS (p.opa.setWidth 8)⟩,
  ⟨"WRU16", 0x32, .c, fun p => .wru16 p.fieldS (p.opa.setWidth 16)⟩,
  ⟨"WRU32", 0x33, .c, fun p => .wru32 p.fieldS (p.opa.setWidth 32)⟩,
  ⟨"WRU64", 0x34, .c, fun p => .wru64 p.fieldS (p.opa.setWidth 64)⟩,
  ⟨"WRU128", 0x35, .c, fun p => .wru128 p.fieldS p.opa⟩,
  ⟨"WRI4", 0x38, .c, fun p => .wri4 p.fieldS (p.opa.setWidth 4)⟩,
  ⟨"WRI8", 0x39, .c, fun p => .wri8 p.fieldS (p.opa.setWidth 8)⟩,
  ⟨"WRI16", 0x3A, .c, fun p => .wri16 p.fieldS (p.opa.setWidth 16)⟩,
  ⟨"WRI32", 0x3B, .c, fun p => .wri32 p.fieldS (p.opa.setWidth 32)⟩,
  ⟨"WRI64", 0x3C, .c, fun p => .wri64 p.fieldS (p.opa.setWidth 64)⟩,
  ⟨"WRI128", 0x3D, .c, fun p => .wri128 p.fieldS p.opa⟩]

/-- R75: float reads and writes, opcodes 0x40 to 0x4F. -/
def floatRows : List Row := [
  ⟨"RDF8", 0x40, .c, fun p => .rdf8 p.fieldS⟩,
  ⟨"RDF16", 0x41, .c, fun p => .rdf16 p.fieldS⟩,
  ⟨"RDF32", 0x42, .c, fun p => .rdf32 p.fieldS⟩,
  ⟨"RDF64", 0x43, .c, fun p => .rdf64 p.fieldS⟩,
  ⟨"RDUF8", 0x44, .c, fun p => .rduf8 p.fieldS⟩,
  ⟨"RDUF16", 0x45, .c, fun p => .rduf16 p.fieldS⟩,
  ⟨"RDUF32", 0x46, .c, fun p => .rduf32 p.fieldS⟩,
  ⟨"RDUF64", 0x47, .c, fun p => .rduf64 p.fieldS⟩,
  ⟨"WRF8", 0x48, .c, fun p => .wrf8 p.fieldS (p.opa.setWidth 64)⟩,
  ⟨"WRF16", 0x49, .c, fun p => .wrf16 p.fieldS (p.opa.setWidth 64)⟩,
  ⟨"WRF32", 0x4A, .c, fun p => .wrf32 p.fieldS (p.opa.setWidth 64)⟩,
  ⟨"WRF64", 0x4B, .c, fun p => .wrf64 p.fieldS (p.opa.setWidth 64)⟩,
  ⟨"WRUF8", 0x4C, .c, fun p => .wruf8 p.fieldS (p.opa.setWidth 64)⟩,
  ⟨"WRUF16", 0x4D, .c, fun p => .wruf16 p.fieldS (p.opa.setWidth 64)⟩,
  ⟨"WRUF32", 0x4E, .c, fun p => .wruf32 p.fieldS (p.opa.setWidth 64)⟩,
  ⟨"WRUF64", 0x4F, .c, fun p => .wruf64 p.fieldS (p.opa.setWidth 64)⟩]

/-- R75: nested stream and codec, opcodes 0x50 and 0x60 to 0x62. -/
def streamCodecRows : List Row := [
  ⟨"WRBS", 0x50, .cc, fun p => .wrbs p.fieldS p.fieldT (p.opa.setWidth 64)⟩,
  ⟨"CNEW", 0x60, .k, fun p => .cnew p.fieldS (p.opa.extractLsb' 0 8) (p.opa.extractLsb' 8 8) (p.opa.getLsbD 16)⟩,
  ⟨"ENC", 0x61, .k, fun p => .enc p.fieldS (p.opa.setWidth 64)⟩,
  ⟨"DEC", 0x62, .k, fun p => .dec p.fieldS p.opa⟩]

/-- The opcode map: one row per command (R75). -/
def opcodeMap : List Row :=
  cursorRows ++ rawRows ++ integerReadRows ++ integerWriteRows ++ floatRows ++ streamCodecRows

/-- The command a packet holds, or why its word is illegal. The row is the one with the word's opcode; the word is
legal when it agrees with the row's match value under the format's mask (R72, R77). Bits of `opa` and `opb` outside
the fields a command uses are ignored (R74). -/
def decode (p : Packet) : Except Illegal Instr :=
  match opcodeMap.find? (fun r => r.op == p.fieldOp) with
  | none => .error .unknownOpcode
  | some r => if p.word &&& r.fmt.mask = BitVec.ofNat 32 r.op then .ok (r.read p) else .error .reservedBits

/-- The opcode of a command (R75). -/
def Instr.opcode (i : Instr) : Nat :=
  match i with
  | .new _ _ => 0x01
  | .setidx _ _ => 0x02
  | .getidx _ => 0x03
  | .setend _ _ => 0x04
  | .getend _ => 0x05
  | .bitsleft _ => 0x06
  | .getlen _ => 0x07
  | .align _ => 0x08
  | .slice _ _ _ _ => 0x09
  | .rdb _ _ => 0x10
  | .rdbs _ _ => 0x11
  | .wrbu _ _ _ => 0x12
  | .wrb _ _ _ => 0x13
  | .rdbool _ => 0x14
  | .wrbool _ _ => 0x15
  | .rdu4 _ => 0x20
  | .rdu8 _ => 0x21
  | .rdu16 _ => 0x22
  | .rdu32 _ => 0x23
  | .rdu64 _ => 0x24
  | .rdu128 _ => 0x25
  | .rdi4 _ => 0x28
  | .rdi8 _ => 0x29
  | .rdi16 _ => 0x2A
  | .rdi32 _ => 0x2B
  | .rdi64 _ => 0x2C
  | .rdi128 _ => 0x2D
  | .wru4 _ _ => 0x30
  | .wru8 _ _ => 0x31
  | .wru16 _ _ => 0x32
  | .wru32 _ _ => 0x33
  | .wru64 _ _ => 0x34
  | .wru128 _ _ => 0x35
  | .wri4 _ _ => 0x38
  | .wri8 _ _ => 0x39
  | .wri16 _ _ => 0x3A
  | .wri32 _ _ => 0x3B
  | .wri64 _ _ => 0x3C
  | .wri128 _ _ => 0x3D
  | .rdf8 _ => 0x40
  | .rdf16 _ => 0x41
  | .rdf32 _ => 0x42
  | .rdf64 _ => 0x43
  | .rduf8 _ => 0x44
  | .rduf16 _ => 0x45
  | .rduf32 _ => 0x46
  | .rduf64 _ => 0x47
  | .wrf8 _ _ => 0x48
  | .wrf16 _ _ => 0x49
  | .wrf32 _ _ => 0x4A
  | .wrf64 _ _ => 0x4B
  | .wruf8 _ _ => 0x4C
  | .wruf16 _ _ => 0x4D
  | .wruf32 _ _ => 0x4E
  | .wruf64 _ _ => 0x4F
  | .wrbs _ _ _ => 0x50
  | .cnew _ _ _ _ => 0x60
  | .enc _ _ => 0x61
  | .dec _ _ => 0x62

/-- The command word: `op`, `s`, `t` and `n` at their places, every other bit zero (R71). -/
def encodeWord (i : Instr) : Word :=
  BitVec.ofNat 32 (i.opcode + i.primary * 2 ^ 8 + i.secondary * 2 ^ 12 + i.count * 2 ^ 16)

/-- `opa` as R74 lays it out, bits outside the used field zero. -/
def encodeOpa (i : Instr) : Operand :=
  match i with
  | .new _ len => len.setWidth 128
  | .setidx _ bits => bits.setWidth 128
  | .setend _ big => (BitVec.ofBool big).setWidth 128
  | .slice _ _ start _ => start.setWidth 128
  | .wrbu _ _ value => value.setWidth 128
  | .wrb _ _ value => value.setWidth 128
  | .wrbool _ b => (BitVec.ofBool b).setWidth 128
  | .wru4 _ value => value.setWidth 128
  | .wru8 _ value => value.setWidth 128
  | .wru16 _ value => value.setWidth 128
  | .wru32 _ value => value.setWidth 128
  | .wru64 _ value => value.setWidth 128
  | .wru128 _ value => value
  | .wri4 _ value => value.setWidth 128
  | .wri8 _ value => value.setWidth 128
  | .wri16 _ value => value.setWidth 128
  | .wri32 _ value => value.setWidth 128
  | .wri64 _ value => value.setWidth 128
  | .wri128 _ value => value
  | .wrf8 _ x => x.setWidth 128
  | .wrf16 _ x => x.setWidth 128
  | .wrf32 _ x => x.setWidth 128
  | .wrf64 _ x => x.setWidth 128
  | .wruf8 _ x => x.setWidth 128
  | .wruf16 _ x => x.setWidth 128
  | .wruf32 _ x => x.setWidth 128
  | .wruf64 _ x => x.setWidth 128
  | .wrbs _ _ nbits => nbits.setWidth 128
  | .cnew _ bits ebits signed => (BitVec.ofBool signed ++ ebits ++ bits).setWidth 128
  | .enc _ x => x.setWidth 128
  | .dec _ p => p
  | .getidx _ | .getend _ | .bitsleft _ | .getlen _ | .align _ | .rdb _ _ | .rdbs _ _ | .rdbool _ | .rdu4 _
  | .rdu8 _ | .rdu16 _ | .rdu32 _ | .rdu64 _ | .rdu128 _ | .rdi4 _ | .rdi8 _ | .rdi16 _ | .rdi32 _ | .rdi64 _
  | .rdi128 _ | .rdf8 _ | .rdf16 _ | .rdf32 _ | .rdf64 _ | .rduf8 _ | .rduf16 _ | .rduf32 _ | .rduf64 _ => 0

/-- `opb` as R74 lays it out: only SLICE uses it. -/
def encodeOpb (i : Instr) : Operand :=
  match i with
  | .slice _ _ _ stop => stop.setWidth 128
  | .new _ _ | .setidx _ _ | .getidx _ | .setend _ _ | .getend _ | .bitsleft _ | .getlen _ | .align _
  | .rdb _ _ | .rdbs _ _ | .wrbu _ _ _ | .wrb _ _ _ | .rdbool _ | .wrbool _ _ | .rdu4 _ | .rdu8 _ | .rdu16 _
  | .rdu32 _ | .rdu64 _ | .rdu128 _ | .rdi4 _ | .rdi8 _ | .rdi16 _ | .rdi32 _ | .rdi64 _ | .rdi128 _
  | .wru4 _ _ | .wru8 _ _ | .wru16 _ _ | .wru32 _ _ | .wru64 _ _ | .wru128 _ _ | .wri4 _ _ | .wri8 _ _
  | .wri16 _ _ | .wri32 _ _ | .wri64 _ _ | .wri128 _ _ | .rdf8 _ | .rdf16 _ | .rdf32 _ | .rdf64 _ | .rduf8 _
  | .rduf16 _ | .rduf32 _ | .rduf64 _ | .wrf8 _ _ | .wrf16 _ _ | .wrf32 _ _ | .wrf64 _ _ | .wruf8 _ _
  | .wruf16 _ _ | .wruf32 _ _ | .wruf64 _ _ | .wrbs _ _ _ | .cnew _ _ _ _ | .enc _ _ | .dec _ _ => 0

/-- The packet of a command. -/
def encode (i : Instr) : Packet :=
  { word := encodeWord i, opa := encodeOpa i, opb := encodeOpb i }

/-- The packet whose bits, numbered from bit 0 of `word`, are the low `nbits` bits of `w`: `word` is bits 31..0, `opa`
bits 159..32, `opb` bits 287..160 (DESIGN CHOICE, log 12). -/
def Packet.ofTableWord (nbits w : Nat) : Packet :=
  let v := w % 2 ^ nbits
  { word := BitVec.ofNat 32 v, opa := BitVec.ofNat 128 (v / 2 ^ 32), opb := BitVec.ofNat 128 (v / 2 ^ 160) }

/-- The instruction the decoder reads from the opcode-table word `w` of `nbits` bits. -/
def decodeTableWord (nbits w : Nat) : Option Instr :=
  match decode (Packet.ofTableWord nbits w) with
  | .ok i => some i
  | .error _ => none

end Sys2Proof
end

