-- ==== Sys2Proof/Machine/Port.lean ====
section
/-! DEFINITION. The command port: taking the next packet, waiting without one, refusing an illegal word. -/

namespace Sys2Proof.Machine

/-- The state once the packet at the head of the input has been taken (R2, R22). -/
def State.takeCommand (s : State) : State := { s with cmds := s.cmds.tail }

/-- No packet is presented: the unit waits, changes nothing and gives no response (R342; log 1). -/
def idle (s : State) : Result := .next { s with resp := none }

/-- An illegal word: ERR_ILLEGAL and no state change (R77). -/
def illegalWord (s : State) : Result := raise .illegal s

/-- The host presents packets, in order, after those already presented (R10). -/
def State.present (s : State) (ps : List Packet) : State := { s with cmds := s.cmds ++ ps }

/-- The host presents a packet to be taken next. -/
def State.presentNext (s : State) (p : Packet) : State := { s with cmds := p :: s.cmds }

end Sys2Proof.Machine
end

