-- ==== Sys2Proof/Machine/Step.lean ====
section
/-! DEFINITION. One step: one command taken, carried out and answered (R2, R12, R300). -/

namespace Sys2Proof.Machine

/-- One step of the unit. The packet at the head of the input is taken, decoded and carried out; an illegal word is
answered with ERR_ILLEGAL; without a packet the unit waits. -/
def step (s : State) : Host.Outcome State Fault Refusal :=
  match s.cmds with
  | [] => idle s
  | p :: _ =>
    match decode p with
    | .error _ => illegalWord s.takeCommand
    | .ok i => exec i s.takeCommand

/-- `s` with the instruction whose bits are the low `nbits` bits of `w` presented as the next command (log 1,
log 12). -/
def State.withFetchWord (s : State) (nbits w : Nat) : State := s.presentNext (Packet.ofTableWord nbits w)

end Sys2Proof.Machine
end

