-- ==== Sys2Proof/Machine/Strings.lean ====
section
/-! DEFINITION. The string sequences of 46_string_sequences.md: sequences of WRU8 and RDU8 commands that the host
issues. They are pseudo-operations (R5, R80), not commands; a string is a list of `Char`, Lean's Unicode scalar values
(R266, G4; log 14). -/

namespace Sys2Proof.Machine

/-- The host issues one command and looks at its response: the result, or the status that ends its sequence (R260).
Every command responds, so the last two cases do not arise. -/
def issue (i : Instr) (s : State) : SubStep Operand :=
  match exec i s with
  | .next t =>
    match t.resp with
    | some r => if r.status = .ok then .done r.res t else .raised r.status t
    | none => .raised .illegal t
  | .fault _ => .raised .illegal s
  | .refused _ => .raised .illegal s

/-! ## Length and termination policy (R261) -/

/-- The bytes `write_policy` writes: `fixed` of them if given, else the string's and one more; zero beyond the
string's own (R261). -/
def policyBytes (bytes : List Byte) (fixed : Option Nat) : List Byte :=
  (List.range (fixed.getD (bytes.length + 1))).map fun i => bytes.getD i 0

/-- One WRU8 per byte, in order (R260). -/
def writeBytes (x : Nat) (bytes : List Byte) (s : State) : SubStep Unit :=
  match bytes with
  | [] => .done () s
  | b :: rest => (issue (.wru8 x b) s).andThen fun _ s' => writeBytes x rest s'

/-- `write_policy` (R261). -/
def writePolicy (x : Nat) (bytes : List Byte) (fixed : Option Nat) (s : State) : SubStep Unit :=
  writeBytes x (policyBytes bytes fixed) s

/-- `read_policy` with a fixed count: `k` bytes are still to be consumed; none is appended after a zero (R261). -/
def readFixed (x k : Nat) (stopped : Bool) (out : List Byte) (s : State) : SubStep (List Byte) :=
  match k with
  | 0 => .done out s
  | k + 1 => (issue (.rdu8 x) s).andThen fun r s' =>
      let b : Byte := r.setWidth 8
      let stopped' := stopped || decide (b = 0)
      readFixed x k stopped' (if stopped' then out else out ++ [b]) s'

/-- `read_policy` without a count: bytes up to and with the first zero are consumed, those before it returned
(R261). -/
def readUntilZero (x fuel : Nat) (out : List Byte) (s : State) : SubStep (List Byte) :=
  match fuel with
  | 0 => .raised .exhausted s
  | fuel + 1 => (issue (.rdu8 x) s).andThen fun r s' =>
      let b : Byte := r.setWidth 8
      if b = 0 then .done out s' else readUntilZero x fuel (out ++ [b]) s'

/-- `read_policy` (R261). Each byte takes 8 of the bits that are left, so the loop without a count ends within
bits_left/8 + 1 reads. -/
def readPolicy (x : Nat) (fixed : Option Nat) (s : State) : SubStep (List Byte) :=
  match fixed with
  | some k => readFixed x k false [] s
  | none => readUntilZero x ((s.slot x).bitsLeft / 8 + 1) [] s

/-! ## UTF-8 (R266) -/

/-- A continuation byte: tag `10` and six bits of the code point from bit `lo` (R266). -/
def continuationByte (cp lo : Nat) : Byte := BitVec.ofNat 8 (0x80 + cp / 2 ^ lo % 64)

/-- The bytes of one code point (R266). -/
def utf8Char (c : Char) : List Byte :=
  let cp := c.toNat
  if cp ≤ 0x7F then [BitVec.ofNat 8 cp]
  else if cp ≤ 0x7FF then [BitVec.ofNat 8 (0xC0 + cp / 2 ^ 6 % 32), continuationByte cp 0]
  else if cp ≤ 0xFFFF then
    [BitVec.ofNat 8 (0xE0 + cp / 2 ^ 12 % 16), continuationByte cp 6, continuationByte cp 0]
  else
    [BitVec.ofNat 8 (0xF0 + cp / 2 ^ 18 % 8), continuationByte cp 12, continuationByte cp 6, continuationByte cp 0]

/-- `utf8(string)` (R266). -/
def utf8 (str : List Char) : List Byte := str.flatMap utf8Char

/-- The six payload bits of a continuation byte, none for another byte. -/
def continuationBits (b : Byte) : Option Nat :=
  if 0x80 ≤ b.toNat ∧ b.toNat < 0xC0 then some (b.toNat - 0x80) else none

/-- A code point read from a sequence whose shortest form starts at `least`: a Unicode scalar value in its shortest
form, or none. -/
def scalarOf (least cp : Nat) : Option Char :=
  if least ≤ cp ∧ cp.isValidChar then some (Char.ofNat cp) else none

/-- The first character of a byte sequence and the bytes after it, if it starts well-formed. -/
def utf8Next (bytes : List Byte) : Option (Char × List Byte) :=
  match bytes with
  | [] => none
  | b0 :: r0 =>
    let n := b0.toNat
    if n < 0x80 then (scalarOf 0 n).map fun c => (c, r0)
    else if 0xC0 ≤ n ∧ n < 0xE0 then
      match r0 with
      | b1 :: r =>
        (continuationBits b1).bind fun x1 => (scalarOf 0x80 ((n - 0xC0) * 64 + x1)).map fun c => (c, r)
      | _ => none
    else if 0xE0 ≤ n ∧ n < 0xF0 then
      match r0 with
      | b1 :: b2 :: r =>
        (continuationBits b1).bind fun x1 => (continuationBits b2).bind fun x2 =>
          (scalarOf 0x800 ((n - 0xE0) * 4096 + x1 * 64 + x2)).map fun c => (c, r)
      | _ => none
    else if 0xF0 ≤ n ∧ n < 0xF8 then
      match r0 with
      | b1 :: b2 :: b3 :: r =>
        (continuationBits b1).bind fun x1 => (continuationBits b2).bind fun x2 => (continuationBits b3).bind fun x3 =>
          (scalarOf 0x10000 ((n - 0xF0) * 262144 + x1 * 4096 + x2 * 64 + x3)).map fun c => (c, r)
      | _ => none
    else none

/-- The loop of `utf8Decode`; each turn takes at least one byte. -/
def utf8DecodeLoop (fuel : Nat) (bytes : List Byte) : Option (List Char) :=
  match fuel, bytes with
  | _, [] => some []
  | 0, _ :: _ => none
  | fuel + 1, b :: rest =>
    (utf8Next (b :: rest)).bind fun cr => (utf8DecodeLoop fuel cr.2).map fun cs => cr.1 :: cs

/-- The string a well-formed UTF-8 sequence stands for; none when it is malformed (R265). -/
def utf8Decode (bytes : List Byte) : Option (List Char) := utf8DecodeLoop bytes.length bytes

/-! ## The four sequences -/

/-- Every character is ASCII (R262). -/
def allAscii (str : List Char) : Bool := str.all fun c => decide (c.toNat ≤ 0x7F)

/-- WRASCII (R262): the whole string is checked before the first byte is written. -/
def writeAscii (x : Nat) (str : List Char) (fixed : Option Nat) (s : State) : SubStep Unit :=
  if allAscii str then writePolicy x (str.map fun c => BitVec.ofNat 8 c.toNat) fixed s
  else .raised .encoding s

/-- RDASCII (R263): the appended bytes are checked after the field was consumed. -/
def readAscii (x : Nat) (fixed : Option Nat) (s : State) : SubStep (List Char) :=
  (readPolicy x fixed s).andThen fun out s' =>
    if out.all fun b => decide (b.toNat ≤ 0x7F) then .done (out.map fun b => Char.ofNat b.toNat) s'
    else .raised .encoding s'

/-- WRUTF8 (R264). -/
def writeUtf8 (x : Nat) (str : List Char) (fixed : Option Nat) (s : State) : SubStep Unit :=
  writePolicy x (utf8 str) fixed s

/-- RDUTF8 (R265). -/
def readUtf8 (x : Nat) (fixed : Option Nat) (s : State) : SubStep (List Char) :=
  (readPolicy x fixed s).andThen fun out s' =>
    match utf8Decode out with
    | some str => .done str s'
    | none => .raised .encoding s'

end Sys2Proof.Machine
end

