-- ==== Sys2Proof/Safety.lean ====
section
/-! DEFINITION. The terms in which claims about runs are made: the invariant of the machine, what a command names, may
raise and leaves alone, what the host can observe, and the bit-level and rational readings of buffers and floats. -/

namespace Sys2Proof.Machine

/-! ## The invariant -/

/-- What the spec says of every slot of a machine with capacity `cap`: LEN ≤ CAP (R24), IDX ≤ 8·LEN (R26), and no byte
at or beyond LEN (R25). The buffer is in canonical form (log 6). -/
abbrev Slot.Inv (cap : Nat) (c : Slot) : Prop :=
  Memory.wf c.buf ∧ (c.valid = true → c.len ≤ cap ∧ c.idx ≤ 8 * c.len ∧ ∀ x ∈ c.buf, x.1 < c.len)

/-- What the spec says of every context: a valid one holds a valid configuration (R30, R180). -/
abbrev Context.Inv (k : Context) : Prop := k.valid = true → k.cfg.Valid

/-- The parameters the state stands for (R8; log 3). -/
def State.config (s : State) : Config := { nslot := s.nslot, nctx := s.nctx, cap := s.cap }

/-- The invariant of the machine: parameters in range (R8) and every slot and context as the spec says. -/
abbrev State.Inv (s : State) : Prop :=
  s.config.InRange ∧ (∀ c ∈ s.slots, Slot.Inv s.cap c) ∧ ∀ k ∈ s.ctxs, Context.Inv k

end Sys2Proof.Machine

namespace Sys2Proof

open Sys2Proof.Machine

/-! ## What a command names, writes and may raise -/

/-- The command is one of CNEW, ENC and DEC: its number is a context's, not a slot's (R71). -/
def Instr.isCodec (i : Instr) : Bool :=
  match i with
  | .cnew _ _ _ _ | .enc _ _ | .dec _ _ => true
  | _ => false

/-- The command has a source slot of its own: SLICE and WRBS (R71). -/
def Instr.hasSource (i : Instr) : Bool :=
  match i with
  | .slice _ _ _ _ | .wrbs _ _ _ => true
  | _ => false

/-- Slot `x` is one the command names (R66, R71). -/
def Instr.namesSlot (i : Instr) (x : Nat) : Bool :=
  !i.isCodec && (x == i.primary || (i.hasSource && x == i.secondary))

/-- The command makes several raw accesses and is not failure-atomic (R306 (b)). -/
def Instr.composite (i : Instr) : Bool :=
  match i with
  | .rdu64 _ | .rdi64 _ | .wru64 _ _ | .wri64 _ _ | .rdu128 _ | .rdi128 _ | .wru128 _ _ | .wri128 _ _
  | .rdf64 _ | .rduf64 _ | .wrf64 _ _ | .wruf64 _ _ | .wrbs _ _ _ => true
  | _ => false

/-- The statuses other than OK that a command can raise: the rows of R307. -/
def Instr.mayRaise (i : Instr) : List Status :=
  match i with
  | .new _ _ => [.slot, .capacity]
  | .setidx _ _ => [.slot, .index]
  | .getidx _ | .setend _ _ | .getend _ | .bitsleft _ | .getlen _ | .align _ => [.slot]
  | .slice _ _ _ _ => [.slot, .slice]
  | .rdb _ _ | .rdbs _ _ | .wrbu _ _ _ | .wrb _ _ _ => [.slot, .width, .exhausted]
  | .cnew _ _ _ _ => [.ctx, .config]
  | .enc _ _ | .dec _ _ => [.ctx]
  | _ => [.slot, .exhausted]

/-- The command only reads its slot or the bank's registers: no byte of any buffer changes (R60, R100 to R107, R122,
R123, R143 to R156, R201, R202, R223 to R230). -/
def Instr.leavesBuffers (i : Instr) : Bool :=
  match i with
  | .setidx _ _ | .getidx _ | .setend _ _ | .getend _ | .bitsleft _ | .getlen _ | .align _
  | .rdb _ _ | .rdbs _ _ | .rdbool _
  | .rdu4 _ | .rdu8 _ | .rdu16 _ | .rdu32 _ | .rdu64 _ | .rdu128 _
  | .rdi4 _ | .rdi8 _ | .rdi16 _ | .rdi32 _ | .rdi64 _ | .rdi128 _
  | .rdf8 _ | .rdf16 _ | .rdf32 _ | .rdf64 _ | .rduf8 _ | .rduf16 _ | .rduf32 _ | .rduf64 _
  | .cnew _ _ _ _ | .enc _ _ | .dec _ _ => true
  | _ => false

/-- The command constructs a cursor in its primary slot: NEW and SLICE, the only writers of `VALID` and `LEN`
(R23, R24). -/
def Instr.constructs (i : Instr) : Bool :=
  match i with
  | .new _ _ | .slice _ _ _ _ => true
  | _ => false

/-- The command is SETEND, the only writer of `BIG` beside NEW and SLICE (R27). -/
def Instr.setsEndianness (i : Instr) : Bool :=
  match i with
  | .setend _ _ => true
  | _ => false

/-- The command is CNEW, the only writer of the contexts (R29, R30). -/
def Instr.configures (i : Instr) : Bool :=
  match i with
  | .cnew _ _ _ _ => true
  | _ => false

end Sys2Proof

namespace Sys2Proof.Machine

/-! ## Bits of a buffer -/

/-- The bit at bit address `a`: in byte a/8, at position a mod 8 under Little and 7 − a mod 8 under Big (R51, R54). -/
def Memory.bitAt (m : Memory) (big : Bool) (a : Nat) : Bool :=
  (Memory.read m (a / 8)).getLsbD (if big then 7 - a % 8 else a % 8)

/-- The bit address of bit `j` of an n-bit value at address `a` (R54). -/
def bitAddress (big : Bool) (a n j : Nat) : Nat := if big then a + (n - 1 - j) else a + j

/-- The bit address of bit `j` of a value written or read in chunks of `c` bits, low chunk first (R55, R142): chunk
j / c starts at a + c·(j / c) and holds the bit as a c-bit value's bit j mod c. -/
def chunkedBitAddress (big : Bool) (a c j : Nat) : Nat := bitAddress big (a + c * (j / c)) c (j % c)

/-- The `w` bits at bit address `a`, moved in chunks of `c` bits, hold the value `v` (R54, R55). -/
abbrev Memory.Holds (m : Memory) (big : Bool) (a w c v : Nat) : Prop :=
  v < 2 ^ w ∧ ∀ j < w, v.testBit j = Memory.bitAt m big (chunkedBitAddress big a c j)

/-- The buffer `m'` is `m` with the low `w` bits of `v` stored at bit address `a` in chunks of `c` bits, and every
other bit as it was (R53, R54, R55). -/
abbrev Memory.Stores (m m' : Memory) (big : Bool) (a w c v : Nat) : Prop :=
  Memory.wf m' ∧ (∀ j < w, Memory.bitAt m' big (chunkedBitAddress big a c j) = v.testBit j) ∧
    ∀ b, b < a ∨ a + w ≤ b → Memory.bitAt m' big b = Memory.bitAt m big b

/-- The buffer `dst'` is `dst` with `n` bits copied to bit address `b` from bit address `a` of `src`, in chunks of up to
32 bits: bit j of each chunk's value lies where the endianness of either side puts it, and every other bit of `dst` is
as it was (R250, R54). -/
abbrev Memory.Copies (src dst dst' : Memory) (bigSrc bigDst : Bool) (a b n : Nat) : Prop :=
  Memory.wf dst' ∧
    (∀ k j c, 32 * k < n → c = min 32 (n - 32 * k) → j < c →
      Memory.bitAt dst' bigDst (bitAddress bigDst (b + 32 * k) c j) =
        Memory.bitAt src bigSrc (bitAddress bigSrc (a + 32 * k) c j)) ∧
    ∀ i, i < b ∨ b + n ≤ i → Memory.bitAt dst' bigDst i = Memory.bitAt dst bigDst i

/-! ## Observation -/

/-- Two slots the host cannot tell apart: the same `VALID`, and the same contents if it is 1 (R340). -/
abbrev Slot.SameToHost (c c' : Slot) : Prop := c.valid = c'.valid ∧ (c.valid = true → c = c')

/-- Two contexts the host cannot tell apart (R340). -/
abbrev Context.SameToHost (k k' : Context) : Prop := k.valid = k'.valid ∧ (k.valid = true → k = k')

/-- Two states that differ at most in fields of slots and contexts whose `VALID` is 0 and in the response of an
earlier step (R340). -/
abbrev State.SameToHost (s t : State) : Prop :=
  s.nslot = t.nslot ∧ s.nctx = t.nctx ∧ s.cap = t.cap ∧ s.cmds = t.cmds ∧
  (∀ x, (s.slot x).SameToHost (t.slot x)) ∧ ∀ j, (s.ctx j).SameToHost (t.ctx j)

/-- The state with the response output of another: what a command did apart from responding. -/
def State.withResp (s : State) (r : Option Response) : State := { s with resp := r }

/-! ## Host sequences -/

/-- The host copies `rem` bits from slot `t` to slot `d` by RDB and WRBU commands, up to 32 bits at a time, stopping
at the first error (R251). -/
def hostCopy (d t fuel rem : Nat) (s : State) : SubStep Unit :=
  match fuel with
  | 0 => .done () s
  | fuel + 1 =>
    if rem = 0 then .done () s
    else
      (issue (.rdb t (min 32 rem)) s).andThen fun v s' =>
        (issue (.wrbu d (min 32 rem) (v.setWidth 32)) s').andThen fun _ s'' =>
          hostCopy d t fuel (rem - min 32 rem) s''

/-- The state a sub-step leaves, whether or not it raised. -/
def SubStep.state {α : Type} (r : SubStep α) : State :=
  match r with
  | .done _ s => s
  | .raised _ s => s

/-- The status a sub-step ends with. -/
def SubStep.status {α : Type} (r : SubStep α) : Status :=
  match r with
  | .done _ _ => .ok
  | .raised e _ => e

/-! ## Rational readings -/

/-- The rational number a magnitude stands for (R15). -/
def Mag.value (a : Mag) : ℚ := (a.coeff : ℚ) * 2 ^ a.expo

/-- The rational number a finite binary64 pattern stands for (R18). -/
def f64Value (x : F64) : ℚ := (if f64Sign x then -1 else 1) * (f64Mag x).value

/-- The pattern is a finite binary64: neither Infinity nor NaN. -/
def isFinite (x : F64) : Bool := !isNan x && !isInf x

/-- The rational number a finite pattern of a configuration stands for (R196): m times the subnormal unit, or
(2^M + m)·2^(ex − bias − M), with the sign. -/
def patternValue (c : CodecCfg) (p : Nat) : ℚ :=
  (if patternSign c p then -1 else 1) *
    (if patternExp c p = 0 then (patternMantissa c p : ℚ) * 2 ^ (1 - (c.bias : Int) - c.mantissaWidth)
     else ((2 ^ c.mantissaWidth + patternMantissa c p : Nat) : ℚ) *
       2 ^ ((patternExp c p : Int) - c.bias - c.mantissaWidth))

/-- The fraction f that step (d) of R191 expands, in exact arithmetic: a / 2^(1 − bias) below 2^(1 − bias), else
a / 2^e − 1 with e the binade of the magnitude. -/
def mantissaFraction (c : CodecCfg) (a : Mag) : ℚ :=
  if a.value < (2 : ℚ) ^ (1 - (c.bias : Int)) then a.value / 2 ^ (1 - (c.bias : Int)) else a.value / 2 ^ a.log2 - 1

/-- The rounded mantissa of step (e) of R191, in exact arithmetic: floor(f·2^M), one more if the residue is at least
two thirds (R192). It is 2^M when the rounding carries out of the mantissa. -/
def roundedMantissa (f : ℚ) (mw : Nat) : Nat :=
  ⌊f * 2 ^ mw⌋₊ + if 2 / 3 ≤ Int.fract (f * 2 ^ mw) then 1 else 0

/-- The pattern is a NaN of its configuration (R196). -/
def patternIsNan (c : CodecCfg) (p : Nat) : Bool :=
  decide (patternExp c p = c.specialExp) && decide (patternMantissa c p ≠ 0)

end Sys2Proof.Machine
end

