-- ==== Sys2Proof/Certificates/Slice0/Obligations.lean ====
section
/-! DEFINITION. The statements for the provers. -/

open Sys2Proof Sys2Proof.Machine

/-! ## Encoding -/

/-- R76: the four worked packets decode to the commands they stand for, and encode them. -/
def Obligations.SpecWordsDecodeToTheirCommands : Prop :=
  decode ⟨0x00050212, 0x16, 0⟩ = .ok (.wrbu 2 5 0x16) ∧
  decode ⟨0x00000109, 0, 0xFFFFFFFFFFFFFFFF⟩ = .ok (.slice 1 0 0 0xFFFFFFFFFFFFFFFF) ∧
  decode ⟨0x00000060, 0x00010308, 0⟩ = .ok (.cnew 0 8 3 true) ∧
  decode ⟨0x00000341, 0, 0⟩ = .ok (.rdf16 3) ∧
  encode (.wrbu 2 5 0x16) = ⟨0x00050212, 0x16, 0⟩ ∧
  encode (.slice 1 0 0 0xFFFFFFFFFFFFFFFF) = ⟨0x00000109, 0, 0xFFFFFFFFFFFFFFFF⟩ ∧
  encode (.cnew 0 8 3 true) = ⟨0x00000060, 0x00010308, 0⟩ ∧
  encode (.rdf16 3) = ⟨0x00000341, 0, 0⟩

/-- Decoding the packet of a well-formed command gives the command back, with every operand (R71, R74, R75). -/
def Obligations.DecodeOfEncodeIsTheCommand : Prop :=
  ∀ i : Instr, i.WellFormed → decode (encode i) = .ok i

/-- Every legal word has one meaning and no bit of it is dropped: the decoded command is well-formed and its word is
the word decoded (R71, R72, R75). -/
def Obligations.EncodeOfDecodeKeepsTheWord : Prop :=
  ∀ (p : Packet) (i : Instr), decode p = .ok i → i.WellFormed ∧ (encode i).word = p.word

/-- R77: decoding is total; a word is illegal exactly when no row has its opcode or a bit outside the row's used
fields is 1; the illegal opcodes are those listed; an illegal command changes no state and is answered with
ERR_ILLEGAL and result 0; a word that decodes is a command whatever numbers it names. -/
def Obligations.IllegalWordsAreThoseOfRuleR77 : Prop :=
  (∀ p : Packet, (∃ i, decode p = .ok i) ↔ ∃ r ∈ opcodeMap, p.word &&& r.fmt.mask = BitVec.ofNat 32 r.op) ∧
  (∀ p : Packet, decode p = .error .unknownOpcode ↔ ∀ r ∈ opcodeMap, r.op ≠ p.fieldOp) ∧
  (∀ p : Packet, decode p = .error .reservedBits ↔
    ∃ r ∈ opcodeMap, r.op = p.fieldOp ∧ p.word &&& r.fmt.mask ≠ BitVec.ofNat 32 r.op) ∧
  (∀ p : Packet, decode p = .error .unknownOpcode ↔
    p.fieldOp = 0x00 ∨ (0x0A ≤ p.fieldOp ∧ p.fieldOp ≤ 0x0F) ∨ (0x16 ≤ p.fieldOp ∧ p.fieldOp ≤ 0x1F) ∨
    p.fieldOp = 0x26 ∨ p.fieldOp = 0x27 ∨ p.fieldOp = 0x2E ∨ p.fieldOp = 0x2F ∨ p.fieldOp = 0x36 ∨
    p.fieldOp = 0x37 ∨ p.fieldOp = 0x3E ∨ p.fieldOp = 0x3F ∨ (0x51 ≤ p.fieldOp ∧ p.fieldOp ≤ 0x5F) ∨
    0x63 ≤ p.fieldOp) ∧
  (∀ (s : State) (p : Packet) (rest : List Packet) (e : Illegal), s.cmds = p :: rest → decode p = .error e →
    step s = .next { s with cmds := rest, resp := some ⟨.illegal, 0⟩ }) ∧
  ∀ (s : State) (p : Packet) (rest : List Packet) (i : Instr) (t : State) (r : Response),
    s.cmds = p :: rest → decode p = .ok i → step s = .next t → t.resp = some r → r.status ≠ .illegal

/-! ## Steps and responses -/

/-- When the packet at the head of the input decodes to a command, a step is that command carried out on the state
with the packet taken (R2, R12, R22). -/
def Obligations.StepRunsTheDecodedCommand : Prop :=
  ∀ (s : State) (p : Packet) (rest : List Packet) (i : Instr),
    s.cmds = p :: rest → decode p = .ok i → step s = exec i { s with cmds := rest }

/-- Every command is answered by one response and a next state, legal or not (R12, R300); each step takes one packet.
Without a packet the unit waits: the model's choice of log 1, after R342. -/
def Obligations.EveryStepAnswersANextState : Prop :=
  (∀ (i : Instr) (s : State), ∃ t r, exec i s = .next t ∧ t.resp = some r ∧ t.cmds = s.cmds) ∧
  (∀ s : State, s.cmds ≠ [] → ∃ t r, step s = .next t ∧ t.resp = some r ∧ t.cmds = s.cmds.tail) ∧
  ∀ s : State, s.cmds = [] → step s = .next { s with resp := none }

/-- An error response carries result 0 (R73), and a command raises only the statuses its row of R307 allows. -/
def Obligations.ErrorResponsesObeyTheTables : Prop :=
  ∀ (i : Instr) (s t : State) (r : Response), exec i s = .next t → t.resp = some r → r.status ≠ .ok →
    r.res = 0 ∧ r.status ∈ i.mayRaise

/-- No step depends on the response of an earlier one, which is not retained (R34, R301). -/
def Obligations.EarlierResponsesAreNotRetained : Prop :=
  (∀ (i : Instr) (s : State) (r : Option Response), exec i (s.withResp r) = exec i s) ∧
  ∀ (s : State) (r : Option Response), step (s.withResp r) = step s

/-! ## Reset and invariants -/

/-- After power-on, whatever the parameters, no slot and no context holds anything (R35, R340), and the invariant
holds. That no packet is presented and no response given is the model's choice (logs 1 and 2). -/
def Obligations.ResetConstructsNothing : Prop :=
  (∀ c : Config, c.InRange → (State.resetWith c).Inv ∧ (State.resetWith c).config = c ∧
    (∀ x, ((State.resetWith c).slot x).valid = false) ∧ (∀ j, ((State.resetWith c).ctx j).valid = false)) ∧
  State.reset.Inv ∧ State.reset.cmds = [] ∧ State.reset.resp = none

/-- Every step keeps the invariant: parameters in range (R8), buffers canonical, LEN ≤ CAP, IDX ≤ 8·LEN, no byte at or
beyond LEN (R24 to R26), every constructed context valid (R30). -/
def Obligations.EveryStepKeepsTheInvariant : Prop :=
  ∀ s t : State, s.Inv → step s = .next t → t.Inv

/-- R9: LEN fits LENW bits and IDX fits LENW + 3 bits and holds at most 8·CAP, which is below 2^35. -/
def Obligations.RegistersFitTheirWidths : Prop :=
  ∀ s : State, s.Inv → 8 * s.cap < 2 ^ 35 ∧ s.cap < 2 ^ lenWidth s.cap ∧
    (0 < s.cap → 2 ^ (lenWidth s.cap - 1) ≤ s.cap) ∧
    ∀ x, (s.slot x).valid = true →
      (s.slot x).len < 2 ^ lenWidth s.cap ∧ (s.slot x).idx < 2 ^ (lenWidth s.cap + 3) ∧ (s.slot x).idx ≤ 8 * s.cap

/-! ## Frames over all commands -/

/-- A command changes only the slots and the context it names (R66), never the parameters (R8) or the input. -/
def Obligations.CommandsChangeOnlyWhatTheyName : Prop :=
  ∀ (i : Instr) (s t : State), exec i s = .next t →
    t.nslot = s.nslot ∧ t.nctx = s.nctx ∧ t.cap = s.cap ∧ t.cmds = s.cmds ∧
    (∀ x, i.namesSlot x = false → t.slot x = s.slot x) ∧
    ∀ j, (i.configures = false ∨ j ≠ i.primary) → t.ctx j = s.ctx j

/-- VALID and LEN are written by NEW and SLICE on their destination only, BIG by these and SETEND, the contexts by
CNEW only (R23, R24, R27, R29, R30). -/
def Obligations.RegistersAreWrittenOnlyByTheirCommands : Prop :=
  ∀ (i : Instr) (s t : State), exec i s = .next t →
    (∀ x, (i.constructs = false ∨ x ≠ i.primary) →
      (t.slot x).valid = (s.slot x).valid ∧ (t.slot x).len = (s.slot x).len) ∧
    (∀ x, ((i.constructs = false ∧ i.setsEndianness = false) ∨ x ≠ i.primary) → (t.slot x).big = (s.slot x).big) ∧
    (i.configures = false → t.ctxs = s.ctxs)

/-- The accessors, the reads and the codec commands change no byte of any buffer (R60, R101 to R107, R201, R202), and
SLICE and WRBS none of their source; SLICE leaves its source whole (R108, R250). -/
def Obligations.ReadsLeaveTheBuffers : Prop :=
  (∀ (i : Instr) (s t : State), exec i s = .next t → i.leavesBuffers = true →
    ∀ x, (t.slot x).buf = (s.slot x).buf) ∧
  (∀ (d src : Nat) (a b : BitVec 64) (s t : State), exec (.slice d src a b) s = .next t → d ≠ src →
    t.slot src = s.slot src) ∧
  ∀ (d src : Nat) (nbits : BitVec 64) (s t : State), exec (.wrbs d src nbits) s = .next t → d ≠ src →
    t.slot src = { s.slot src with idx := (t.slot src).idx }

/-- What an unconstructed slot or context holds cannot be observed: two states that differ only there answer every
command alike and stay so (R340). It makes the reset values of log 4 harmless. -/
def Obligations.UnconstructedContentsAreUnobservable : Prop :=
  ∀ s t : State, s.SameToHost t → ∃ s' t', step s = .next s' ∧ step t = .next t' ∧ s'.SameToHost t' ∧ s'.resp = t'.resp

/-! ## Errors -/

/-- A command that is not composite and answers an error changes nothing but the response (R306 (a), R121). -/
def Obligations.FailureAtomicCommandsChangeNothing : Prop :=
  ∀ (i : Instr) (s t : State) (r : Response), i.composite = false → exec i s = .next t → t.resp = some r →
    r.status ≠ .ok → t = s.withResp (some r)

/-- R311: ERR_SLOT, and no state change, for a slot number out of range, for a slot that must hold a cursor and does
not, and for SLICE or WRBS with d = t. -/
def Obligations.SlotErrorsChangeNothing : Prop :=
  (∀ (i : Instr) (s : State), i.isCodec = false → s.nslot ≤ i.primary →
    exec i s = .next (s.withResp (some ⟨.slot, 0⟩))) ∧
  (∀ (i : Instr) (s : State), i.hasSource = true → s.nslot ≤ i.secondary →
    exec i s = .next (s.withResp (some ⟨.slot, 0⟩))) ∧
  (∀ (i : Instr) (s : State), i.isCodec = false → i.constructs = false → (s.slot i.primary).valid = false →
    exec i s = .next (s.withResp (some ⟨.slot, 0⟩))) ∧
  (∀ (i : Instr) (s : State), i.hasSource = true → (s.slot i.secondary).valid = false →
    exec i s = .next (s.withResp (some ⟨.slot, 0⟩))) ∧
  ∀ (i : Instr) (s : State), i.hasSource = true → i.primary = i.secondary →
    exec i s = .next (s.withResp (some ⟨.slot, 0⟩))

/-- R312: ERR_CTX, and no state change, for a context number out of range, and for ENC or DEC on a context with
VALID = 0; no other command raises it. -/
def Obligations.ContextErrorsChangeNothing : Prop :=
  (∀ (i : Instr) (s : State), i.isCodec = true → s.nctx ≤ i.primary →
    exec i s = .next (s.withResp (some ⟨.ctx, 0⟩))) ∧
  (∀ (i : Instr) (s : State), i.isCodec = true → i.configures = false → (s.ctx i.primary).valid = false →
    exec i s = .next (s.withResp (some ⟨.ctx, 0⟩))) ∧
  ∀ (i : Instr) (s t : State) (r : Response), i.isCodec = false → exec i s = .next t → t.resp = some r →
    r.status ≠ .ctx

/-- A raw access of 0 or more than 32 bits answers ERR_WIDTH, whatever is left; one of more bits than are left answers
ERR_EXHAUSTED; neither changes anything else (R121, R304). -/
def Obligations.RawAccessErrorsChangeNothing : Prop :=
  ∀ (s : State) (x n : Nat) (v : BitVec 32), slotOk x s = true →
    ∀ i ∈ [Instr.rdb x n, .rdbs x n, .wrbu x n v, .wrb x n v],
      (n = 0 ∨ 32 < n → exec i s = .next (s.withResp (some ⟨.width, 0⟩))) ∧
      (1 ≤ n ∧ n ≤ 32 ∧ (s.slot x).bitsLeft < n → exec i s = .next (s.withResp (some ⟨.exhausted, 0⟩)))

/-- A 64- or 128-bit read with too few bits left consumes the whole 32-bit chunks that are left, then answers
ERR_EXHAUSTED; with fewer than 32 bits left nothing moves (R142, R222, R306 (b)). -/
def Obligations.WideReadsConsumeTheChunksThatFit : Prop :=
  ∀ (s : State) (x : Nat), slotOk x s = true →
    ∀ p ∈ [(Instr.rdu64 x, 64), (.rdi64 x, 64), (.rdf64 x, 64), (.rduf64 x, 64), (.rdu128 x, 128), (.rdi128 x, 128)],
      (s.slot x).bitsLeft < p.2 →
        exec p.1 s = .next ((s.setSlot x { s.slot x with
          idx := (s.slot x).idx + 32 * ((s.slot x).bitsLeft / 32) }).withResp (some ⟨.exhausted, 0⟩))

/-- A 64- or 128-bit write with too few bits left stores the low 32-bit chunks that fit, changes no other bit, then
answers ERR_EXHAUSTED (R142, R222, R306 (b)). -/
def Obligations.WideWritesKeepTheChunksThatFit : Prop :=
  ∀ (s : State) (x : Nat) (v : BitVec 64) (u : BitVec 128), slotOk x s = true → Memory.wf (s.slot x).buf →
    ∀ p ∈ [(Instr.wru64 x v, 64, v.toNat), (.wri64 x v, 64, v.toNat),
        (.wrf64 x v, 64, encodeFloat numerics presetF64S v), (.wruf64 x v, 64, encodeFloat numerics presetF64U v),
        (.wru128 x u, 128, u.toNat), (.wri128 x u, 128, u.toNat)],
      (s.slot x).bitsLeft < p.2.1 →
        ∃ m, Memory.Stores (s.slot x).buf m (s.slot x).big (s.slot x).idx (32 * ((s.slot x).bitsLeft / 32)) 32 p.2.2 ∧
          exec p.1 s = .next ((s.setSlot x { s.slot x with
            buf := m, idx := (s.slot x).idx + 32 * ((s.slot x).bitsLeft / 32) }).withResp (some ⟨.exhausted, 0⟩))

/-! ## Cursor control -/

/-- R100: NEW constructs a cursor of `len` zero bytes at index 0, Little, whatever the slot held; beyond CAP it
answers ERR_CAPACITY and leaves the slot as it was; a number out of range answers ERR_SLOT. -/
def Obligations.NewConstructsAZeroedCursor : Prop :=
  ∀ (s : State) (x : Nat) (len : BitVec 64),
    (s.nslot ≤ x → exec (.new x len) s = .next (s.withResp (some ⟨.slot, 0⟩))) ∧
    (x < s.nslot → s.cap < len.toNat → exec (.new x len) s = .next (s.withResp (some ⟨.capacity, 0⟩))) ∧
    (x < s.nslot → len.toNat ≤ s.cap → ∃ t, exec (.new x len) s = .next t ∧ t.resp = some ⟨.ok, 0⟩ ∧
      t = (s.setSlot x (t.slot x)).withResp t.resp ∧ (t.slot x).valid = true ∧ (t.slot x).len = len.toNat ∧
      (t.slot x).idx = 0 ∧ (t.slot x).big = false ∧ ∀ a, Memory.read (t.slot x).buf a = 0)

/-- R101: SETIDX sets the index to any bit before the end, and nothing else; at or past the end it answers ERR_INDEX
and changes nothing. -/
def Obligations.SetidxMovesTheIndexOrFails : Prop :=
  ∀ (s : State) (x : Nat) (bits : BitVec 64),
    (slotOk x s = false → exec (.setidx x bits) s = .next (s.withResp (some ⟨.slot, 0⟩))) ∧
    (slotOk x s = true → 8 * (s.slot x).len ≤ bits.toNat →
      exec (.setidx x bits) s = .next (s.withResp (some ⟨.index, 0⟩))) ∧
    (slotOk x s = true → bits.toNat < 8 * (s.slot x).len →
      exec (.setidx x bits) s =
        .next ((s.setSlot x { s.slot x with idx := bits.toNat }).withResp (some ⟨.ok, 0⟩)))

/-- R102, R104, R105, R106: the accessors answer IDX, BIG, 8·LEN − IDX and LEN, and change nothing else. -/
def Obligations.AccessorsReportTheRegisters : Prop :=
  ∀ (s : State) (x : Nat),
    (slotOk x s = false → ∀ i ∈ [Instr.getidx x, .getend x, .bitsleft x, .getlen x],
      exec i s = .next (s.withResp (some ⟨.slot, 0⟩))) ∧
    (slotOk x s = true →
      exec (.getidx x) s = .next (s.withResp (some ⟨.ok, BitVec.ofNat 128 (s.slot x).idx⟩)) ∧
      exec (.getend x) s = .next (s.withResp (some ⟨.ok, if (s.slot x).big then 1 else 0⟩)) ∧
      exec (.getlen x) s = .next (s.withResp (some ⟨.ok, BitVec.ofNat 128 (s.slot x).len⟩)) ∧
      ((s.slot x).idx ≤ 8 * (s.slot x).len → ∃ r, exec (.bitsleft x) s = .next (s.withResp (some ⟨.ok, r⟩)) ∧
        r + BitVec.ofNat 128 (s.slot x).idx = BitVec.ofNat 128 (8 * (s.slot x).len)))

/-- R103: SETEND sets the endianness flag to `opa[0]`; buffer, index and length are untouched. -/
def Obligations.SetendSetsOnlyTheFlag : Prop :=
  ∀ (s : State) (x : Nat) (big : Bool),
    (slotOk x s = false → exec (.setend x big) s = .next (s.withResp (some ⟨.slot, 0⟩))) ∧
    (slotOk x s = true →
      exec (.setend x big) s = .next ((s.setSlot x { s.slot x with big := big }).withResp (some ⟨.ok, 0⟩)))

/-- R107: ALIGN moves the index forward to the next multiple of 8, by 0 to 7 bits, writes nothing, and never passes
the end. -/
def Obligations.AlignMovesToTheNextByte : Prop :=
  ∀ (s : State) (x : Nat),
    (slotOk x s = false → exec (.align x) s = .next (s.withResp (some ⟨.slot, 0⟩))) ∧
    (slotOk x s = true → ∃ idx,
      exec (.align x) s = .next ((s.setSlot x { s.slot x with idx := idx }).withResp (some ⟨.ok, 0⟩)) ∧
      8 ∣ idx ∧ (s.slot x).idx ≤ idx ∧ idx ≤ (s.slot x).idx + 7 ∧
      ((s.slot x).idx ≤ 8 * (s.slot x).len → idx ≤ 8 * (s.slot x).len))

/-- R108: SLICE copies the bytes start..end of its source, negative offsets counted from the end, into a new cursor at
index 0 with the source's endianness; outside 0 ≤ start ≤ end ≤ LEN it answers ERR_SLICE and changes nothing. -/
def Obligations.SliceCopiesTheByteRange : Prop :=
  ∀ (s : State) (d src : Nat) (start stop : BitVec 64) (a b : Int),
    d < s.nslot → slotOk src s = true → d ≠ src → Memory.wf (s.slot src).buf →
    a = (if start.toInt < 0 then start.toInt + (s.slot src).len else start.toInt) →
    b = (if stop.toInt < 0 then stop.toInt + (s.slot src).len else stop.toInt) →
    ((0 ≤ a ∧ a ≤ b ∧ b ≤ (s.slot src).len) → ∃ t, exec (.slice d src start stop) s = .next t ∧
      t.resp = some ⟨.ok, 0⟩ ∧ t = (s.setSlot d (t.slot d)).withResp t.resp ∧ (t.slot d).valid = true ∧
      ((t.slot d).len : Int) = b - a ∧ (t.slot d).idx = 0 ∧ (t.slot d).big = (s.slot src).big ∧
      ∀ i, i < (t.slot d).len → Memory.read (t.slot d).buf i = Memory.read (s.slot src).buf (a.toNat + i)) ∧
    (¬(0 ≤ a ∧ a ≤ b ∧ b ≤ (s.slot src).len) →
      exec (.slice d src start stop) s = .next (s.withResp (some ⟨.slice, 0⟩)))

/-! ## Raw bits -/

/-- `MemRead` returns the addressed bits at the places R54 gives them, under either endianness (R52, R54). -/
def Obligations.RawReadTakesTheAddressedBits : Prop :=
  ∀ (m : Memory) (big : Bool) (a n : Nat), memRead m big a n < 2 ^ n ∧
    ∀ j < n, (memRead m big a n).testBit j = Memory.bitAt m big (bitAddress big a n j)

/-- `MemWrite` stores bit j of the value at the place R54 gives it and changes no other bit, under either endianness
(R53, R54). -/
def Obligations.RawWriteChangesExactlyTheAddressedBits : Prop :=
  ∀ (m : Memory) (big : Bool) (a n v : Nat), Memory.wf m → Memory.wf (memWrite m big a n v) ∧
    (∀ j < n, Memory.bitAt (memWrite m big a n v) big (bitAddress big a n j) = v.testBit j) ∧
    ∀ b, b < a ∨ a + n ≤ b → Memory.bitAt (memWrite m big a n v) big b = Memory.bitAt m big b

/-- R126: SETIDX a; WRBU n, v; SETIDX a; RDB n returns v, for every constructed slot with its buffer in canonical form,
every endianness, index and width that fit. -/
def Obligations.RawRoundTrip : Prop :=
  ∀ (s : State) (x n : Nat) (a : BitVec 64) (v : BitVec 32), slotOk x s = true → Memory.wf (s.slot x).buf →
    1 ≤ n → n ≤ 32 → a.toNat + n ≤ 8 * (s.slot x).len → v.toNat < 2 ^ n →
    ∃ t, ((issue (.setidx x a) s).andThen fun _ s1 => (issue (.wrbu x n v) s1).andThen fun _ s2 =>
      (issue (.setidx x a) s2).andThen fun _ s3 => issue (.rdb x n) s3) = .done (BitVec.ofNat 128 v.toNat) t

/-- R127: two consecutive raw writes leave the buffer of one write of the combined value, low part first under Little,
high part first under Big; and likewise two reads. -/
def Obligations.ConsecutiveRawAccessesCompose : Prop :=
  ∀ (m : Memory) (a n1 n2 v1 v2 : Nat), Memory.wf m → 1 ≤ n1 → 1 ≤ n2 → n1 + n2 ≤ 32 → v1 < 2 ^ n1 → v2 < 2 ^ n2 →
    memWrite (memWrite m false a n1 v1) false (a + n1) n2 v2 = memWrite m false a (n1 + n2) (v1 ||| (v2 <<< n1)) ∧
    memWrite (memWrite m true a n1 v1) true (a + n1) n2 v2 = memWrite m true a (n1 + n2) ((v1 <<< n2) ||| v2) ∧
    memRead m false a (n1 + n2) = memRead m false a n1 ||| (memRead m false (a + n1) n2 <<< n1) ∧
    memRead m true a (n1 + n2) = (memRead m true a n1 <<< n2) ||| memRead m true (a + n1) n2

/-- RDB answers the n addressed bits zero-extended and RDBS the same bits as a two's complement number; both advance
the index by n and change nothing else (R122, R123). -/
def Obligations.RawReadCommandsReturnTheirBits : Prop :=
  ∀ (s : State) (x n : Nat), slotOk x s = true → 1 ≤ n → n ≤ 32 → n ≤ (s.slot x).bitsLeft →
    ∃ v, Memory.Holds (s.slot x).buf (s.slot x).big (s.slot x).idx n n v ∧
      exec (.rdb x n) s = .next ((s.setSlot x { s.slot x with idx := (s.slot x).idx + n }).withResp
        (some ⟨.ok, BitVec.ofNat 128 v⟩)) ∧
      exec (.rdbs x n) s = .next ((s.setSlot x { s.slot x with idx := (s.slot x).idx + n }).withResp
        (some ⟨.ok, BitVec.ofInt 128 (if 2 * v < 2 ^ n then (v : Int) else (v : Int) - 2 ^ n)⟩))

/-- WRBU and WRB store the low n bits of the operand at the index, change no other bit, and advance the index by n
(R124, R125). -/
def Obligations.RawWriteCommandsStoreTheirBits : Prop :=
  ∀ (s : State) (x n : Nat) (v : BitVec 32), slotOk x s = true → Memory.wf (s.slot x).buf →
    1 ≤ n → n ≤ 32 → n ≤ (s.slot x).bitsLeft →
    ∃ m, Memory.Stores (s.slot x).buf m (s.slot x).big (s.slot x).idx n n v.toNat ∧
      ∀ i ∈ [Instr.wrbu x n v, .wrb x n v],
        exec i s = .next ((s.setSlot x { s.slot x with buf := m, idx := (s.slot x).idx + n }).withResp
          (some ⟨.ok, 0⟩))

/-! ## Booleans and integers -/

/-- RDBOOL and the 4- to 32-bit integer reads: one access of w bits at the index, zero- or sign-extended; with fewer
than w bits left ERR_EXHAUSTED and no change (R143, R145 to R148, R151 to R154). -/
def Obligations.NarrowReadCommandsReturnTheirBits : Prop :=
  ∀ (s : State) (x : Nat), slotOk x s = true →
    ∀ p ∈ [(Instr.rdbool x, 1, false), (.rdu4 x, 4, false), (.rdu8 x, 8, false), (.rdu16 x, 16, false),
        (.rdu32 x, 32, false), (.rdi4 x, 4, true), (.rdi8 x, 8, true), (.rdi16 x, 16, true), (.rdi32 x, 32, true)],
      ((s.slot x).bitsLeft < p.2.1 → exec p.1 s = .next (s.withResp (some ⟨.exhausted, 0⟩))) ∧
      (p.2.1 ≤ (s.slot x).bitsLeft →
        ∃ v, Memory.Holds (s.slot x).buf (s.slot x).big (s.slot x).idx p.2.1 p.2.1 v ∧
          exec p.1 s = .next ((s.setSlot x { s.slot x with idx := (s.slot x).idx + p.2.1 }).withResp
            (some ⟨.ok, BitVec.ofInt 128 (if p.2.2 = true ∧ 2 ^ p.2.1 ≤ 2 * v then (v : Int) - 2 ^ p.2.1 else v)⟩)))

/-- The 64- and 128-bit integer reads: w bits in 32-bit chunks, low chunk first, zero- or sign-extended from bit w − 1
(R149, R150, R155, R156, R142). -/
def Obligations.WideReadCommandsReturnTheirBits : Prop :=
  ∀ (s : State) (x : Nat), slotOk x s = true →
    ∀ p ∈ [(Instr.rdu64 x, 64, false), (.rdu128 x, 128, false), (.rdi64 x, 64, true), (.rdi128 x, 128, true)],
      p.2.1 ≤ (s.slot x).bitsLeft →
        ∃ v, Memory.Holds (s.slot x).buf (s.slot x).big (s.slot x).idx p.2.1 32 v ∧
          exec p.1 s = .next ((s.setSlot x { s.slot x with idx := (s.slot x).idx + p.2.1 }).withResp
            (some ⟨.ok, BitVec.ofInt 128 (if p.2.2 = true ∧ 2 ^ p.2.1 ≤ 2 * v then (v : Int) - 2 ^ p.2.1 else v)⟩))

/-- WRBOOL and the 4- to 32-bit integer writes: the operand's w bits at the index, no other bit changed; with fewer
than w bits left ERR_EXHAUSTED and no change (R144, R157 to R160, R163 to R166). -/
def Obligations.NarrowWriteCommandsStoreTheirBits : Prop :=
  ∀ (s : State) (x : Nat) (b : Bool) (v4 : BitVec 4) (v8 : BitVec 8) (v16 : BitVec 16) (v32 : BitVec 32),
    slotOk x s = true → Memory.wf (s.slot x).buf →
    ∀ p ∈ [(Instr.wrbool x b, 1, b.toNat), (.wru4 x v4, 4, v4.toNat), (.wru8 x v8, 8, v8.toNat),
        (.wru16 x v16, 16, v16.toNat), (.wru32 x v32, 32, v32.toNat), (.wri4 x v4, 4, v4.toNat),
        (.wri8 x v8, 8, v8.toNat), (.wri16 x v16, 16, v16.toNat), (.wri32 x v32, 32, v32.toNat)],
      ((s.slot x).bitsLeft < p.2.1 → exec p.1 s = .next (s.withResp (some ⟨.exhausted, 0⟩))) ∧
      (p.2.1 ≤ (s.slot x).bitsLeft →
        ∃ m, Memory.Stores (s.slot x).buf m (s.slot x).big (s.slot x).idx p.2.1 p.2.1 p.2.2 ∧
          exec p.1 s = .next ((s.setSlot x { s.slot x with buf := m, idx := (s.slot x).idx + p.2.1 }).withResp
            (some ⟨.ok, 0⟩)))

/-- The 64- and 128-bit integer writes: the operand in 32-bit chunks, low chunk first, no other bit changed
(R161, R162, R167, R168, R142). -/
def Obligations.WideWriteCommandsStoreTheirBits : Prop :=
  ∀ (s : State) (x : Nat) (v : BitVec 64) (u : BitVec 128), slotOk x s = true → Memory.wf (s.slot x).buf →
    ∀ p ∈ [(Instr.wru64 x v, 64, v.toNat), (.wri64 x v, 64, v.toNat), (.wru128 x u, 128, u.toNat),
        (.wri128 x u, 128, u.toNat)],
      p.2.1 ≤ (s.slot x).bitsLeft →
        ∃ m, Memory.Stores (s.slot x).buf m (s.slot x).big (s.slot x).idx p.2.1 32 p.2.2 ∧
          exec p.1 s = .next ((s.setSlot x { s.slot x with buf := m, idx := (s.slot x).idx + p.2.1 }).withResp
            (some ⟨.ok, 0⟩))

/-! ## Float commands of the cursor -/

/-- The float reads: the pattern's w bits at the index (64 bits in two chunks, low first), decoded with the preset
into `res[63:0]` (R221 to R230). -/
def Obligations.FloatReadCommandsDecodeTheirBits : Prop :=
  ∀ (s : State) (x : Nat), slotOk x s = true →
    ∀ p ∈ [(Instr.rdf8 x, presetF8S), (.rdf16 x, presetF16S), (.rdf32 x, presetF32S), (.rdf64 x, presetF64S),
        (.rduf8 x, presetF8U), (.rduf16 x, presetF16U), (.rduf32 x, presetF32U), (.rduf64 x, presetF64U)],
      p.2.bits ≤ (s.slot x).bitsLeft →
        ∃ v, Memory.Holds (s.slot x).buf (s.slot x).big (s.slot x).idx p.2.bits (min p.2.bits 32) v ∧
          exec p.1 s = .next ((s.setSlot x { s.slot x with idx := (s.slot x).idx + p.2.bits }).withResp
            (some ⟨.ok, (decodeFloat numerics p.2 v).setWidth 128⟩))

/-- The float writes: the operand encoded with the preset, its w bits stored at the index (64 bits in two chunks, low
first), no other bit changed (R221, R222, R231 to R238). -/
def Obligations.FloatWriteCommandsStoreTheirPattern : Prop :=
  ∀ (s : State) (x : Nat) (f : F64), slotOk x s = true → Memory.wf (s.slot x).buf →
    ∀ p ∈ [(Instr.wrf8 x f, presetF8S), (.wrf16 x f, presetF16S), (.wrf32 x f, presetF32S), (.wrf64 x f, presetF64S),
        (.wruf8 x f, presetF8U), (.wruf16 x f, presetF16U), (.wruf32 x f, presetF32U), (.wruf64 x f, presetF64U)],
      p.2.bits ≤ (s.slot x).bitsLeft →
        ∃ m, Memory.Stores (s.slot x).buf m (s.slot x).big (s.slot x).idx p.2.bits (min p.2.bits 32)
            (encodeFloat numerics p.2 f) ∧
          exec p.1 s = .next ((s.setSlot x { s.slot x with buf := m, idx := (s.slot x).idx + p.2.bits }).withResp
            (some ⟨.ok, 0⟩))

/-- The float writes have the effect of the unsigned integer writes of the encoded pattern, and the float reads answer
the decoding of what the unsigned integer reads answer, partial effects on failure included (R239). -/
def Obligations.FloatCommandsRouteThroughIntegers : Prop :=
  ∀ (s : State) (x : Nat),
    (∀ f : F64,
      exec (.wrf8 x f) s = exec (.wru8 x (BitVec.ofNat 8 (encodeFloat numerics presetF8S f))) s ∧
      exec (.wrf16 x f) s = exec (.wru16 x (BitVec.ofNat 16 (encodeFloat numerics presetF16S f))) s ∧
      exec (.wrf32 x f) s = exec (.wru32 x (BitVec.ofNat 32 (encodeFloat numerics presetF32S f))) s ∧
      exec (.wrf64 x f) s = exec (.wru64 x (BitVec.ofNat 64 (encodeFloat numerics presetF64S f))) s ∧
      exec (.wruf8 x f) s = exec (.wru8 x (BitVec.ofNat 8 (encodeFloat numerics presetF8U f))) s ∧
      exec (.wruf16 x f) s = exec (.wru16 x (BitVec.ofNat 16 (encodeFloat numerics presetF16U f))) s ∧
      exec (.wruf32 x f) s = exec (.wru32 x (BitVec.ofNat 32 (encodeFloat numerics presetF32U f))) s ∧
      exec (.wruf64 x f) s = exec (.wru64 x (BitVec.ofNat 64 (encodeFloat numerics presetF64U f))) s) ∧
    ∀ p ∈ [(Instr.rdf8 x, Instr.rdu8 x, presetF8S), (.rdf16 x, .rdu16 x, presetF16S),
        (.rdf32 x, .rdu32 x, presetF32S), (.rdf64 x, .rdu64 x, presetF64S), (.rduf8 x, .rdu8 x, presetF8U),
        (.rduf16 x, .rdu16 x, presetF16U), (.rduf32 x, .rdu32 x, presetF32U), (.rduf64 x, .rdu64 x, presetF64U)],
      ∃ t r, exec p.2.1 s = .next t ∧ t.resp = some r ∧
        exec p.1 s = .next (t.withResp (some
          ⟨r.status, if r.status = .ok then (decodeFloat numerics p.2.2 r.res.toNat).setWidth 128 else 0⟩))

/-! ## The float codec -/

/-- The derived constants of the eight presets and two further configurations are those R188 tabulates. -/
def Obligations.DerivedConstantsAreThoseTabulated : Prop :=
  (∀ p ∈ [(presetF8S, 4, 0x80, 0x70, 0x0F, 3, 7), (presetF8U, 5, 0, 0xE0, 0x1F, 3, 7),
      (presetF16S, 10, 0x8000, 0x7C00, 0x03FF, 15, 31), (presetF16U, 11, 0, 0xF800, 0x07FF, 15, 31),
      (presetF32S, 23, 0x80000000, 0x7F800000, 0x007FFFFF, 127, 255),
      (presetF32U, 24, 0, 0xFF000000, 0x00FFFFFF, 127, 255),
      (presetF64S, 52, 0x8000000000000000, 0x7FF0000000000000, 0x000FFFFFFFFFFFFF, 1023, 2047),
      (presetF64U, 53, 0, 0xFFE0000000000000, 0x001FFFFFFFFFFFFF, 1023, 2047),
      ((⟨8, 4, true⟩ : CodecCfg), 3, 0x80, 0x78, 0x07, 7, 15), ((⟨2, 1, true⟩ : CodecCfg), 0, 2, 1, 0, 0, 1)],
    p.1.mantissaWidth = p.2.1 ∧ p.1.signMask = p.2.2.1 ∧ p.1.exponentMask = p.2.2.2.1 ∧
    p.1.mantissaMask = p.2.2.2.2.1 ∧ p.1.bias = p.2.2.2.2.2.1 ∧ p.1.specialExp = p.2.2.2.2.2.2) ∧
  ∀ p ∈ [(presetF8S, (2 : ℚ) ^ (-6 : Int), (31 / 2 : ℚ)), (presetF8U, 2 ^ (-7 : Int), 63 / 4),
      (presetF16S, 2 ^ (-24 : Int), 65504), (presetF16U, 2 ^ (-25 : Int), 65520),
      (presetF32S, 2 ^ (-149 : Int), 2 ^ (127 : Int) * (2 - 2 ^ (-23 : Int))),
      (presetF32U, 2 ^ (-150 : Int), 2 ^ (127 : Int) * (2 - 2 ^ (-24 : Int))),
      (presetF64S, 2 ^ (-1074 : Int), 2 ^ (1023 : Int) * (2 - 2 ^ (-52 : Int))),
      (presetF64U, 2 ^ (-1075 : Int), 2 ^ (1023 : Int) * (2 - 2 ^ (-53 : Int))),
      ((⟨8, 4, true⟩ : CodecCfg), 2 ^ (-9 : Int), 240), ((⟨2, 1, true⟩ : CodecCfg), 2, 0)],
    (2 : ℚ) ^ subnormalUnitExpo p.1 = p.2.1 ∧ (codecMinValue p.1).value = p.2.1 ∧ (codecMaxValue p.1).value = p.2.2

/-- R192: `frac_to_bin` of f = num / 2^k keeps floor(f·2^M) and rounds up exactly when the residue is at least two
thirds, which it never equals; the result is at most 2^M. R193: without a carry the three parts add up; with one, an
even exponent field becomes the next odd one with mantissa 0, and an odd one stays, with mantissa 0. -/
def Obligations.MantissaRoundsAtTwoThirdsAndItsCarryIsOred : Prop :=
  (∀ num k mw : Nat, num < 2 ^ k →
    fracToBin num k mw =
      (if (2 : ℚ) / 3 ≤ ((num * 2 ^ mw % 2 ^ k : Nat) : ℚ) / 2 ^ k then num * 2 ^ mw / 2 ^ k + 1
        else num * 2 ^ mw / 2 ^ k) ∧
    ((num * 2 ^ mw % 2 ^ k : Nat) : ℚ) / 2 ^ k ≠ 2 / 3 ∧ fracToBin num k mw ≤ 2 ^ mw) ∧
  ∀ sign field m mw e : Nat, sign = 0 ∨ sign = 2 ^ (e + mw) → field < 2 ^ e →
    (m < 2 ^ mw → assemblePattern sign (field * 2 ^ mw) m = sign + field * 2 ^ mw + m) ∧
    (field % 2 = 0 → field + 1 < 2 ^ e →
      assemblePattern sign (field * 2 ^ mw) (2 ^ mw) = sign + (field + 1) * 2 ^ mw) ∧
    (field % 2 = 1 → assemblePattern sign (field * 2 ^ mw) (2 ^ mw) = sign + field * 2 ^ mw)

/-- An encoded pattern fits the configuration's width (R189, R193). -/
def Obligations.EncodedPatternFitsItsWidth : Prop :=
  ∀ (c : CodecCfg) (x : F64), c.Valid → encodeFloat numerics c x < 2 ^ c.bits

/-- R194: unsigned configurations encode the magnitude; every NaN encodes as the exponent mask with mantissa 1 and no
sign; a magnitude below `min_value` encodes as 0, sign dropped; −0.0 encodes as 0. -/
def Obligations.EncodeDropsSignsAsRuleR194Says : Prop :=
  ∀ (c : CodecCfg) (x : F64), c.Valid →
    (c.signed = false → encodeFloat numerics c x = encodeFloat numerics c (x &&& 0x7FFFFFFFFFFFFFFF)) ∧
    (isNan x = true → encodeFloat numerics c x = c.exponentMask ||| 1) ∧
    (isFinite x = true → (f64Mag x).value < (codecMinValue c).value → encodeFloat numerics c x = 0) ∧
    encodeFloat numerics c 0x8000000000000000 = 0

/-- Infinity, and a finite magnitude above `max_value` outside the binary32 fast path, encode as the special exponent
with mantissa 0 and the operand's sign if the configuration has one (R191 (b), (c), R190). -/
def Obligations.EncodeOverflowsToInfinity : Prop :=
  ∀ (c : CodecCfg) (x : F64), c.Valid →
    isInf x = true ∨
      (isFinite x = true ∧ (codecMinValue c).value ≤ (f64Mag x).value ∧ (codecMaxValue c).value < (f64Mag x).value ∧
        c ≠ presetF32S) →
    encodeFloat numerics c x = (if c.signed = true ∧ f64Sign x = true then c.signMask else 0) + c.exponentMask

/-- Outside the binary32 fast path, a magnitude between `min_value` and `max_value` is encoded by steps (d) to (f) of
R191: `field` and the fraction f as the step gives them in exact arithmetic, the first M bits of f, one more if the
residue is at least two thirds, and the three parts ORed, a carry included (R189, R191 to R193). -/
def Obligations.EncodeFollowsTheGeneralPath : Prop :=
  ∀ (c : CodecCfg) (x : F64) (e : Int) (f : ℚ) (field : Nat), c.Valid → isFinite x = true →
    (c = presetF32S → (f64Mag x).value < (2 : ℚ) ^ (-126 : Int)) →
    (codecMinValue c).value ≤ (f64Mag x).value → (f64Mag x).value ≤ (codecMaxValue c).value →
    (if (f64Mag x).value < (2 : ℚ) ^ (1 - (c.bias : Int)) then
        field = 0 ∧ f = (f64Mag x).value / 2 ^ (1 - (c.bias : Int))
      else (2 : ℚ) ^ e ≤ (f64Mag x).value ∧ (f64Mag x).value < 2 ^ (e + 1) ∧ (field : Int) = e + c.bias ∧
        f = (f64Mag x).value / 2 ^ e - 1) →
    encodeFloat numerics c x =
      (if c.signed = true ∧ f64Sign x = true then c.signMask else 0) ||| field * 2 ^ c.mantissaWidth |||
        roundedMantissa f c.mantissaWidth

/-- Outside the binary32 fast path, a magnitude between `min_value` and `max_value` is encoded within two thirds of a
unit of the last place below it and one third above, with its sign, unless the rounding carried out of the mantissa: the
rounded mantissa of R191 (e) is below 2^M (R191, R192, R196). -/
def Obligations.EncodedValueIsWithinTwoThirdsOfAUnit : Prop :=
  ∀ (c : CodecCfg) (x : F64) (p : Nat) (ulp : ℚ), c.Valid → isFinite x = true →
    (c = presetF32S → (f64Mag x).value < (2 : ℚ) ^ (-126 : Int)) →
    (codecMinValue c).value ≤ (f64Mag x).value → (f64Mag x).value ≤ (codecMaxValue c).value →
    p = encodeFloat numerics c x →
    roundedMantissa (mantissaFraction c (f64Mag x)) c.mantissaWidth < 2 ^ c.mantissaWidth →
    ulp = (2 : ℚ) ^ (max (f64Mag x).log2 (1 - (c.bias : Int)) - c.mantissaWidth) →
    patternExp c p ≠ c.specialExp ∧ patternSign c p = (c.signed && f64Sign x) ∧
    (f64Mag x).value - |patternValue c p| < 2 / 3 * ulp ∧ |patternValue c p| - (f64Mag x).value ≤ 1 / 3 * ulp

/-- R190, binary32: a finite value at or above 2^−126 in magnitude and below 2^128 − 2^103 is encoded as the nearest
finite binary32 pattern, the even one of two equally near; at and above that bound as Infinity with its sign. -/
def Obligations.FastPathPicksTheNearestBinary32 : Prop :=
  ∀ (x : F64) (p : Nat), isFinite x = true → (2 : ℚ) ^ (-126 : Int) ≤ (f64Mag x).value →
    p = encodeFloat numerics presetF32S x →
    ((f64Mag x).value < 2 ^ 128 - 2 ^ 103 →
      patternExp presetF32S p ≠ 255 ∧
      ∀ q < 2 ^ 32, patternExp presetF32S q ≠ 255 →
        |patternValue presetF32S p - f64Value x| ≤ |patternValue presetF32S q - f64Value x| ∧
        (q ≠ p → |patternValue presetF32S p - f64Value x| = |patternValue presetF32S q - f64Value x| → p % 2 = 0)) ∧
    (2 ^ 128 - 2 ^ 103 ≤ (f64Mag x).value → p = (if f64Sign x then 2 ^ 31 else 0) + 0x7F800000)

/-- Every binary64 operand but NaN and −0.0 is encoded by (64,11,signed) as its own pattern, subnormal ones included
(R190, R234), and every pattern of (64,11,signed) but NaN decodes to itself (R198, R226). -/
def Obligations.Binary64IsReproduced : Prop :=
  (∀ x : F64, isNan x = false → x ≠ 0x8000000000000000 → encodeFloat numerics presetF64S x = x.toNat) ∧
  ∀ x : F64, isNan x = false → decodeFloat numerics presetF64S x.toNat = x

/-- With at most 11 exponent bits and 52 mantissa bits, a pattern that is not special decodes exactly, sign included
(R195 to R197). -/
def Obligations.DecodeIsExact : Prop :=
  ∀ (c : CodecCfg) (p : Nat), c.Valid → c.ebits ≤ 11 → c.mantissaWidth ≤ 52 → patternExp c p ≠ c.specialExp →
    isFinite (decodeFloat numerics c p) = true ∧ f64Value (decodeFloat numerics c p) = patternValue c p ∧
    f64Sign (decodeFloat numerics c p) = patternSign c p

/-- In every configuration, a pattern that is not special decodes to the nearest binary64, the even one of two equally
near, with the pattern's sign, zero included; at and above 2^1024 − 2^970 to Infinity (R196, R197, R18). -/
def Obligations.DecodeRoundsToTheNearestBinary64 : Prop :=
  ∀ (c : CodecCfg) (p : Nat) (d : F64), c.Valid → patternExp c p ≠ c.specialExp → d = decodeFloat numerics c p →
    f64Sign d = patternSign c p ∧
    (|patternValue c p| < 2 ^ 1024 - 2 ^ 970 → isFinite d = true ∧
      ∀ y : F64, isFinite y = true → |f64Value d - patternValue c p| ≤ |f64Value y - patternValue c p| ∧
        (y ≠ d → |f64Value d - patternValue c p| = |f64Value y - patternValue c p| → d.toNat % 2 = 0)) ∧
    (2 ^ 1024 - 2 ^ 970 ≤ |patternValue c p| → isInf d = true)

/-- The special exponent decodes to Infinity with the pattern's sign or to the canonical NaN, bits at and above
`bits` are ignored, and the fields are those of the layout sign, exponent, mantissa (R182, R195 to R197). -/
def Obligations.DecodeOfSpecialPatternsAndHighBits : Prop :=
  ∀ (c : CodecCfg) (p : Nat), c.Valid →
    decodeFloat numerics c p = decodeFloat numerics c (p % 2 ^ c.bits) ∧
    patternMantissa c p = p % 2 ^ c.mantissaWidth ∧
    patternExp c p = p / 2 ^ c.mantissaWidth % 2 ^ c.ebits ∧
    patternSign c p = (c.signed && p.testBit (c.bits - 1)) ∧
    (patternExp c p = c.specialExp → patternMantissa c p = 0 →
      decodeFloat numerics c p = if patternSign c p then 0xFFF0000000000000 else 0x7FF0000000000000) ∧
    (patternExp c p = c.specialExp → patternMantissa c p ≠ 0 → decodeFloat numerics c p = 0x7FF8000000000000)

/-- The round-trip laws of R199, with at most 11 exponent bits and 52 mantissa bits: a non-NaN pattern other than the
sign alone is re-encoded exactly; −0.0 loses its sign; a NaN becomes the one NaN; a representable value survives, its
magnitude only in an unsigned configuration. -/
def Obligations.CodecRoundTrip : Prop :=
  ∀ c : CodecCfg, c.Valid → c.ebits ≤ 11 → c.mantissaWidth ≤ 52 →
    (∀ p, patternIsNan c p = false → ¬(c.signed = true ∧ p % 2 ^ c.bits = c.signMask) →
      encodeFloat numerics c (decodeFloat numerics c p) = p % 2 ^ c.bits) ∧
    (c.signed = true → encodeFloat numerics c (decodeFloat numerics c c.signMask) = 0) ∧
    (∀ p, patternIsNan c p = true → encodeFloat numerics c (decodeFloat numerics c p) = c.exponentMask ||| 1) ∧
    ∀ x : F64, isFinite x = true → x ≠ 0x8000000000000000 →
      (c.signed = true → (∃ p, patternExp c p ≠ c.specialExp ∧ patternValue c p = f64Value x) →
        decodeFloat numerics c (encodeFloat numerics c x) = x) ∧
      (c.signed = false → (∃ p, patternExp c p ≠ c.specialExp ∧ patternValue c p = |f64Value x|) →
        decodeFloat numerics c (encodeFloat numerics c x) = x &&& 0x7FFFFFFFFFFFFFFF)

/-- R200: CNEW stores the three attributes of a valid configuration together, replacing what the context held, and
refuses any other with ERR_CONFIG, changing nothing. -/
def Obligations.CnewReplacesTheConfiguration : Prop :=
  ∀ (s : State) (j : Nat) (bits ebits : BitVec 8) (signed : Bool),
    (s.nctx ≤ j → exec (.cnew j bits ebits signed) s = .next (s.withResp (some ⟨.ctx, 0⟩))) ∧
    (j < s.nctx → ¬(1 ≤ ebits.toNat ∧ ebits.toNat < bits.toNat ∧ bits.toNat ≤ 128) →
      exec (.cnew j bits ebits signed) s = .next (s.withResp (some ⟨.config, 0⟩))) ∧
    (j < s.nctx → 1 ≤ ebits.toNat ∧ ebits.toNat < bits.toNat ∧ bits.toNat ≤ 128 →
      exec (.cnew j bits ebits signed) s = .next ((s.setCtx j ⟨true, bits, ebits, signed⟩).withResp (some ⟨.ok, 0⟩)))

/-- ENC and DEC answer `encode` and `decode` of the context's configuration and change no state (R201, R202). -/
def Obligations.EncAndDecAnswerTheCodec : Prop :=
  ∀ (s : State) (j : Nat) (x : F64) (p : BitVec 128), ctxOk j s = true →
    exec (.enc j x) s = .next (s.withResp (some ⟨.ok, BitVec.ofNat 128 (encodeFloat numerics
      ⟨(s.ctx j).bits.toNat, (s.ctx j).ebits.toNat, (s.ctx j).signed⟩ x)⟩)) ∧
    exec (.dec j p) s = .next (s.withResp (some ⟨.ok, (decodeFloat numerics
      ⟨(s.ctx j).bits.toNat, (s.ctx j).ebits.toNat, (s.ctx j).signed⟩ p.toNat).setWidth 128⟩))

/-! ## Nested stream -/

/-- WRBS with room on both sides copies `nbits` bits in chunks of up to 32: bit j of each chunk's value lies where each
cursor's own endianness puts it; no other bit of the destination changes, both indices advance, nothing else moves; with
equal endianness the copy is verbatim in bit-address order (R250). -/
def Obligations.WrbsCopiesEveryBit : Prop :=
  ∀ (s : State) (d src : Nat) (nbits : BitVec 64), slotOk d s = true → slotOk src s = true → d ≠ src →
    Memory.wf (s.slot d).buf → nbits.toNat ≤ (s.slot d).bitsLeft → nbits.toNat ≤ (s.slot src).bitsLeft →
    ∃ m, Memory.Copies (s.slot src).buf (s.slot d).buf m (s.slot src).big (s.slot d).big (s.slot src).idx
        (s.slot d).idx nbits.toNat ∧
      exec (.wrbs d src nbits) s = .next (((s.setSlot src { s.slot src with
          idx := (s.slot src).idx + nbits.toNat }).setSlot d { s.slot d with
          buf := m, idx := (s.slot d).idx + nbits.toNat }).withResp (some ⟨.ok, 0⟩)) ∧
      ((s.slot d).big = (s.slot src).big → ∀ i < nbits.toNat,
        Memory.bitAt m (s.slot d).big ((s.slot d).idx + i) =
          Memory.bitAt (s.slot src).buf (s.slot src).big ((s.slot src).idx + i))

/-- WRBS when a chunk fails: the first, or one after `k` whole chunks. The whole chunks before it stay copied and both
indices stay advanced over them. If the failing chunk could not be read, neither cursor moves for it; if it was read
and does not fit the destination it is lost: the source's index has advanced over it too (R250, R306 (b)). -/
def Obligations.WrbsLosesTheChunkThatDoesNotFit : Prop :=
  ∀ (s : State) (d src : Nat) (nbits : BitVec 64), slotOk d s = true → slotOk src s = true → d ≠ src →
    1 ≤ nbits.toNat →
    ((s.slot src).bitsLeft < min 32 nbits.toNat →
      exec (.wrbs d src nbits) s = .next (s.withResp (some ⟨.exhausted, 0⟩))) ∧
    (min 32 nbits.toNat ≤ (s.slot src).bitsLeft → (s.slot d).bitsLeft < min 32 nbits.toNat →
      exec (.wrbs d src nbits) s = .next ((s.setSlot src { s.slot src with
        idx := (s.slot src).idx + min 32 nbits.toNat }).withResp (some ⟨.exhausted, 0⟩))) ∧
    (Memory.wf (s.slot d).buf → ∀ k c, 32 * k < nbits.toNat → c = min 32 (nbits.toNat - 32 * k) →
      32 * k ≤ (s.slot src).bitsLeft → 32 * k ≤ (s.slot d).bitsLeft →
      ∃ m, Memory.Copies (s.slot src).buf (s.slot d).buf m (s.slot src).big (s.slot d).big (s.slot src).idx
          (s.slot d).idx (32 * k) ∧
        ((s.slot src).bitsLeft < 32 * k + c →
          exec (.wrbs d src nbits) s = .next (((s.setSlot src { s.slot src with
            idx := (s.slot src).idx + 32 * k }).setSlot d { s.slot d with
            buf := m, idx := (s.slot d).idx + 32 * k }).withResp (some ⟨.exhausted, 0⟩))) ∧
        (32 * k + c ≤ (s.slot src).bitsLeft → (s.slot d).bitsLeft < 32 * k + c →
          exec (.wrbs d src nbits) s = .next (((s.setSlot src { s.slot src with
            idx := (s.slot src).idx + 32 * k + c }).setSlot d { s.slot d with
            buf := m, idx := (s.slot d).idx + 32 * k }).withResp (some ⟨.exhausted, 0⟩))))

/-- R251: between two different constructed slots, WRBS has the effect of RDB on the source and WRBU on the destination
for each chunk in turn, stopping at the first error. It answers that error's status, or OK (R250). -/
def Obligations.WrbsEqualsTheHostsCommands : Prop :=
  ∀ (s : State) (d src : Nat) (nbits : BitVec 64), slotOk d s = true → slotOk src s = true → d ≠ src →
    exec (.wrbs d src nbits) s = .next ((hostCopy d src nbits.toNat nbits.toNat s).state.withResp
      (some ⟨(hostCopy d src nbits.toNat nbits.toNat s).status, 0⟩))

/-! ## String sequences -/

/-- The bytes of a string are those of R266: one to four for each character in turn, by the range of its code point.
RDUTF8 decodes a sequence exactly when it is the bytes of a string, and to that string (R265). For an ASCII string the
bytes of R262 are the same as those of R266, and WRASCII of a string with a character above 0x7F fails with
ERR_ENCODING before any byte is written (R262). The leading tags, the split of the bits and what is well-formed are
general knowledge, marked PRESUMED in log 14, as is the form of a host sequence there, a DESIGN CHOICE. -/
def Obligations.StringBytesAreThoseOfTheEncodings : Prop :=
  (∀ (c : Char) (rest : List Char), (utf8 (c :: rest)).map BitVec.toNat =
    (if c.toNat ≤ 0x7F then [c.toNat]
      else if c.toNat ≤ 0x7FF then [0xC0 + c.toNat / 64, 0x80 + c.toNat % 64]
      else if c.toNat ≤ 0xFFFF then [0xE0 + c.toNat / 4096, 0x80 + c.toNat / 64 % 64, 0x80 + c.toNat % 64]
      else [0xF0 + c.toNat / 262144, 0x80 + c.toNat / 4096 % 64, 0x80 + c.toNat / 64 % 64, 0x80 + c.toNat % 64]) ++
      (utf8 rest).map BitVec.toNat) ∧
  utf8 [] = [] ∧
  (∀ (bytes : List Byte) (str : List Char), utf8Decode bytes = some str ↔ bytes = utf8 str) ∧
  (∀ (x : Nat) (str : List Char) (fixed : Option Nat) (s : State), (∀ c ∈ str, c.toNat ≤ 0x7F) →
    writeAscii x str fixed s = writeUtf8 x str fixed s) ∧
  ∀ (x : Nat) (str : List Char) (fixed : Option Nat) (s : State), (∃ c ∈ str, 0x7F < c.toNat) →
    writeAscii x str fixed s = .raised .encoding s

/-- A string written and read back at the same index, under the same endianness and with the same count, comes back,
if it has no U+0000, fits the count and, for ASCII, is ASCII; the index ends where the write left it (R267). The form of
a host sequence is that of log 14. -/
def Obligations.StringRoundTrip : Prop :=
  ∀ (s t : State) (x : Nat) (str : List Char) (fixed : Option Nat), slotOk x s = true → Memory.wf (s.slot x).buf →
    (∀ c ∈ str, c.toNat ≠ 0) →
    (allAscii str = true → (∀ k ∈ fixed, str.length ≤ k) → writeAscii x str fixed s = .done () t →
      ∃ u, readAscii x fixed (t.setSlot x { t.slot x with idx := (s.slot x).idx }) = .done str u ∧
        u.slots = t.slots) ∧
    ((∀ k ∈ fixed, (utf8 str).length ≤ k) → writeUtf8 x str fixed s = .done () t →
      ∃ u, readUtf8 x fixed (t.setSlot x { t.slot x with idx := (s.slot x).idx }) = .done str u ∧
        u.slots = t.slots)
end

