-- ==== Sys2Proof/Laws/Codec.lean ====
section
/-! SUPPORT. The exact magnitudes of the codec against the rationals: what the binade and the comparison of two
magnitudes say about the numbers they stand for (R15, R189). -/

namespace Sys2Proof.Machine

/-- A magnitude is not negative. -/
theorem Mag.value_nonneg (a : Mag) : 0 ≤ a.value := by
  unfold Mag.value
  positivity

/-- A magnitude is zero exactly when its coefficient is. -/
theorem Mag.value_eq_zero (a : Mag) : a.value = 0 ↔ a.coeff = 0 := by
  have h : (2 : ℚ) ^ a.expo ≠ 0 := by positivity
  simp [Mag.value, h]

/-- The binade of a magnitude, from below: 2^log2 a ≤ a. -/
theorem Mag.pow_log2_le (a : Mag) (h : a.coeff ≠ 0) : (2 : ℚ) ^ a.log2 ≤ a.value := by
  have h1 : ((2 ^ Nat.log2 a.coeff : Nat) : ℚ) ≤ (a.coeff : ℚ) := by exact_mod_cast Nat.log2_self_le h
  have h2 : (0 : ℚ) < (2 : ℚ) ^ a.expo := by positivity
  unfold Mag.value Mag.log2
  rw [zpow_add₀ (by norm_num), zpow_natCast]
  push_cast at h1
  exact mul_le_mul_of_nonneg_right h1 h2.le

/-- The binade of a magnitude, from above: a < 2^(log2 a + 1). -/
theorem Mag.lt_pow_log2_succ (a : Mag) : a.value < (2 : ℚ) ^ (a.log2 + 1) := by
  have h1 : (a.coeff : ℚ) < ((2 ^ (Nat.log2 a.coeff + 1) : Nat) : ℚ) := by exact_mod_cast Nat.lt_log2_self
  have h2 : (0 : ℚ) < (2 : ℚ) ^ a.expo := by positivity
  have h3 : (2 : ℚ) ^ (a.log2 + 1) = (2 : ℚ) ^ (Nat.log2 a.coeff + 1) * (2 : ℚ) ^ a.expo := by
    unfold Mag.log2
    rw [show ((Nat.log2 a.coeff : Int) + a.expo + 1) = ((Nat.log2 a.coeff + 1 : Nat) : Int) + a.expo by push_cast; ring,
      zpow_add₀ (by norm_num), zpow_natCast]
  rw [h3]
  unfold Mag.value
  push_cast at h1
  exact mul_lt_mul_of_pos_right h1 h2

/-- A magnitude in a lower binade is smaller. -/
theorem Mag.value_lt_of_log2_lt (a b : Mag) (hb : b.coeff ≠ 0) (h : a.log2 < b.log2) : a.value < b.value :=
  calc a.value < (2 : ℚ) ^ (a.log2 + 1) := a.lt_pow_log2_succ
    _ ≤ (2 : ℚ) ^ b.log2 := zpow_le_zpow_right₀ (by norm_num) (by omega)
    _ ≤ b.value := b.pow_log2_le hb

/-- A magnitude over a lower exponent: its coefficient scaled up by the difference. -/
theorem Mag.value_eq_scaled (a : Mag) (m : Int) (h : m ≤ a.expo) :
    a.value = ((a.coeff * 2 ^ (a.expo - m).toNat : Nat) : ℚ) * (2 : ℚ) ^ m := by
  have hk : a.expo = ((a.expo - m).toNat : Int) + m := by omega
  unfold Mag.value
  conv_lhs => rw [hk]
  rw [zpow_add₀ (by norm_num), zpow_natCast]
  push_cast
  ring

/-- `Mag.lt` is the order of the rationals. -/
theorem Mag.lt_iff (a b : Mag) : Mag.lt a b = true ↔ a.value < b.value := by
  unfold Mag.lt
  split
  · next ha =>
    have h0 : a.value = 0 := (Mag.value_eq_zero a).2 ha
    have hb := Mag.value_nonneg b
    rw [h0, decide_eq_true_eq, ← not_iff_not, not_lt, not_not, ← Mag.value_eq_zero]
    exact ⟨fun h => h.le, fun h => le_antisymm h hb⟩
  · next ha =>
    split
    · next hb =>
      have h0 : b.value = 0 := (Mag.value_eq_zero b).2 hb
      have := Mag.value_nonneg a
      simp only [h0, Bool.false_eq_true, false_iff, not_lt]
      exact this
    · next hb =>
      split
      · next hne =>
        rw [decide_eq_true_eq]
        refine ⟨Mag.value_lt_of_log2_lt a b hb, fun h => ?_⟩
        by_contra hle
        exact absurd (Mag.value_lt_of_log2_lt b a ha (by omega)) (not_lt.2 h.le)
      · have hm : (0 : ℚ) < (2 : ℚ) ^ (min a.expo b.expo) := by positivity
        rw [decide_eq_true_eq, Mag.value_eq_scaled a _ (min_le_left _ _), Mag.value_eq_scaled b _ (min_le_right _ _),
          mul_lt_mul_iff_left₀ hm, Nat.cast_lt]

/-- The magnitudes are in the order of the rationals when `Mag.lt` refutes the converse. -/
theorem Mag.value_le_iff (a b : Mag) : a.value ≤ b.value ↔ Mag.lt b a = false := by
  rw [← not_lt, ← Mag.lt_iff, Bool.not_eq_true]

end Sys2Proof.Machine
end

