-- ==== Sys2Proof/Laws/State.lean ====
section
/-! SUPPORT. One lemma per field per update of `State`, and what reading a slot or context gives after an update. -/

namespace Sys2Proof.Machine

section
variable (s : State) (x : Nat) (c : Slot) (j : Nat) (k : Context) (p : Packet) (r : Option Response)

@[simp] theorem setSlot_slots : (s.setSlot x c).slots = s.slots.set x c := rfl
@[simp] theorem setSlot_ctxs : (s.setSlot x c).ctxs = s.ctxs := rfl
@[simp] theorem setSlot_cap : (s.setSlot x c).cap = s.cap := rfl
@[simp] theorem setSlot_cmds : (s.setSlot x c).cmds = s.cmds := rfl
@[simp] theorem setSlot_resp : (s.setSlot x c).resp = s.resp := rfl
@[simp] theorem setCtx_slots : (s.setCtx j k).slots = s.slots := rfl
@[simp] theorem setCtx_ctxs : (s.setCtx j k).ctxs = s.ctxs.set j k := rfl
@[simp] theorem setCtx_cap : (s.setCtx j k).cap = s.cap := rfl
@[simp] theorem setCtx_cmds : (s.setCtx j k).cmds = s.cmds := rfl
@[simp] theorem setCtx_resp : (s.setCtx j k).resp = s.resp := rfl
@[simp] theorem withResp_slots : (s.withResp r).slots = s.slots := rfl
@[simp] theorem withResp_ctxs : (s.withResp r).ctxs = s.ctxs := rfl
@[simp] theorem withResp_cap : (s.withResp r).cap = s.cap := rfl
@[simp] theorem withResp_cmds : (s.withResp r).cmds = s.cmds := rfl
@[simp] theorem withResp_resp : (s.withResp r).resp = r := rfl
@[simp] theorem takeCommand_slots : s.takeCommand.slots = s.slots := rfl
@[simp] theorem takeCommand_ctxs : s.takeCommand.ctxs = s.ctxs := rfl
@[simp] theorem takeCommand_cap : s.takeCommand.cap = s.cap := rfl
@[simp] theorem takeCommand_cmds : s.takeCommand.cmds = s.cmds.tail := rfl
@[simp] theorem takeCommand_resp : s.takeCommand.resp = s.resp := rfl
@[simp] theorem presentNext_slots : (s.presentNext p).slots = s.slots := rfl
@[simp] theorem presentNext_ctxs : (s.presentNext p).ctxs = s.ctxs := rfl
@[simp] theorem presentNext_cap : (s.presentNext p).cap = s.cap := rfl
@[simp] theorem presentNext_cmds : (s.presentNext p).cmds = p :: s.cmds := rfl
@[simp] theorem presentNext_resp : (s.presentNext p).resp = s.resp := rfl

@[simp] theorem withResp_slot (y : Nat) : (s.withResp r).slot y = s.slot y := rfl
@[simp] theorem withResp_ctx (i : Nat) : (s.withResp r).ctx i = s.ctx i := rfl
@[simp] theorem withResp_nslot : (s.withResp r).nslot = s.nslot := rfl
@[simp] theorem withResp_nctx : (s.withResp r).nctx = s.nctx := rfl
@[simp] theorem withResp_withResp (q : Option Response) : (s.withResp r).withResp q = s.withResp q := rfl
@[simp] theorem takeCommand_slot (y : Nat) : s.takeCommand.slot y = s.slot y := rfl
@[simp] theorem takeCommand_ctx (i : Nat) : s.takeCommand.ctx i = s.ctx i := rfl
@[simp] theorem takeCommand_nslot : s.takeCommand.nslot = s.nslot := rfl
@[simp] theorem takeCommand_nctx : s.takeCommand.nctx = s.nctx := rfl
@[simp] theorem setSlot_ctx (i : Nat) : (s.setSlot x c).ctx i = s.ctx i := rfl
@[simp] theorem setCtx_slot (y : Nat) : (s.setCtx j k).slot y = s.slot y := rfl
@[simp] theorem setSlot_nctx : (s.setSlot x c).nctx = s.nctx := rfl
@[simp] theorem setCtx_nslot : (s.setCtx j k).nslot = s.nslot := rfl

@[simp] theorem setSlot_nslot : (s.setSlot x c).nslot = s.nslot := by simp [State.nslot]
@[simp] theorem setCtx_nctx : (s.setCtx j k).nctx = s.nctx := by simp [State.nctx]

@[simp] theorem setSlot_withResp : (s.setSlot x c).withResp r = (s.withResp r).setSlot x c := rfl

/-- A slot whose number is in the bank is an element of it. -/
theorem slot_mem {s : State} {x : Nat} (h : x < s.nslot) : s.slot x ∈ s.slots := by
  unfold State.nslot at h
  simp [State.slot, h]

/-- A number outside the bank reads as a slot that holds no cursor. -/
theorem slot_out {s : State} {x : Nat} (h : s.nslot ≤ x) : s.slot x = Slot.unbuilt := by
  unfold State.nslot at h
  simp [State.slot, List.getElem?_eq_none h]

/-- A context whose number is in the bank is an element of it. -/
theorem ctx_mem {s : State} {j : Nat} (h : j < s.nctx) : s.ctx j ∈ s.ctxs := by
  unfold State.nctx at h
  simp [State.ctx, h]

/-- A number outside the bank reads as a context that holds no configuration. -/
theorem ctx_out {s : State} {j : Nat} (h : s.nctx ≤ j) : s.ctx j = Context.unbuilt := by
  unfold State.nctx at h
  simp [State.ctx, List.getElem?_eq_none h]

/-- Reading back a slot just set. -/
theorem slot_setSlot_same {s : State} {x : Nat} (h : x < s.nslot) (c : Slot) : (s.setSlot x c).slot x = c := by
  unfold State.nslot at h
  simp [State.slot, h]

/-- Setting a slot leaves the others. -/
theorem slot_setSlot_ne {x y : Nat} (h : x ≠ y) : (s.setSlot x c).slot y = s.slot y := by
  simp [State.slot, List.getElem?_set_ne h]

/-- Reading back a context just set. -/
theorem ctx_setCtx_same {s : State} {j : Nat} (h : j < s.nctx) (k : Context) : (s.setCtx j k).ctx j = k := by
  unfold State.nctx at h
  simp [State.ctx, h]

/-- Setting a context leaves the others. -/
theorem ctx_setCtx_ne {i j : Nat} (h : j ≠ i) : (s.setCtx j k).ctx i = s.ctx i := by
  simp [State.ctx, List.getElem?_set_ne h]

/-- Setting a slot to what it holds changes nothing. -/
@[simp] theorem setSlot_self : s.setSlot x (s.slot x) = s := by
  cases s with
  | mk slots ctxs cap cmds resp =>
    simp only [State.setSlot, State.slot, State.mk.injEq, and_self, and_true]
    rcases Nat.lt_or_ge x slots.length with h | h
    · simp [h]
    · exact List.set_eq_of_length_le h

/-- Of two settings of one slot the later stands. -/
@[simp] theorem setSlot_setSlot (d : Slot) : (s.setSlot x c).setSlot x d = s.setSlot x d := by
  simp [State.setSlot]

/-- Settings of two slots commute. -/
theorem setSlot_comm {x y : Nat} (h : x ≠ y) (d : Slot) :
    (s.setSlot x c).setSlot y d = (s.setSlot y d).setSlot x c := by
  simp [State.setSlot, List.set_comm _ _ h]

end

/-- Passing `slotcheck` is the slot's `VALID` bit: a number outside the bank has none (R110). -/
theorem slotOk_iff {x : Nat} {s : State} : slotOk x s = true ↔ x < s.nslot ∧ (s.slot x).valid = true := by
  simp [slotOk]

/-- Passing the context check (R312). -/
theorem ctxOk_iff {j : Nat} {s : State} : ctxOk j s = true ↔ j < s.nctx ∧ (s.ctx j).valid = true := by
  simp [ctxOk]

end Sys2Proof.Machine
end

