-- ==== Sys2Proof/Laws/Memory.lean ====
section
/-! SUPPORT. Buffers: reading after a write, the canonical form kept by every operation, and equality of canonical
buffers that read alike. -/

namespace Sys2Proof.Machine

/-- Every listed address is below a bound. -/
abbrev Memory.below (m : Memory) (n : Nat) : Prop := ∀ x ∈ m, x.1 < n

/-- Every listed address is above a bound. -/
abbrev Memory.after (m : Memory) (a : Nat) : Prop := ∀ x ∈ m, a < x.1

theorem wf_nil : Memory.wf [] := ⟨List.Pairwise.nil, fun _ h => absurd h List.not_mem_nil⟩

theorem wf_cons {a : Nat} {b : Byte} {m : Memory} :
    Memory.wf ((a, b) :: m) ↔ Memory.after m a ∧ b ≠ Memory.blank ∧ Memory.wf m := by
  simp only [Memory.wf, List.pairwise_cons, List.forall_mem_cons, Memory.after]
  tauto

@[simp] theorem read_nil (a : Nat) : Memory.read [] a = Memory.blank := rfl

@[simp] theorem read_cons_same (a : Nat) (b : Byte) (m : Memory) : Memory.read ((a, b) :: m) a = b := by
  simp [Memory.read]

theorem read_cons_ne {k a : Nat} (h : k ≠ a) (b : Byte) (m : Memory) :
    Memory.read ((k, b) :: m) a = Memory.read m a := by
  simp [Memory.read, h]

/-- An address below every listed one reads as an unlisted byte. -/
theorem read_of_after {m : Memory} {a k : Nat} (h : Memory.after m k) (ha : a ≤ k) :
    Memory.read m a = Memory.blank := by
  induction m with
  | nil => rfl
  | cons c m ih =>
    obtain ⟨i, b⟩ := c
    have hi : k < i := h (i, b) (List.mem_cons_self ..)
    rw [read_cons_ne (by omega)]
    exact ih fun x hx => h x (List.mem_cons_of_mem _ hx)

/-- An address at or past a bound on the listed ones reads as an unlisted byte. -/
theorem read_of_below {m : Memory} {n a : Nat} (h : Memory.below m n) (ha : n ≤ a) :
    Memory.read m a = Memory.blank := by
  induction m with
  | nil => rfl
  | cons c m ih =>
    obtain ⟨i, b⟩ := c
    have hi : i < n := h (i, b) (List.mem_cons_self ..)
    rw [read_cons_ne (by omega)]
    exact ih fun x hx => h x (List.mem_cons_of_mem _ hx)

/-- A write leaves every other address. -/
theorem read_write_ne {a a' : Nat} (h : a ≠ a') (b : Byte) (m : Memory) :
    Memory.read (Memory.write m a b) a' = Memory.read m a' := by
  induction m with
  | nil =>
    unfold Memory.write
    split
    · rfl
    · exact read_cons_ne h ..
  | cons c m ih =>
    obtain ⟨k, d⟩ := c
    unfold Memory.write
    split
    · split
      · rfl
      · exact read_cons_ne h ..
    · split
      · rename_i hk
        subst hk
        split
        · exact (read_cons_ne h ..).symm
        · rw [read_cons_ne h, read_cons_ne h]
      · by_cases hka : k = a'
        · subst hka; simp
        · rw [read_cons_ne hka, read_cons_ne hka, ih]

/-- A write to a canonical buffer is read back. -/
theorem read_write_same {m : Memory} (h : Memory.wf m) (a : Nat) (b : Byte) :
    Memory.read (Memory.write m a b) a = b := by
  induction m with
  | nil =>
    unfold Memory.write
    split
    · next hb => rw [hb]; rfl
    · simp
  | cons c m ih =>
    obtain ⟨k, d⟩ := c
    obtain ⟨hk, -, hm⟩ := wf_cons.1 h
    unfold Memory.write
    split
    · next hlt =>
      split
      · next hb =>
        rw [read_cons_ne (by omega), read_of_after hk (by omega), hb]
      · simp
    · split
      · next heq =>
        subst heq
        split
        · next hb => rw [read_of_after hk (le_refl _), hb]
        · simp
      · next hne => rw [read_cons_ne (by omega), ih hm]

/-- Reading one address after a write to another or the same (canonical buffer). -/
theorem read_write {m : Memory} (h : Memory.wf m) (a a' : Nat) (b : Byte) :
    Memory.read (Memory.write m a b) a' = if a = a' then b else Memory.read m a' := by
  split
  · next e => subst e; exact read_write_same h ..
  · next e => exact read_write_ne e ..

/-- What a write lists was listed, or is the address written. -/
theorem mem_write {m : Memory} {a : Nat} {b : Byte} {x : Host.Cell} (h : x ∈ Memory.write m a b) :
    x ∈ m ∨ (x = (a, b) ∧ b ≠ Memory.blank) := by
  induction m with
  | nil =>
    unfold Memory.write at h
    split at h
    · exact .inl h
    · next hb => exact .inr ⟨by simpa using h, hb⟩
  | cons c m ih =>
    obtain ⟨k, d⟩ := c
    unfold Memory.write at h
    split at h
    · split at h
      · exact .inl h
      · next hb =>
        rcases List.mem_cons.1 h with h | h
        · exact .inr ⟨h, hb⟩
        · exact .inl h
    · split at h
      · split at h
        · exact .inl (List.mem_cons_of_mem _ h)
        · next hb =>
          rcases List.mem_cons.1 h with h | h
          · exact .inr ⟨h, hb⟩
          · exact .inl (List.mem_cons_of_mem _ h)
      · rcases List.mem_cons.1 h with h | h
        · exact .inl (h ▸ List.mem_cons_self ..)
        · exact (ih h).imp_left (List.mem_cons_of_mem _)

/-- A write keeps the canonical form. -/
theorem write_wf {m : Memory} (h : Memory.wf m) (a : Nat) (b : Byte) : Memory.wf (Memory.write m a b) := by
  induction m with
  | nil =>
    unfold Memory.write
    split
    · exact h
    · next hb => exact wf_cons.2 ⟨by simp, hb, h⟩
  | cons c m ih =>
    obtain ⟨k, d⟩ := c
    obtain ⟨hk, hd, hm⟩ := wf_cons.1 h
    unfold Memory.write
    split
    · next hlt =>
      split
      · exact h
      · next hb =>
        refine wf_cons.2 ⟨fun x hx => ?_, hb, h⟩
        rcases List.mem_cons.1 hx with rfl | hx
        · exact hlt
        · exact hlt.trans (hk x hx)
    · split
      · next heq =>
        subst heq
        split
        · exact hm
        · next hb => exact wf_cons.2 ⟨hk, hb, hm⟩
      · refine wf_cons.2 ⟨fun x hx => ?_, hd, ih hm⟩
        rcases mem_write hx with hx | ⟨rfl, -⟩
        · exact hk x hx
        · show k < a
          omega

/-- A write below a bound keeps the listed addresses below it. -/
theorem write_below {m : Memory} {n a : Nat} (h : Memory.below m n) (ha : a < n) (b : Byte) :
    Memory.below (Memory.write m a b) n := by
  intro x hx
  rcases mem_write hx with hx | ⟨rfl, -⟩
  · exact h x hx
  · exact ha

/-- Two canonical buffers that read alike everywhere are equal. -/
theorem wf_ext {m m' : Memory} (h : Memory.wf m) (h' : Memory.wf m')
    (hr : ∀ a, Memory.read m a = Memory.read m' a) : m = m' := by
  induction m generalizing m' with
  | nil =>
    cases m' with
    | nil => rfl
    | cons c m' =>
      obtain ⟨k, d⟩ := c
      obtain ⟨-, hd, -⟩ := wf_cons.1 h'
      exact absurd (by simpa using (hr k).symm) hd
  | cons c m ih =>
    obtain ⟨k, d⟩ := c
    obtain ⟨hk, hd, hm⟩ := wf_cons.1 h
    cases m' with
    | nil => exact absurd (by simpa using hr k) hd
    | cons c' m' =>
      obtain ⟨k', d'⟩ := c'
      obtain ⟨hk', hd', hm'⟩ := wf_cons.1 h'
      have hkk : k = k' := by
        rcases Nat.lt_trichotomy k k' with hlt | heq | hlt
        · have := hr k
          rw [read_cons_same, read_cons_ne (by omega), read_of_after hk' (by omega)] at this
          exact absurd this hd
        · exact heq
        · have := hr k'
          rw [read_cons_same, read_cons_ne (by omega), read_of_after hk (by omega)] at this
          exact absurd this.symm hd'
      subst hkk
      have hdd : d = d' := by simpa using hr k
      subst hdd
      congr 1
      refine ih hm hm' fun a => ?_
      by_cases ha : k = a
      · subst ha
        rw [read_of_after hk (le_refl _), read_of_after hk' (le_refl _)]
      · have := hr a
        rwa [read_cons_ne ha, read_cons_ne ha] at this

/-! ## The slice of a buffer -/

/-- What a slice lists. -/
theorem mem_slice {m : Memory} {a b : Nat} {x : Host.Cell} :
    x ∈ Memory.slice m a b ↔ ∃ y ∈ m, a ≤ y.1 ∧ y.1 < b ∧ x = (y.1 - a, y.2) := by
  simp only [Memory.slice, List.mem_map, List.mem_filter, Bool.and_eq_true, decide_eq_true_eq]
  constructor
  · rintro ⟨y, ⟨hy, h1, h2⟩, rfl⟩; exact ⟨y, hy, h1, h2, rfl⟩
  · rintro ⟨y, hy, h1, h2, rfl⟩; exact ⟨y, ⟨hy, h1, h2⟩, rfl⟩

/-- A slice of a canonical buffer is canonical. -/
theorem slice_wf {m : Memory} (h : Memory.wf m) (a b : Nat) : Memory.wf (Memory.slice m a b) := by
  refine ⟨?_, ?_⟩
  · refine List.pairwise_map.2 ((h.1.filter _).imp_of_mem ?_)
    intro x y hx hy hxy
    have hx := (List.mem_filter.1 hx).2
    simp only [Bool.and_eq_true, decide_eq_true_eq] at hx
    show x.1 - a < y.1 - a
    omega
  · intro x hx
    obtain ⟨y, hy, -, -, rfl⟩ := mem_slice.1 hx
    exact h.2 y hy

/-- A slice lists addresses below its length. -/
theorem slice_below (m : Memory) (a b : Nat) : Memory.below (Memory.slice m a b) (b - a) := by
  intro x hx
  obtain ⟨y, -, h1, h2, rfl⟩ := mem_slice.1 hx
  show y.1 - a < b - a
  omega

/-- Byte i of the slice is byte a + i of the buffer, up to its end (R108). -/
theorem read_slice (m : Memory) (a b i : Nat) :
    Memory.read (Memory.slice m a b) i = if a + i < b then Memory.read m (a + i) else Memory.blank := by
  induction m with
  | nil => simp [Memory.slice]
  | cons c m ih =>
    obtain ⟨k, d⟩ := c
    by_cases hk : a ≤ k ∧ k < b
    · have e : Memory.slice ((k, d) :: m) a b = (k - a, d) :: Memory.slice m a b := by
        simp [Memory.slice, hk.1, hk.2]
      rw [e]
      by_cases hi : k - a = i
      · subst hi
        have : a + (k - a) = k := by omega
        simp [this, hk.2]
      · rw [read_cons_ne hi, ih, read_cons_ne (by omega)]
    · have e : Memory.slice ((k, d) :: m) a b = Memory.slice m a b := by
        rcases not_and_or.1 hk with h | h <;> simp [Memory.slice, h]
      rw [e, ih]
      split
      · next h => rw [read_cons_ne (by omega)]
      · rfl

/-! ## The raw write -/

/-- `MemWrite` keeps the canonical form. -/
theorem memWriteLoop_wf {m : Memory} (h : Memory.wf m) (big : Bool) (n v fuel done rem p w : Nat) :
    Memory.wf (memWriteLoop big n v fuel m done rem p w) := by
  induction fuel generalizing m done rem p w with
  | zero => exact h
  | succ fuel ih =>
    unfold memWriteLoop
    split
    · exact h
    · exact ih (write_wf h ..) ..

theorem memWrite_wf {m : Memory} (h : Memory.wf m) (big : Bool) (a n v : Nat) :
    Memory.wf (memWrite m big a n v) := memWriteLoop_wf h ..

/-- `MemWrite` lists nothing past the bits it writes. -/
theorem memWriteLoop_below {m : Memory} {len : Nat} (h : Memory.below m len) (big : Bool)
    (n v fuel done rem p w : Nat) (hp : p + rem ≤ 8 * len) :
    Memory.below (memWriteLoop big n v fuel m done rem p w) len := by
  induction fuel generalizing m done rem p w with
  | zero => exact h
  | succ fuel ih =>
    unfold memWriteLoop
    split
    · exact h
    · refine ih (write_below h (by omega) _) _ _ _ _ ?_
      omega

theorem memWrite_below {m : Memory} {len : Nat} (h : Memory.below m len) (big : Bool) (a n v : Nat)
    (ha : a + n ≤ 8 * len) : Memory.below (memWrite m big a n v) len :=
  memWriteLoop_below h _ _ _ _ _ _ _ _ ha

/-- `MemWrite` changes no byte outside the bytes of its bits. -/
theorem read_memWriteLoop_out {m : Memory} (big : Bool) (n v fuel done rem p w i : Nat)
    (hi : 8 * i + 8 ≤ p ∨ p + rem ≤ 8 * i) :
    Memory.read (memWriteLoop big n v fuel m done rem p w) i = Memory.read m i := by
  induction fuel generalizing m done rem p w with
  | zero => rfl
  | succ fuel ih =>
    unfold memWriteLoop
    split
    · rfl
    · refine (ih _ _ _ _ ?_).trans (read_write_ne ?_ ..)
      · omega
      · omega

theorem read_memWrite_out (m : Memory) (big : Bool) (a n v i : Nat) (hi : 8 * i + 8 ≤ a ∨ a + n ≤ 8 * i) :
    Memory.read (memWrite m big a n v) i = Memory.read m i := read_memWriteLoop_out _ _ _ _ _ _ _ _ _ hi

end Sys2Proof.Machine
end

