-- ==== Sys2Proof/Laws/Ops.lean ====
section
/-! SUPPORT. For each shared operation one lemma that says once everything it can do. -/

namespace Sys2Proof.Machine

/-! ## Responses -/

@[simp] theorem respond_eq (v : Operand) (s : State) : respond v s = .next (s.withResp (some ⟨.ok, v⟩)) := rfl

@[simp] theorem raise_eq (e : Status) (s : State) : raise e s = .next (s.withResp (some ⟨e, 0⟩)) := rfl

/-- `slotcheck`: the body on a constructed slot, ERR_SLOT and no other change elsewhere (R110). -/
theorem withSlot_eq (x : Nat) (s : State) (body : Result) :
    (slotOk x s = true ∧ withSlot x s body = body) ∨
      (slotOk x s = false ∧ withSlot x s body = .next (s.withResp (some ⟨.slot, 0⟩))) := by
  unfold withSlot
  cases h : slotOk x s <;> simp

theorem withSlot_ok {x : Nat} {s : State} (h : slotOk x s = true) (body : Result) : withSlot x s body = body := by
  simp [withSlot, h]

theorem withSlot_bad {x : Nat} {s : State} (h : slotOk x s = false) (body : Result) :
    withSlot x s body = .next (s.withResp (some ⟨.slot, 0⟩)) := by
  simp [withSlot, h]

/-! ## The bounds check -/

/-- When the bounds check passes (R121). -/
theorem check_none {c : Slot} {n : Nat} : check c n = none ↔ 1 ≤ n ∧ n ≤ 32 ∧ n ≤ c.bitsLeft := by
  unfold check rawMax
  split
  · next h => simp; omega
  · split
    · next h => simp; omega
    · next h h' => simp; omega

/-- When the bounds check fails, and with which status: the width first (R121). -/
theorem check_some {c : Slot} {n : Nat} {e : Status} : check c n = some e ↔
    ((n < 1 ∨ 32 < n) ∧ e = .width) ∨ (1 ≤ n ∧ n ≤ 32 ∧ c.bitsLeft < n ∧ e = .exhausted) := by
  unfold check rawMax
  split
  · next h => cases e <;> simp <;> omega
  · split
    · next h => cases e <;> simp <;> omega
    · next h h' => simp; omega

/-! ## Raw sub-steps -/

/-- Everything `read_bits` can do (R120). -/
theorem readBits_eq (x n : Nat) (s : State) :
    (check (s.slot x) n = none ∧
      readBits x n s = .done (memRead (s.slot x).buf (s.slot x).big (s.slot x).idx n)
        (s.setSlot x { s.slot x with idx := (s.slot x).idx + n })) ∨
    ∃ e, check (s.slot x) n = some e ∧ readBits x n s = .raised e s := by
  unfold readBits
  cases h : check (s.slot x) n with
  | none => exact .inl ⟨rfl, rfl⟩
  | some e => exact .inr ⟨e, rfl, rfl⟩

theorem readBits_ok {x n : Nat} {s : State} (h : check (s.slot x) n = none) :
    readBits x n s = .done (memRead (s.slot x).buf (s.slot x).big (s.slot x).idx n)
      (s.setSlot x { s.slot x with idx := (s.slot x).idx + n }) := by
  simp [readBits, h]

theorem readBits_bad {x n : Nat} {s : State} {e : Status} (h : check (s.slot x) n = some e) :
    readBits x n s = .raised e s := by
  simp [readBits, h]

/-- Everything `write_bits_us` can do (R120). -/
theorem writeBits_eq (x v n : Nat) (s : State) :
    (check (s.slot x) n = none ∧
      writeBits x v n s = .done () (s.setSlot x { s.slot x with
        buf := memWrite (s.slot x).buf (s.slot x).big (s.slot x).idx n (v % 2 ^ n)
        idx := (s.slot x).idx + n })) ∨
    ∃ e, check (s.slot x) n = some e ∧ writeBits x v n s = .raised e s := by
  unfold writeBits
  cases h : check (s.slot x) n with
  | none => exact .inl ⟨rfl, rfl⟩
  | some e => exact .inr ⟨e, rfl, rfl⟩

theorem writeBits_ok {x v n : Nat} {s : State} (h : check (s.slot x) n = none) :
    writeBits x v n s = .done () (s.setSlot x { s.slot x with
      buf := memWrite (s.slot x).buf (s.slot x).big (s.slot x).idx n (v % 2 ^ n)
      idx := (s.slot x).idx + n }) := by
  simp [writeBits, h]

theorem writeBits_bad {x v n : Nat} {s : State} {e : Status} (h : check (s.slot x) n = some e) :
    writeBits x v n s = .raised e s := by
  simp [writeBits, h]

/-- The narrow write stores the value reduced once (R141). -/
theorem writeNarrow_eq (x v w : Nat) (s : State) : writeNarrow x v w s = writeBits x v w s := by
  unfold writeNarrow writeBits
  rw [Nat.mod_mod]

/-! ## Composite sub-steps -/

/-- A slot whose index has moved by `n` bits and nothing else (R120, R142). -/
def Slot.advance (c : Slot) (n : Nat) : Slot := { c with idx := c.idx + n }

@[simp] theorem advance_valid (c : Slot) (n : Nat) : (c.advance n).valid = c.valid := rfl
@[simp] theorem advance_len (c : Slot) (n : Nat) : (c.advance n).len = c.len := rfl
@[simp] theorem advance_idx (c : Slot) (n : Nat) : (c.advance n).idx = c.idx + n := rfl
@[simp] theorem advance_big (c : Slot) (n : Nat) : (c.advance n).big = c.big := rfl
@[simp] theorem advance_buf (c : Slot) (n : Nat) : (c.advance n).buf = c.buf := rfl
@[simp] theorem advance_zero (c : Slot) : c.advance 0 = c := rfl
theorem advance_advance (c : Slot) (m n : Nat) : (c.advance m).advance n = c.advance (m + n) := by
  simp [Slot.advance, Nat.add_assoc]
theorem advance_bitsLeft (c : Slot) (n : Nat) : (c.advance n).bitsLeft = c.bitsLeft - n := by
  simp [Slot.bitsLeft]; omega

/-- The value of `k` chunks of 32 bits at address `a`, low chunk first, placed above bit 32·i of `v` (R142). -/
def chunkValue (m : Memory) (big : Bool) (a k i v : Nat) : Nat :=
  match k with
  | 0 => v
  | k + 1 => chunkValue m big (a + 32) k (i + 1) (v ||| (memRead m big a 32 <<< (32 * i)))

/-- The buffer after `k` chunks of `v` from chunk `i` on have been stored at address `a`, low chunk first (R142). -/
def chunkStore (m : Memory) (big : Bool) (a k i v : Nat) : Memory :=
  match k with
  | 0 => m
  | k + 1 => chunkStore (memWrite m big a 32 ((v >>> (32 * i)) % 2 ^ 32)) big (a + 32) k (i + 1) v

/-- A 32-bit access fits, or raises ERR_EXHAUSTED. -/
theorem check_32 (c : Slot) : (check c 32 = none ∧ 32 ≤ c.bitsLeft) ∨ (check c 32 = some .exhausted ∧ c.bitsLeft < 32) := by
  unfold check rawMax
  rcases Nat.lt_or_ge c.bitsLeft 32 with h | h
  · exact .inr ⟨by simp [h], h⟩
  · exact .inl ⟨by simp; omega, h⟩

/-- The wide read when every chunk fits (R142). -/
theorem readChunks_ok {x k i v : Nat} {s : State} (hx : x < s.nslot) (h : 32 * k ≤ (s.slot x).bitsLeft) :
    readChunks x k i v s =
      .done (chunkValue (s.slot x).buf (s.slot x).big (s.slot x).idx k i v)
        (s.setSlot x ((s.slot x).advance (32 * k))) := by
  induction k generalizing i v s with
  | zero => simp [readChunks, chunkValue]
  | succ k ih =>
    have hc : check (s.slot x) 32 = none := check_none.2 ⟨by omega, by omega, by omega⟩
    rw [readChunks, readBits_ok hc]
    show readChunks x k (i + 1) _ (s.setSlot x ((s.slot x).advance 32)) = _
    rw [ih (by simpa using hx) (by rw [slot_setSlot_same hx, advance_bitsLeft]; omega)]
    simp only [slot_setSlot_same hx, advance_buf, advance_big, advance_idx, setSlot_setSlot, advance_advance,
      chunkValue]
    rw [show 32 + 32 * k = 32 * (k + 1) by omega]

/-- The wide read when some chunk does not fit: the chunks that fit are consumed (R142, R306). -/
theorem readChunks_bad {x k i v : Nat} {s : State} (hx : x < s.nslot) (h : (s.slot x).bitsLeft < 32 * k) :
    readChunks x k i v s =
      .raised .exhausted (s.setSlot x ((s.slot x).advance (32 * ((s.slot x).bitsLeft / 32)))) := by
  induction k generalizing i v s with
  | zero => omega
  | succ k ih =>
    rcases check_32 (s.slot x) with ⟨hc, hl⟩ | ⟨hc, hl⟩
    · rw [readChunks, readBits_ok hc]
      show readChunks x k (i + 1) _ (s.setSlot x ((s.slot x).advance 32)) = _
      rw [ih (by simpa using hx) (by rw [slot_setSlot_same hx, advance_bitsLeft]; omega)]
      simp only [slot_setSlot_same hx, setSlot_setSlot, advance_advance, advance_bitsLeft]
      rw [show 32 + 32 * (((s.slot x).bitsLeft - 32) / 32) = 32 * ((s.slot x).bitsLeft / 32) by omega]
    · rw [readChunks, readBits_bad hc, show (s.slot x).bitsLeft / 32 = 0 by omega]
      simp [SubStep.andThen]

/-- A slot after `k` chunks of `v` from chunk `i` on have been stored at its index (R142). -/
def Slot.stored (c : Slot) (k i v : Nat) : Slot :=
  { c with buf := chunkStore c.buf c.big c.idx k i v, idx := c.idx + 32 * k }

@[simp] theorem stored_valid (c : Slot) (k i v : Nat) : (c.stored k i v).valid = c.valid := rfl
@[simp] theorem stored_len (c : Slot) (k i v : Nat) : (c.stored k i v).len = c.len := rfl
@[simp] theorem stored_big (c : Slot) (k i v : Nat) : (c.stored k i v).big = c.big := rfl
@[simp] theorem stored_idx (c : Slot) (k i v : Nat) : (c.stored k i v).idx = c.idx + 32 * k := rfl
@[simp] theorem stored_zero (c : Slot) (i v : Nat) : c.stored 0 i v = c := rfl
theorem stored_bitsLeft (c : Slot) (k i v : Nat) : (c.stored k i v).bitsLeft = c.bitsLeft - 32 * k := by
  simp [Slot.bitsLeft]; omega
theorem stored_stored (c : Slot) (k i v : Nat) :
    (c.stored 1 i v).stored k (i + 1) v = c.stored (k + 1) i v := by
  simp only [Slot.stored, chunkStore, Nat.mul_one]
  congr 1
  omega

/-- The wide write when every chunk fits (R142). -/
theorem writeChunks_ok {x v k i : Nat} {s : State} (hx : x < s.nslot) (h : 32 * k ≤ (s.slot x).bitsLeft) :
    writeChunks x v k i s = .done () (s.setSlot x ((s.slot x).stored k i v)) := by
  induction k generalizing i s with
  | zero => simp [writeChunks]
  | succ k ih =>
    have hc : check (s.slot x) 32 = none := check_none.2 ⟨by omega, by omega, by omega⟩
    rw [writeChunks, writeBits_ok hc, Nat.mod_mod]
    show writeChunks x v k (i + 1) (s.setSlot x ((s.slot x).stored 1 i v)) = _
    rw [ih (by simpa using hx) (by rw [slot_setSlot_same hx, stored_bitsLeft]; omega)]
    simp only [slot_setSlot_same hx, setSlot_setSlot, stored_stored]

/-- The wide write when some chunk does not fit: the low chunks that fit are stored (R142, R306). -/
theorem writeChunks_bad {x v k i : Nat} {s : State} (hx : x < s.nslot) (h : (s.slot x).bitsLeft < 32 * k) :
    writeChunks x v k i s =
      .raised .exhausted (s.setSlot x ((s.slot x).stored ((s.slot x).bitsLeft / 32) i v)) := by
  induction k generalizing i s with
  | zero => omega
  | succ k ih =>
    rcases check_32 (s.slot x) with ⟨hc, hl⟩ | ⟨hc, hl⟩
    · rw [writeChunks, writeBits_ok hc, Nat.mod_mod]
      show writeChunks x v k (i + 1) (s.setSlot x ((s.slot x).stored 1 i v)) = _
      rw [ih (by simpa using hx) (by rw [slot_setSlot_same hx, stored_bitsLeft]; omega)]
      simp only [slot_setSlot_same hx, setSlot_setSlot, stored_bitsLeft, stored_stored]
      rw [show ((s.slot x).bitsLeft - 32 * 1) / 32 + 1 = (s.slot x).bitsLeft / 32 by omega]
    · rw [writeChunks, writeBits_bad hc, show (s.slot x).bitsLeft / 32 = 0 by omega]
      simp [SubStep.andThen]

/-! ## The commands that read and write -/

/-- Everything a reading command can do: ERR_SLOT, or what its read does, answered. -/
theorem readCommand_eq (x : Nat) (read : State → SubStep Nat) (f : Nat → Operand) (s : State) :
    (slotOk x s = false ∧ readCommand x read f s = .next (s.withResp (some ⟨.slot, 0⟩))) ∨
    (slotOk x s = true ∧
      ((∃ v t, read s = .done v t ∧ readCommand x read f s = .next (t.withResp (some ⟨.ok, f v⟩))) ∨
        ∃ e t, read s = .raised e t ∧ readCommand x read f s = .next (t.withResp (some ⟨e, 0⟩)))) := by
  unfold readCommand
  cases h : slotOk x s with
  | false => exact .inl ⟨rfl, withSlot_bad h _⟩
  | true =>
    refine .inr ⟨rfl, ?_⟩
    rw [withSlot_ok h]
    cases hr : read s with
    | done v t => exact .inl ⟨v, t, rfl, rfl⟩
    | raised e t => exact .inr ⟨e, t, rfl, rfl⟩

/-- Everything a writing command can do: ERR_SLOT, or what its write does, answered. -/
theorem writeCommand_eq (x : Nat) (write : State → SubStep Unit) (s : State) :
    (slotOk x s = false ∧ writeCommand x write s = .next (s.withResp (some ⟨.slot, 0⟩))) ∨
    (slotOk x s = true ∧
      ((∃ t, write s = .done () t ∧ writeCommand x write s = .next (t.withResp (some ⟨.ok, 0⟩))) ∨
        ∃ e t, write s = .raised e t ∧ writeCommand x write s = .next (t.withResp (some ⟨e, 0⟩)))) := by
  unfold writeCommand
  cases h : slotOk x s with
  | false => exact .inl ⟨rfl, withSlot_bad h _⟩
  | true =>
    refine .inr ⟨rfl, ?_⟩
    rw [withSlot_ok h]
    cases hr : write s with
    | done v t => exact .inl ⟨t, rfl, rfl⟩
    | raised e t => exact .inr ⟨e, t, rfl, rfl⟩

end Sys2Proof.Machine
end

