-- ==== Sys2Proof/Laws/NestedStream.lean ====
section
/-! SUPPORT. What a chunk of WRBS, and its loop, can do (R250). -/

namespace Sys2Proof.Machine

/-- Everything one chunk of the copy can do: the read raises and nothing changes; the write raises and the source has
advanced; or both succeed (R250). -/
theorem copyChunk_eq (d t c : Nat) (s : State) :
    (∃ e, check (s.slot t) c = some e ∧ copyChunk d t c s = .raised e s) ∨
    (∃ e s', check (s.slot t) c = none ∧ s' = s.setSlot t { s.slot t with idx := (s.slot t).idx + c } ∧
      check (s'.slot d) c = some e ∧ copyChunk d t c s = .raised e s') ∨
    ∃ v s', check (s.slot t) c = none ∧ v = memRead (s.slot t).buf (s.slot t).big (s.slot t).idx c ∧
      s' = s.setSlot t { s.slot t with idx := (s.slot t).idx + c } ∧ check (s'.slot d) c = none ∧
      copyChunk d t c s = .done () (s'.setSlot d { s'.slot d with
        buf := memWrite (s'.slot d).buf (s'.slot d).big (s'.slot d).idx c (v % 2 ^ c)
        idx := (s'.slot d).idx + c }) := by
  unfold copyChunk
  rcases readBits_eq t c s with ⟨hr, er⟩ | ⟨e, hr, er⟩
  · rw [er]
    rcases writeBits_eq d (memRead (s.slot t).buf (s.slot t).big (s.slot t).idx c) c
      (s.setSlot t { s.slot t with idx := (s.slot t).idx + c }) with ⟨hw, ew⟩ | ⟨e, hw, ew⟩
    · exact .inr (.inr ⟨_, _, hr, rfl, rfl, hw, ew⟩)
    · exact .inr (.inl ⟨e, _, hr, rfl, hw, ew⟩)
  · rw [er]
    exact .inl ⟨e, hr, rfl⟩

/-- With nothing left to copy the loop ends. -/
theorem copyLoop_zero (d t fuel : Nat) (s : State) : copyLoop d t fuel 0 s = .done () s := by
  cases fuel <;> simp [copyLoop]

/-- With bits left and turns left, the loop copies one chunk and goes on. -/
theorem copyLoop_chunk {d t fuel rem : Nat} (s : State) (h : rem ≠ 0) :
    copyLoop d t (fuel + 1) rem s =
      (copyChunk d t (min 32 rem) s).andThen fun _ s' => copyLoop d t fuel (rem - min 32 rem) s' := by
  simp [copyLoop, h]

/-- As many turns as there are bits are enough: more change nothing (log 16). -/
theorem copyLoop_fuel (d t : Nat) {fuel fuel' : Nat} :
    ∀ {rem : Nat} (s : State), rem ≤ fuel → rem ≤ fuel' → copyLoop d t fuel rem s = copyLoop d t fuel' rem s := by
  induction fuel generalizing fuel' with
  | zero =>
    intro rem s h _
    obtain rfl : rem = 0 := by omega
    rw [copyLoop_zero, copyLoop_zero]
  | succ fuel ih =>
    intro rem s h h'
    by_cases h0 : rem = 0
    · rw [h0, copyLoop_zero, copyLoop_zero]
    · obtain ⟨fuel', rfl⟩ : ∃ k, fuel' = k + 1 := ⟨fuel' - 1, by omega⟩
      rw [copyLoop_chunk s h0, copyLoop_chunk s h0]
      cases copyChunk d t (min 32 rem) s with
      | done v s' => exact ih s' (by omega) (by omega)
      | raised e s' => rfl

end Sys2Proof.Machine
end

