-- ==== Sys2Proof/Laws/PerInstr.lean ====
section
/-! SUPPORT. Statements about each command as syntax, one lemma per constructor of `Instr`.

`EncodedWord`: the word of a well-formed command agrees with its opcode under the mask of its format, and its four
fields read back as the numbers that were put in (R71, R72, R75). -/

namespace Sys2Proof.Laws

open Sys2Proof

/-! ## Composed words -/

/-- The word R71 lays out from its four fields. -/
def composeWord (op s t n : Nat) : Word := BitVec.ofNat 32 (op + s * 2 ^ 8 + t * 2 ^ 12 + n * 2 ^ 16)

/-- The four fields of a composed word read back. -/
theorem composeWord_fields (op s t n : Nat) (a b : Operand) (ho : op < 256) (hs : s < 16) (ht : t < 16) (hn : n < 64) :
    Packet.fieldOp ⟨composeWord op s t n, a, b⟩ = op ∧ Packet.fieldS ⟨composeWord op s t n, a, b⟩ = s ∧
      Packet.fieldT ⟨composeWord op s t n, a, b⟩ = t ∧ Packet.fieldN ⟨composeWord op s t n, a, b⟩ = n := by
  simp only [Packet.fieldOp, Packet.fieldS, Packet.fieldT, Packet.fieldN, composeWord, BitVec.toNat_ofNat]
  omega

/-- Under the mask of formats C and K a word without `t` and `n` is its opcode (R72). -/
theorem composeWord_mask_c (op s : Nat) (ho : op < 256) (hs : s < 16) :
    composeWord op s 0 0 &&& 0xFFFFF0FF = BitVec.ofNat 32 op := by
  have h : ∀ (op : Fin 256) (s : Fin 16), composeWord op s 0 0 &&& 0xFFFFF0FF = BitVec.ofNat 32 op := by
    decide +kernel
  exact h ⟨op, ho⟩ ⟨s, hs⟩

/-- Under the mask of format CN the word of a raw access is its opcode (R72). -/
theorem composeWord_mask_cn (k s n : Nat) (hk : k < 4) (hs : s < 16) (hn : n < 64) :
    composeWord (0x10 + k) s 0 n &&& 0xFFC0F0FF = BitVec.ofNat 32 (0x10 + k) := by
  have h : ∀ (k : Fin 4) (s : Fin 16) (n : Fin 64),
      composeWord (0x10 + k) s 0 n &&& 0xFFC0F0FF = BitVec.ofNat 32 (0x10 + k) := by
    decide +kernel
  exact h ⟨k, hk⟩ ⟨s, hs⟩ ⟨n, hn⟩

/-- Under the mask of format CC the word of SLICE or WRBS is its opcode (R72). -/
theorem composeWord_mask_cc (s t : Nat) (hs : s < 16) (ht : t < 16) :
    composeWord 0x09 s t 0 &&& 0xFFFF00FF = 0x09 ∧ composeWord 0x50 s t 0 &&& 0xFFFF00FF = 0x50 := by
  have h : ∀ (s t : Fin 16),
      composeWord 0x09 s t 0 &&& 0xFFFF00FF = 0x09 ∧ composeWord 0x50 s t 0 &&& 0xFFFF00FF = 0x50 := by
    decide +kernel
  exact h ⟨s, hs⟩ ⟨t, ht⟩

/-! ## The family -/

/-- The format of a command (R75). -/
def formatOf (i : Instr) : Format :=
  match i with
  | .rdb _ _ | .rdbs _ _ | .wrbu _ _ _ | .wrb _ _ _ => .cn
  | .slice _ _ _ _ | .wrbs _ _ _ => .cc
  | .cnew _ _ _ _ | .enc _ _ | .dec _ _ => .k
  | _ => .c

namespace EncodedWord

/-- The word of a well-formed command is its opcode under the mask of its format, and holds its numbers (R71, R72). -/
def Statement (i : Instr) : Prop :=
  i.WellFormed →
    (encode i).word &&& (formatOf i).mask = BitVec.ofNat 32 i.opcode ∧
    (encode i).fieldOp = i.opcode ∧ (encode i).fieldS = i.primary ∧ (encode i).fieldT = i.secondary ∧
    (encode i).fieldN = i.count

theorem new (s : Nat) (len : BitVec 64) : Statement (.new s len) := fun h =>
  ⟨composeWord_mask_c 0x01 _ (by decide) h.1, composeWord_fields 0x01 _ _ _ _ _ (by decide) h.1 h.2.1 h.2.2⟩

theorem setidx (s : Nat) (bits : BitVec 64) : Statement (.setidx s bits) := fun h =>
  ⟨composeWord_mask_c 0x02 _ (by decide) h.1, composeWord_fields 0x02 _ _ _ _ _ (by decide) h.1 h.2.1 h.2.2⟩

theorem getidx (s : Nat) : Statement (.getidx s) := fun h =>
  ⟨composeWord_mask_c 0x03 _ (by decide) h.1, composeWord_fields 0x03 _ _ _ _ _ (by decide) h.1 h.2.1 h.2.2⟩

theorem setend (s : Nat) (big : Bool) : Statement (.setend s big) := fun h =>
  ⟨composeWord_mask_c 0x04 _ (by decide) h.1, composeWord_fields 0x04 _ _ _ _ _ (by decide) h.1 h.2.1 h.2.2⟩

theorem getend (s : Nat) : Statement (.getend s) := fun h =>
  ⟨composeWord_mask_c 0x05 _ (by decide) h.1, composeWord_fields 0x05 _ _ _ _ _ (by decide) h.1 h.2.1 h.2.2⟩

theorem bitsleft (s : Nat) : Statement (.bitsleft s) := fun h =>
  ⟨composeWord_mask_c 0x06 _ (by decide) h.1, composeWord_fields 0x06 _ _ _ _ _ (by decide) h.1 h.2.1 h.2.2⟩

theorem getlen (s : Nat) : Statement (.getlen s) := fun h =>
  ⟨composeWord_mask_c 0x07 _ (by decide) h.1, composeWord_fields 0x07 _ _ _ _ _ (by decide) h.1 h.2.1 h.2.2⟩

theorem align (s : Nat) : Statement (.align s) := fun h =>
  ⟨composeWord_mask_c 0x08 _ (by decide) h.1, composeWord_fields 0x08 _ _ _ _ _ (by decide) h.1 h.2.1 h.2.2⟩

theorem slice (d : Nat) (t : Nat) (start : BitVec 64) (stop : BitVec 64) : Statement (.slice d t start stop) := fun h =>
  ⟨(composeWord_mask_cc _ _ h.1 h.2.1).1, composeWord_fields 0x09 _ _ _ _ _ (by decide) h.1 h.2.1 h.2.2⟩

theorem rdb (s : Nat) (n : Nat) : Statement (.rdb s n) := fun h =>
  ⟨composeWord_mask_cn 0 _ _ (by decide) h.1 h.2.2, composeWord_fields 0x10 _ _ _ _ _ (by decide) h.1 h.2.1 h.2.2⟩

theorem rdbs (s : Nat) (n : Nat) : Statement (.rdbs s n) := fun h =>
  ⟨composeWord_mask_cn 1 _ _ (by decide) h.1 h.2.2, composeWord_fields 0x11 _ _ _ _ _ (by decide) h.1 h.2.1 h.2.2⟩

theorem wrbu (s : Nat) (n : Nat) (value : BitVec 32) : Statement (.wrbu s n value) := fun h =>
  ⟨composeWord_mask_cn 2 _ _ (by decide) h.1 h.2.2, composeWord_fields 0x12 _ _ _ _ _ (by decide) h.1 h.2.1 h.2.2⟩

theorem wrb (s : Nat) (n : Nat) (value : BitVec 32) : Statement (.wrb s n value) := fun h =>
  ⟨composeWord_mask_cn 3 _ _ (by decide) h.1 h.2.2, composeWord_fields 0x13 _ _ _ _ _ (by decide) h.1 h.2.1 h.2.2⟩

theorem rdbool (s : Nat) : Statement (.rdbool s) := fun h =>
  ⟨composeWord_mask_c 0x14 _ (by decide) h.1, composeWord_fields 0x14 _ _ _ _ _ (by decide) h.1 h.2.1 h.2.2⟩

theorem wrbool (s : Nat) (b : Bool) : Statement (.wrbool s b) := fun h =>
  ⟨composeWord_mask_c 0x15 _ (by decide) h.1, composeWord_fields 0x15 _ _ _ _ _ (by decide) h.1 h.2.1 h.2.2⟩

theorem rdu4 (s : Nat) : Statement (.rdu4 s) := fun h =>
  ⟨composeWord_mask_c 0x20 _ (by decide) h.1, composeWord_fields 0x20 _ _ _ _ _ (by decide) h.1 h.2.1 h.2.2⟩

theorem rdu8 (s : Nat) : Statement (.rdu8 s) := fun h =>
  ⟨composeWord_mask_c 0x21 _ (by decide) h.1, composeWord_fields 0x21 _ _ _ _ _ (by decide) h.1 h.2.1 h.2.2⟩

theorem rdu16 (s : Nat) : Statement (.rdu16 s) := fun h =>
  ⟨composeWord_mask_c 0x22 _ (by decide) h.1, composeWord_fields 0x22 _ _ _ _ _ (by decide) h.1 h.2.1 h.2.2⟩

theorem rdu32 (s : Nat) : Statement (.rdu32 s) := fun h =>
  ⟨composeWord_mask_c 0x23 _ (by decide) h.1, composeWord_fields 0x23 _ _ _ _ _ (by decide) h.1 h.2.1 h.2.2⟩

theorem rdu64 (s : Nat) : Statement (.rdu64 s) := fun h =>
  ⟨composeWord_mask_c 0x24 _ (by decide) h.1, composeWord_fields 0x24 _ _ _ _ _ (by decide) h.1 h.2.1 h.2.2⟩

theorem rdu128 (s : Nat) : Statement (.rdu128 s) := fun h =>
  ⟨composeWord_mask_c 0x25 _ (by decide) h.1, composeWord_fields 0x25 _ _ _ _ _ (by decide) h.1 h.2.1 h.2.2⟩

theorem rdi4 (s : Nat) : Statement (.rdi4 s) := fun h =>
  ⟨composeWord_mask_c 0x28 _ (by decide) h.1, composeWord_fields 0x28 _ _ _ _ _ (by decide) h.1 h.2.1 h.2.2⟩

theorem rdi8 (s : Nat) : Statement (.rdi8 s) := fun h =>
  ⟨composeWord_mask_c 0x29 _ (by decide) h.1, composeWord_fields 0x29 _ _ _ _ _ (by decide) h.1 h.2.1 h.2.2⟩

theorem rdi16 (s : Nat) : Statement (.rdi16 s) := fun h =>
  ⟨composeWord_mask_c 0x2A _ (by decide) h.1, composeWord_fields 0x2A _ _ _ _ _ (by decide) h.1 h.2.1 h.2.2⟩

theorem rdi32 (s : Nat) : Statement (.rdi32 s) := fun h =>
  ⟨composeWord_mask_c 0x2B _ (by decide) h.1, composeWord_fields 0x2B _ _ _ _ _ (by decide) h.1 h.2.1 h.2.2⟩

theorem rdi64 (s : Nat) : Statement (.rdi64 s) := fun h =>
  ⟨composeWord_mask_c 0x2C _ (by decide) h.1, composeWord_fields 0x2C _ _ _ _ _ (by decide) h.1 h.2.1 h.2.2⟩

theorem rdi128 (s : Nat) : Statement (.rdi128 s) := fun h =>
  ⟨composeWord_mask_c 0x2D _ (by decide) h.1, composeWord_fields 0x2D _ _ _ _ _ (by decide) h.1 h.2.1 h.2.2⟩

theorem wru4 (s : Nat) (value : BitVec 4) : Statement (.wru4 s value) := fun h =>
  ⟨composeWord_mask_c 0x30 _ (by decide) h.1, composeWord_fields 0x30 _ _ _ _ _ (by decide) h.1 h.2.1 h.2.2⟩

theorem wru8 (s : Nat) (value : BitVec 8) : Statement (.wru8 s value) := fun h =>
  ⟨composeWord_mask_c 0x31 _ (by decide) h.1, composeWord_fields 0x31 _ _ _ _ _ (by decide) h.1 h.2.1 h.2.2⟩

theorem wru16 (s : Nat) (value : BitVec 16) : Statement (.wru16 s value) := fun h =>
  ⟨composeWord_mask_c 0x32 _ (by decide) h.1, composeWord_fields 0x32 _ _ _ _ _ (by decide) h.1 h.2.1 h.2.2⟩

theorem wru32 (s : Nat) (value : BitVec 32) : Statement (.wru32 s value) := fun h =>
  ⟨composeWord_mask_c 0x33 _ (by decide) h.1, composeWord_fields 0x33 _ _ _ _ _ (by decide) h.1 h.2.1 h.2.2⟩

theorem wru64 (s : Nat) (value : BitVec 64) : Statement (.wru64 s value) := fun h =>
  ⟨composeWord_mask_c 0x34 _ (by decide) h.1, composeWord_fields 0x34 _ _ _ _ _ (by decide) h.1 h.2.1 h.2.2⟩

theorem wru128 (s : Nat) (value : BitVec 128) : Statement (.wru128 s value) := fun h =>
  ⟨composeWord_mask_c 0x35 _ (by decide) h.1, composeWord_fields 0x35 _ _ _ _ _ (by decide) h.1 h.2.1 h.2.2⟩

theorem wri4 (s : Nat) (value : BitVec 4) : Statement (.wri4 s value) := fun h =>
  ⟨composeWord_mask_c 0x38 _ (by decide) h.1, composeWord_fields 0x38 _ _ _ _ _ (by decide) h.1 h.2.1 h.2.2⟩

theorem wri8 (s : Nat) (value : BitVec 8) : Statement (.wri8 s value) := fun h =>
  ⟨composeWord_mask_c 0x39 _ (by decide) h.1, composeWord_fields 0x39 _ _ _ _ _ (by decide) h.1 h.2.1 h.2.2⟩

theorem wri16 (s : Nat) (value : BitVec 16) : Statement (.wri16 s value) := fun h =>
  ⟨composeWord_mask_c 0x3A _ (by decide) h.1, composeWord_fields 0x3A _ _ _ _ _ (by decide) h.1 h.2.1 h.2.2⟩

theorem wri32 (s : Nat) (value : BitVec 32) : Statement (.wri32 s value) := fun h =>
  ⟨composeWord_mask_c 0x3B _ (by decide) h.1, composeWord_fields 0x3B _ _ _ _ _ (by decide) h.1 h.2.1 h.2.2⟩

theorem wri64 (s : Nat) (value : BitVec 64) : Statement (.wri64 s value) := fun h =>
  ⟨composeWord_mask_c 0x3C _ (by decide) h.1, composeWord_fields 0x3C _ _ _ _ _ (by decide) h.1 h.2.1 h.2.2⟩

theorem wri128 (s : Nat) (value : BitVec 128) : Statement (.wri128 s value) := fun h =>
  ⟨composeWord_mask_c 0x3D _ (by decide) h.1, composeWord_fields 0x3D _ _ _ _ _ (by decide) h.1 h.2.1 h.2.2⟩

theorem rdf8 (s : Nat) : Statement (.rdf8 s) := fun h =>
  ⟨composeWord_mask_c 0x40 _ (by decide) h.1, composeWord_fields 0x40 _ _ _ _ _ (by decide) h.1 h.2.1 h.2.2⟩

theorem rdf16 (s : Nat) : Statement (.rdf16 s) := fun h =>
  ⟨composeWord_mask_c 0x41 _ (by decide) h.1, composeWord_fields 0x41 _ _ _ _ _ (by decide) h.1 h.2.1 h.2.2⟩

theorem rdf32 (s : Nat) : Statement (.rdf32 s) := fun h =>
  ⟨composeWord_mask_c 0x42 _ (by decide) h.1, composeWord_fields 0x42 _ _ _ _ _ (by decide) h.1 h.2.1 h.2.2⟩

theorem rdf64 (s : Nat) : Statement (.rdf64 s) := fun h =>
  ⟨composeWord_mask_c 0x43 _ (by decide) h.1, composeWord_fields 0x43 _ _ _ _ _ (by decide) h.1 h.2.1 h.2.2⟩

theorem rduf8 (s : Nat) : Statement (.rduf8 s) := fun h =>
  ⟨composeWord_mask_c 0x44 _ (by decide) h.1, composeWord_fields 0x44 _ _ _ _ _ (by decide) h.1 h.2.1 h.2.2⟩

theorem rduf16 (s : Nat) : Statement (.rduf16 s) := fun h =>
  ⟨composeWord_mask_c 0x45 _ (by decide) h.1, composeWord_fields 0x45 _ _ _ _ _ (by decide) h.1 h.2.1 h.2.2⟩

theorem rduf32 (s : Nat) : Statement (.rduf32 s) := fun h =>
  ⟨composeWord_mask_c 0x46 _ (by decide) h.1, composeWord_fields 0x46 _ _ _ _ _ (by decide) h.1 h.2.1 h.2.2⟩

theorem rduf64 (s : Nat) : Statement (.rduf64 s) := fun h =>
  ⟨composeWord_mask_c 0x47 _ (by decide) h.1, composeWord_fields 0x47 _ _ _ _ _ (by decide) h.1 h.2.1 h.2.2⟩

theorem wrf8 (s : Nat) (x : F64) : Statement (.wrf8 s x) := fun h =>
  ⟨composeWord_mask_c 0x48 _ (by decide) h.1, composeWord_fields 0x48 _ _ _ _ _ (by decide) h.1 h.2.1 h.2.2⟩

theorem wrf16 (s : Nat) (x : F64) : Statement (.wrf16 s x) := fun h =>
  ⟨composeWord_mask_c 0x49 _ (by decide) h.1, composeWord_fields 0x49 _ _ _ _ _ (by decide) h.1 h.2.1 h.2.2⟩

theorem wrf32 (s : Nat) (x : F64) : Statement (.wrf32 s x) := fun h =>
  ⟨composeWord_mask_c 0x4A _ (by decide) h.1, composeWord_fields 0x4A _ _ _ _ _ (by decide) h.1 h.2.1 h.2.2⟩

theorem wrf64 (s : Nat) (x : F64) : Statement (.wrf64 s x) := fun h =>
  ⟨composeWord_mask_c 0x4B _ (by decide) h.1, composeWord_fields 0x4B _ _ _ _ _ (by decide) h.1 h.2.1 h.2.2⟩

theorem wruf8 (s : Nat) (x : F64) : Statement (.wruf8 s x) := fun h =>
  ⟨composeWord_mask_c 0x4C _ (by decide) h.1, composeWord_fields 0x4C _ _ _ _ _ (by decide) h.1 h.2.1 h.2.2⟩

theorem wruf16 (s : Nat) (x : F64) : Statement (.wruf16 s x) := fun h =>
  ⟨composeWord_mask_c 0x4D _ (by decide) h.1, composeWord_fields 0x4D _ _ _ _ _ (by decide) h.1 h.2.1 h.2.2⟩

theorem wruf32 (s : Nat) (x : F64) : Statement (.wruf32 s x) := fun h =>
  ⟨composeWord_mask_c 0x4E _ (by decide) h.1, composeWord_fields 0x4E _ _ _ _ _ (by decide) h.1 h.2.1 h.2.2⟩

theorem wruf64 (s : Nat) (x : F64) : Statement (.wruf64 s x) := fun h =>
  ⟨composeWord_mask_c 0x4F _ (by decide) h.1, composeWord_fields 0x4F _ _ _ _ _ (by decide) h.1 h.2.1 h.2.2⟩

theorem wrbs (d : Nat) (t : Nat) (nbits : BitVec 64) : Statement (.wrbs d t nbits) := fun h =>
  ⟨(composeWord_mask_cc _ _ h.1 h.2.1).2, composeWord_fields 0x50 _ _ _ _ _ (by decide) h.1 h.2.1 h.2.2⟩

theorem cnew (k : Nat) (bits : BitVec 8) (ebits : BitVec 8) (signed : Bool) : Statement (.cnew k bits ebits signed) := fun h =>
  ⟨composeWord_mask_c 0x60 _ (by decide) h.1, composeWord_fields 0x60 _ _ _ _ _ (by decide) h.1 h.2.1 h.2.2⟩

theorem enc (k : Nat) (x : F64) : Statement (.enc k x) := fun h =>
  ⟨composeWord_mask_c 0x61 _ (by decide) h.1, composeWord_fields 0x61 _ _ _ _ _ (by decide) h.1 h.2.1 h.2.2⟩

theorem dec (k : Nat) (p : BitVec 128) : Statement (.dec k p) := fun h =>
  ⟨composeWord_mask_c 0x62 _ (by decide) h.1, composeWord_fields 0x62 _ _ _ _ _ (by decide) h.1 h.2.1 h.2.2⟩

end EncodedWord

end Sys2Proof.Laws
end

