-- ==== Sys2Proof/Machine/Assembler.lean ====
section
/-! DEFINITION. The textual form of a command (R79). Float operands are written in the exact form `f64:0x…` (log 15). -/

namespace Sys2Proof.Machine

/-- `c<d>`, a cursor slot (R79). -/
def slotName (x : Nat) : String := "c" ++ toString x

/-- `k<d>`, a codec context (R79). -/
def ctxName (j : Nat) : String := "k" ++ toString j

/-- One upper-case hexadecimal digit. -/
def hexDigit (d : Nat) : Char := Char.ofNat (if d < 10 then 48 + d else 55 + d)

/-- The last `k` hexadecimal digits of a number, most significant first. -/
def hexDigits (k v : Nat) : List Char := (List.range k).reverse.map fun i => hexDigit (v / 16 ^ i % 16)

/-- `0x…` without leading zeros (R79). -/
def hexName (v : Nat) : String := "0x" ++ String.ofList (hexDigits (Nat.log2 v / 4 + 1) v)

/-- `f64:0x<16 hex>`, an exact binary64 pattern (R79). -/
def floatName (x : F64) : String := "f64:0x" ++ String.ofList (hexDigits 16 x.toNat)

/-- `MNEMONIC operands`, the operands separated by commas (R79). -/
def line (mnemonic : String) (operands : List String) : String :=
  mnemonic ++ " " ++ String.intercalate ", " operands

end Sys2Proof.Machine

namespace Sys2Proof

open Sys2Proof.Machine

/-- A command as one line of text (R79). -/
def Instr.asm (i : Instr) : String :=
  match i with
  | .new s len => line "NEW" [slotName s, toString len.toNat]
  | .setidx s bits => line "SETIDX" [slotName s, toString bits.toNat]
  | .getidx s => line "GETIDX" [slotName s]
  | .setend s big => line "SETEND" [slotName s, (if big then "big" else "little")]
  | .getend s => line "GETEND" [slotName s]
  | .bitsleft s => line "BITSLEFT" [slotName s]
  | .getlen s => line "GETLEN" [slotName s]
  | .align s => line "ALIGN" [slotName s]
  | .slice d t start stop => line "SLICE" [slotName d, slotName t, toString (signed64 start), toString (signed64 stop)]
  | .rdb s n => line "RDB" [slotName s, toString n]
  | .rdbs s n => line "RDBS" [slotName s, toString n]
  | .wrbu s n value => line "WRBU" [slotName s, toString n, hexName value.toNat]
  | .wrb s n value => line "WRB" [slotName s, toString n, toString value.toInt]
  | .rdbool s => line "RDBOOL" [slotName s]
  | .wrbool s b => line "WRBOOL" [slotName s, toString (boolBit b)]
  | .rdu4 s => line "RDU4" [slotName s]
  | .rdu8 s => line "RDU8" [slotName s]
  | .rdu16 s => line "RDU16" [slotName s]
  | .rdu32 s => line "RDU32" [slotName s]
  | .rdu64 s => line "RDU64" [slotName s]
  | .rdu128 s => line "RDU128" [slotName s]
  | .rdi4 s => line "RDI4" [slotName s]
  | .rdi8 s => line "RDI8" [slotName s]
  | .rdi16 s => line "RDI16" [slotName s]
  | .rdi32 s => line "RDI32" [slotName s]
  | .rdi64 s => line "RDI64" [slotName s]
  | .rdi128 s => line "RDI128" [slotName s]
  | .wru4 s value => line "WRU4" [slotName s, hexName value.toNat]
  | .wru8 s value => line "WRU8" [slotName s, hexName value.toNat]
  | .wru16 s value => line "WRU16" [slotName s, hexName value.toNat]
  | .wru32 s value => line "WRU32" [slotName s, hexName value.toNat]
  | .wru64 s value => line "WRU64" [slotName s, hexName value.toNat]
  | .wru128 s value => line "WRU128" [slotName s, hexName value.toNat]
  | .wri4 s value => line "WRI4" [slotName s, toString value.toInt]
  | .wri8 s value => line "WRI8" [slotName s, toString value.toInt]
  | .wri16 s value => line "WRI16" [slotName s, toString value.toInt]
  | .wri32 s value => line "WRI32" [slotName s, toString value.toInt]
  | .wri64 s value => line "WRI64" [slotName s, toString value.toInt]
  | .wri128 s value => line "WRI128" [slotName s, toString value.toInt]
  | .rdf8 s => line "RDF8" [slotName s]
  | .rdf16 s => line "RDF16" [slotName s]
  | .rdf32 s => line "RDF32" [slotName s]
  | .rdf64 s => line "RDF64" [slotName s]
  | .rduf8 s => line "RDUF8" [slotName s]
  | .rduf16 s => line "RDUF16" [slotName s]
  | .rduf32 s => line "RDUF32" [slotName s]
  | .rduf64 s => line "RDUF64" [slotName s]
  | .wrf8 s x => line "WRF8" [slotName s, floatName x]
  | .wrf16 s x => line "WRF16" [slotName s, floatName x]
  | .wrf32 s x => line "WRF32" [slotName s, floatName x]
  | .wrf64 s x => line "WRF64" [slotName s, floatName x]
  | .wruf8 s x => line "WRUF8" [slotName s, floatName x]
  | .wruf16 s x => line "WRUF16" [slotName s, floatName x]
  | .wruf32 s x => line "WRUF32" [slotName s, floatName x]
  | .wruf64 s x => line "WRUF64" [slotName s, floatName x]
  | .wrbs d t nbits => line "WRBS" [slotName d, slotName t, toString nbits.toNat]
  | .cnew k bits ebits signed => line "CNEW" [ctxName k, toString bits.toNat, toString ebits.toNat, (if signed then "s" else "u")]
  | .enc k x => line "ENC" [ctxName k, floatName x]
  | .dec k p => line "DEC" [ctxName k, hexName p.toNat]

end Sys2Proof
end

