-- ==== Sys2Proof/Machine/Parser.lean ====
section
/-! DEFINITION. Reading the textual form of a command (R79): numbers, slots, contexts, floats, the operands of every
mnemonic, and the expected result or status after `->`. What R79 leaves open of the text is log 15. -/

namespace Sys2Proof.Machine

/-! ## Pieces of text -/

/-- The text without blanks at either end; a blank is a space (DESIGN CHOICE, log 15). -/
def trimChars (cs : List Char) : List Char :=
  ((cs.dropWhile fun c => c == ' ').reverse.dropWhile fun c => c == ' ').reverse

/-- The pieces between commas, each trimmed; none of an empty text. -/
def operandTexts (cs : List Char) : List (List Char) :=
  if trimChars cs = [] then [] else (cs.splitOn ',').map trimChars

/-- The text before the first `->` and the text after it, if there is one. -/
def splitArrow (cs : List Char) : List Char × Option (List Char) :=
  match cs with
  | [] => ([], none)
  | '-' :: '>' :: rest => ([], some rest)
  | c :: rest => (c :: (splitArrow rest).1, (splitArrow rest).2)

/-! ## Numbers -/

/-- The value of a digit in a base up to 16. -/
def digitOf (base : Nat) (c : Char) : Option Nat :=
  let n := c.toNat
  let v := if 48 ≤ n ∧ n ≤ 57 then n - 48 else if 65 ≤ n ∧ n ≤ 70 then n - 55 else if 97 ≤ n ∧ n ≤ 102 then n - 87 else 16
  if v < base then some v else none

/-- The number a non-empty run of digits stands for. -/
def digitsValue (base : Nat) (cs : List Char) : Option Nat :=
  if cs = [] then none else cs.foldlM (fun v c => (digitOf base c).map fun d => base * v + d) 0

/-- A decimal or `0x` hexadecimal integer (R79), hexadecimal digits in either case (DESIGN CHOICE, log 15). -/
def parseNat (cs : List Char) : Option Nat :=
  match cs with
  | '0' :: 'x' :: rest => digitsValue 16 rest
  | _ => digitsValue 10 cs

/-- The same with an optional minus sign. R79 names the sign for SLICE offsets and WRIw values; the model takes it before
any integer operand but a bit count (DESIGN CHOICE, log 15). -/
def parseInt (cs : List Char) : Option Int :=
  match cs with
  | '-' :: rest => (parseNat rest).map fun v => -(v : Int)
  | _ => (parseNat cs).map fun v => (v : Int)

/-- `c<d>` or `k<d>`: a letter and a decimal number (R79). -/
def parseIndex (letter : Char) (cs : List Char) : Option Nat :=
  match cs with
  | c :: rest => if c = letter then digitsValue 10 rest else none
  | [] => none

/-! ## Floats -/

/-- The binary64 nearest to `num / den`, without the sign: the quotient to more than 64 bits, its last bit set if
anything was left over, and that rounded once (R79, R18). -/
def ratioToF64 (num den : Nat) : Nat :=
  let sh := 66 + Nat.log2 den
  let q := num * 2 ^ sh / den
  rne64 { coeff := 2 * q + (if num * 2 ^ sh % den = 0 then 0 else 1), expo := -(sh : Int) - 1 }

/-- A decimal literal as a ratio of two numbers: digits with at most one point, at least one digit, and an optional power
of ten after `e` or `E`. R79 does not give the form of a decimal literal (DESIGN CHOICE, log 15). -/
def parseDecimal (cs : List Char) : Option (Nat × Nat) :=
  let isExp := fun c => c == 'e' || c == 'E'
  let mantissa := cs.takeWhile fun c => !isExp c
  let whole := mantissa.takeWhile fun c => c != '.'
  let frac := (mantissa.dropWhile fun c => c != '.').drop 1
  let expo : Option Int := match (cs.dropWhile fun c => !isExp c).drop 1 with
    | [] => if cs.any isExp then none else some 0
    | '+' :: rest => (digitsValue 10 rest).map fun v => (v : Int)
    | '-' :: rest => (digitsValue 10 rest).map fun v => -(v : Int)
    | rest => (digitsValue 10 rest).map fun v => (v : Int)
  (digitsValue 10 (whole ++ frac)).bind fun m => expo.map fun e =>
    (m * 10 ^ (e - (frac.length : Int)).toNat, 10 ^ ((frac.length : Int) - e).toNat)

/-- A float operand: `inf`, `-inf`, `nan`, `f64:0x<16 hex>`, or a decimal literal (R79). The pattern of `nan` is the
canonical NaN, and a minus sign before a zero gives −0.0 (DESIGN CHOICE, log 15). -/
def parseFloat (cs : List Char) : Option F64 :=
  let magnitude := fun (cs : List Char) (sgn : Bool) =>
    if cs = "inf".toList then some (f64Pack sgn 0x7FF0000000000000)
    else (parseDecimal cs).map fun q => f64Pack sgn (ratioToF64 q.1 q.2)
  match cs with
  | 'f' :: '6' :: '4' :: ':' :: '0' :: 'x' :: rest =>
    if rest.length = 16 then (digitsValue 16 rest).map fun v => BitVec.ofNat 64 v else none
  | ['n', 'a', 'n'] => some canonicalNan
  | '-' :: rest => magnitude rest true
  | _ => magnitude cs false

/-! ## Commands -/

/-- `little` or `big` (R79). -/
def parseEndianness (cs : List Char) : Option Bool :=
  if cs = "little".toList then some false else if cs = "big".toList then some true else none

/-- `s` or `u` (R79). -/
def parseSignedness (cs : List Char) : Option Bool :=
  if cs = ['s'] then some true else if cs = ['u'] then some false else none

/-- `0` or `1` (R79). -/
def parseBit (cs : List Char) : Option Bool :=
  if cs = ['0'] then some false else if cs = ['1'] then some true else none

/-- An integer operand, its low `w` bits kept, whatever its size (DESIGN CHOICE, log 15). -/
def parseBits (w : Nat) (cs : List Char) : Option (BitVec w) := (parseInt cs).map fun v => BitVec.ofInt w v

/-- A command that names one cursor and nothing else. -/
def parseCursor (ops : List (List Char)) (f : Nat → Instr) : Option Instr :=
  match ops with
  | [a] => (parseIndex 'c' a).map f
  | _ => none

/-- A command that names one cursor and one further operand. -/
def parseCursorWith {α : Type} (ops : List (List Char)) (operand : List Char → Option α) (f : Nat → α → Instr) :
    Option Instr :=
  match ops with
  | [a, b] => (parseIndex 'c' a).bind fun x => (operand b).map fun v => f x v
  | _ => none

/-- A raw write: a cursor, a bit count and a value. -/
def parseRawWrite (ops : List (List Char)) (f : Nat → Nat → BitVec 32 → Instr) : Option Instr :=
  match ops with
  | [a, b, c] => (parseIndex 'c' a).bind fun x => (parseNat b).bind fun n => (parseBits 32 c).map fun v => f x n v
  | _ => none

/-- SLICE's operands. -/
def parseSlice (ops : List (List Char)) : Option Instr :=
  match ops with
  | [a, b, c, d] => (parseIndex 'c' a).bind fun x => (parseIndex 'c' b).bind fun y =>
      (parseBits 64 c).bind fun v => (parseBits 64 d).map fun w => .slice x y v w
  | _ => none

/-- WRBS's operands. -/
def parseWrbs (ops : List (List Char)) : Option Instr :=
  match ops with
  | [a, b, c] => (parseIndex 'c' a).bind fun x => (parseIndex 'c' b).bind fun y => (parseBits 64 c).map fun v => .wrbs x y v
  | _ => none

/-- CNEW's operands. -/
def parseCnew (ops : List (List Char)) : Option Instr :=
  match ops with
  | [a, b, c, d] => (parseIndex 'k' a).bind fun k => (parseBits 8 b).bind fun v => (parseBits 8 c).bind fun w =>
      (parseSignedness d).map fun s => .cnew k v w s
  | _ => none

/-- ENC's and DEC's operands. -/
def parseCodec {α : Type} (ops : List (List Char)) (operand : List Char → Option α) (f : Nat → α → Instr) :
    Option Instr :=
  match ops with
  | [a, b] => (parseIndex 'k' a).bind fun k => (operand b).map fun v => f k v
  | _ => none

/-- The command a mnemonic and its operands stand for (R79). -/
def parseCommand (mnemonic : String) (ops : List (List Char)) : Option Instr :=
  match mnemonic with
  | "NEW" => parseCursorWith ops (parseBits 64) .new
  | "SETIDX" => parseCursorWith ops (parseBits 64) .setidx
  | "GETIDX" => parseCursor ops .getidx
  | "SETEND" => parseCursorWith ops parseEndianness .setend
  | "GETEND" => parseCursor ops .getend
  | "BITSLEFT" => parseCursor ops .bitsleft
  | "GETLEN" => parseCursor ops .getlen
  | "ALIGN" => parseCursor ops .align
  | "SLICE" => parseSlice ops
  | "RDB" => parseCursorWith ops parseNat .rdb
  | "RDBS" => parseCursorWith ops parseNat .rdbs
  | "WRBU" => parseRawWrite ops .wrbu
  | "WRB" => parseRawWrite ops .wrb
  | "RDBOOL" => parseCursor ops .rdbool
  | "WRBOOL" => parseCursorWith ops parseBit .wrbool
  | "RDU4" => parseCursor ops .rdu4
  | "RDU8" => parseCursor ops .rdu8
  | "RDU16" => parseCursor ops .rdu16
  | "RDU32" => parseCursor ops .rdu32
  | "RDU64" => parseCursor ops .rdu64
  | "RDU128" => parseCursor ops .rdu128
  | "RDI4" => parseCursor ops .rdi4
  | "RDI8" => parseCursor ops .rdi8
  | "RDI16" => parseCursor ops .rdi16
  | "RDI32" => parseCursor ops .rdi32
  | "RDI64" => parseCursor ops .rdi64
  | "RDI128" => parseCursor ops .rdi128
  | "WRU4" => parseCursorWith ops (parseBits 4) .wru4
  | "WRU8" => parseCursorWith ops (parseBits 8) .wru8
  | "WRU16" => parseCursorWith ops (parseBits 16) .wru16
  | "WRU32" => parseCursorWith ops (parseBits 32) .wru32
  | "WRU64" => parseCursorWith ops (parseBits 64) .wru64
  | "WRU128" => parseCursorWith ops (parseBits 128) .wru128
  | "WRI4" => parseCursorWith ops (parseBits 4) .wri4
  | "WRI8" => parseCursorWith ops (parseBits 8) .wri8
  | "WRI16" => parseCursorWith ops (parseBits 16) .wri16
  | "WRI32" => parseCursorWith ops (parseBits 32) .wri32
  | "WRI64" => parseCursorWith ops (parseBits 64) .wri64
  | "WRI128" => parseCursorWith ops (parseBits 128) .wri128
  | "RDF8" => parseCursor ops .rdf8
  | "RDF16" => parseCursor ops .rdf16
  | "RDF32" => parseCursor ops .rdf32
  | "RDF64" => parseCursor ops .rdf64
  | "RDUF8" => parseCursor ops .rduf8
  | "RDUF16" => parseCursor ops .rduf16
  | "RDUF32" => parseCursor ops .rduf32
  | "RDUF64" => parseCursor ops .rduf64
  | "WRF8" => parseCursorWith ops parseFloat .wrf8
  | "WRF16" => parseCursorWith ops parseFloat .wrf16
  | "WRF32" => parseCursorWith ops parseFloat .wrf32
  | "WRF64" => parseCursorWith ops parseFloat .wrf64
  | "WRUF8" => parseCursorWith ops parseFloat .wruf8
  | "WRUF16" => parseCursorWith ops parseFloat .wruf16
  | "WRUF32" => parseCursorWith ops parseFloat .wruf32
  | "WRUF64" => parseCursorWith ops parseFloat .wruf64
  | "WRBS" => parseWrbs ops
  | "CNEW" => parseCnew ops
  | "ENC" => parseCodec ops parseFloat .enc
  | "DEC" => parseCodec ops (parseBits 128) .dec
  | _ => none

/-! ## Lines -/

/-- A status by its name (R302). OK and ERR_ENCODING are read too (DESIGN CHOICE, log 15). -/
def parseStatus (cs : List Char) : Option Status :=
  [("OK", Status.ok), ("ERR_CONFIG", .config), ("ERR_WIDTH", .width), ("ERR_EXHAUSTED", .exhausted),
    ("ERR_INDEX", .index), ("ERR_SLICE", .slice), ("ERR_ENCODING", .encoding), ("ERR_ILLEGAL", .illegal),
    ("ERR_SLOT", .slot), ("ERR_CTX", .ctx), ("ERR_CAPACITY", .capacity)].findSome? fun p =>
      if p.1.toList = cs then some p.2 else none

/-- What stands after `->`: `!STATUS`, an integer, or a float (R79). R79 does not say whether an integer-looking literal on
a command whose result is a float, as in `RDF8 c0 -> 5`, is the result 5 or the binary64 of 5. The model takes it as the
integer result on every command, and reads only what is no integer as a float, whose pattern is then the result
(DESIGN CHOICE, log 15). -/
def parseExpected (cs : List Char) : Option Response :=
  match trimChars cs with
  | '!' :: rest => (parseStatus rest).map fun e => ⟨e, 0⟩
  | v =>
    match parseInt v with
    | some n => some ⟨.ok, BitVec.ofInt 128 n⟩
    | none => (parseFloat v).map fun x => ⟨.ok, x.setWidth 128⟩

/-- One line of text: the command, and the response it is expected to give, if the line says (R79). -/
structure AsmLine where
  command : Instr
  expected : Option Response
deriving DecidableEq, Repr

/-- The line a text stands for, or none (R79). -/
def parseLine (text : String) : Option AsmLine :=
  let parts := splitArrow text.toList
  let body := trimChars parts.1
  (parseCommand (String.ofList (body.takeWhile fun c => c != ' ')) (operandTexts (body.dropWhile fun c => c != ' '))).bind
    fun i =>
      match parts.2 with
      | none => some ⟨i, none⟩
      | some e => (parseExpected e).map fun r => ⟨i, some r⟩

end Sys2Proof.Machine
end

