-- ==== Sys2Proof/Tests/Slice0.lean ====
section
/-! SUPPORT. Tests. Expected values are those of the spec's examples and tables, or worked out by hand from its rules;
each group says which. The last part shows, for every obligation with hypotheses, a state and operands that meet them. -/

namespace Sys2Proof.Tests

open Sys2Proof Sys2Proof.Machine

/-! ## Helpers -/

/-- A buffer holding the given bytes from address `i` on. -/
def bufferOf (bs : List Byte) (i : Nat) : Memory :=
  match bs with
  | [] => []
  | b :: rest => if b = Memory.blank then bufferOf rest (i + 1) else (i, b) :: bufferOf rest (i + 1)

/-- A constructed cursor. -/
def cursor (big : Bool) (idx : Nat) (bs : List Byte) : Slot := ⟨true, bs.length, idx, big, bufferOf bs 0⟩

/-- Four slots, the first two as given, and four contexts, the first as given. -/
def machine (c0 c1 : Slot) (k0 : Context) : State :=
  { slots := [c0, c1, Slot.unbuilt, Slot.unbuilt]
    ctxs := [k0, Context.unbuilt, Context.unbuilt, Context.unbuilt]
    cap := 65536, cmds := [], resp := none }

/-- A machine with one cursor, in slot 0. -/
def one (big : Bool) (idx : Nat) (bs : List Byte) : State := machine (cursor big idx bs) Slot.unbuilt Context.unbuilt

/-- The context CNEW k0, 8, 3, s leaves. -/
def ctx8 : Context := ⟨true, 8, 3, true⟩

/-- The response a command gives. -/
def reply (r : Result) : Option Response :=
  match r with
  | .next t => t.resp
  | .fault _ | .refused _ => none

/-- The response, and the bytes, the index and the endianness of slot `x` after a command. -/
def after (x : Nat) (r : Result) : Option (Response × List Byte × Nat × Bool) :=
  match r with
  | .next t => t.resp.map fun p => (p, (List.range (t.slot x).len).map (Memory.read (t.slot x).buf), (t.slot x).idx,
      (t.slot x).big)
  | .fault _ | .refused _ => none

/-- The string a host sequence gives, and the index of slot `x` after it. -/
def got (x : Nat) (r : SubStep (List Char)) : Option (List Char × Nat) :=
  match r with
  | .done str t => some (str, (t.slot x).idx)
  | .raised _ _ => none

/-- A read command's result from index 0 of the given bytes, under Little and under Big; the buffer is unchanged and
the index advances by `n`. -/
abbrev Reads (i : Instr) (little big : List Byte) (v : Operand) (n : Nat) : Prop :=
  after 0 (exec i (one false 0 little)) = some (⟨.ok, v⟩, little, n, false) ∧
  after 0 (exec i (one true 0 big)) = some (⟨.ok, v⟩, big, n, true)

/-- The bytes a write command leaves in a fresh buffer, under Little and under Big; the index advances by `n`. -/
abbrev Writes (i : Instr) (little big : List Byte) (n : Nat) : Prop :=
  after 0 (exec i (one false 0 (List.replicate little.length 0))) = some (⟨.ok, 0⟩, little, n, false) ∧
  after 0 (exec i (one true 0 (List.replicate big.length 0))) = some (⟨.ok, 0⟩, big, n, true)

/-- The word decodes to the command. -/
abbrev Decodes (word : Word) (opa opb : Operand) (i : Instr) : Prop := decode ⟨word, opa, opb⟩ = .ok i

/-! ## Well-formedness: one ill-formed term for each field -/

theorem test_wf_slot_refused : ¬ (Instr.getidx 16).WellFormed := by decide
theorem test_wf_source_refused : ¬ (Instr.slice 0 16 0 0).WellFormed := by decide
theorem test_wf_count_refused : ¬ (Instr.rdb 0 64).WellFormed := by decide
theorem test_wf_context_refused : ¬ (Instr.enc 16 0).WellFormed := by decide
theorem test_wf_boundary : (Instr.wrbu 15 63 0).WellFormed ∧ (Instr.wrbs 15 15 0).WellFormed := by decide

/-! ## Decoding: the word of every command, written out from R71, R74 and R75

Slot 3 and, where there is one, source slot 5 and count 9, so that no two fields can be taken for each other; operand
bits outside the field a command uses are set and ignored (R74). -/

theorem test_decode_cursor :
    Decodes 0x00000301 0xF0F1F2F3F4F5F6F7E8E9EAEBECEDEEE1 0 (.new 3 0xE8E9EAEBECEDEEE1) ∧
    Decodes 0x00000302 0xF0F1F2F3F4F5F6F7E8E9EAEBECEDEEE1 0 (.setidx 3 0xE8E9EAEBECEDEEE1) ∧
    Decodes 0x00000303 0 0 (.getidx 3) ∧
    Decodes 0x00000304 0xF0F1F2F3F4F5F6F7E8E9EAEBECEDEEE1 0 (.setend 3 true) ∧
    Decodes 0x00000305 0 0 (.getend 3) ∧
    Decodes 0x00000306 0 0 (.bitsleft 3) ∧
    Decodes 0x00000307 0 0 (.getlen 3) ∧
    Decodes 0x00000308 0 0 (.align 3) ∧
    Decodes 0x00005309 0xF0F1F2F3F4F5F6F7E8E9EAEBECEDEEE1 0xF0F1F2F3F4F5F6F7E8E9EAEBECEDEEE1 (.slice 3 5 0xE8E9EAEBECEDEEE1 0xE8E9EAEBECEDEEE1) := by
  decide

theorem test_decode_raw :
    Decodes 0x00090310 0 0 (.rdb 3 9) ∧
    Decodes 0x00090311 0 0 (.rdbs 3 9) ∧
    Decodes 0x00090312 0xF0F1F2F3F4F5F6F7E8E9EAEBECEDEEE1 0 (.wrbu 3 9 0xECEDEEE1) ∧
    Decodes 0x00090313 0xF0F1F2F3F4F5F6F7E8E9EAEBECEDEEE1 0 (.wrb 3 9 0xECEDEEE1) ∧
    Decodes 0x00000314 0 0 (.rdbool 3) ∧
    Decodes 0x00000315 0xF0F1F2F3F4F5F6F7E8E9EAEBECEDEEE1 0 (.wrbool 3 true) := by
  decide

theorem test_decode_integer_reads :
    Decodes 0x00000320 0 0 (.rdu4 3) ∧
    Decodes 0x00000321 0 0 (.rdu8 3) ∧
    Decodes 0x00000322 0 0 (.rdu16 3) ∧
    Decodes 0x00000323 0 0 (.rdu32 3) ∧
    Decodes 0x00000324 0 0 (.rdu64 3) ∧
    Decodes 0x00000325 0 0 (.rdu128 3) ∧
    Decodes 0x00000328 0 0 (.rdi4 3) ∧
    Decodes 0x00000329 0 0 (.rdi8 3) ∧
    Decodes 0x0000032A 0 0 (.rdi16 3) ∧
    Decodes 0x0000032B 0 0 (.rdi32 3) ∧
    Decodes 0x0000032C 0 0 (.rdi64 3) ∧
    Decodes 0x0000032D 0 0 (.rdi128 3) := by
  decide

theorem test_decode_integer_writes :
    Decodes 0x00000330 0xF0F1F2F3F4F5F6F7E8E9EAEBECEDEEE1 0 (.wru4 3 0x1) ∧
    Decodes 0x00000331 0xF0F1F2F3F4F5F6F7E8E9EAEBECEDEEE1 0 (.wru8 3 0xE1) ∧
    Decodes 0x00000332 0xF0F1F2F3F4F5F6F7E8E9EAEBECEDEEE1 0 (.wru16 3 0xEEE1) ∧
    Decodes 0x00000333 0xF0F1F2F3F4F5F6F7E8E9EAEBECEDEEE1 0 (.wru32 3 0xECEDEEE1) ∧
    Decodes 0x00000334 0xF0F1F2F3F4F5F6F7E8E9EAEBECEDEEE1 0 (.wru64 3 0xE8E9EAEBECEDEEE1) ∧
    Decodes 0x00000335 0xF0F1F2F3F4F5F6F7E8E9EAEBECEDEEE1 0 (.wru128 3 0xF0F1F2F3F4F5F6F7E8E9EAEBECEDEEE1) ∧
    Decodes 0x00000338 0xF0F1F2F3F4F5F6F7E8E9EAEBECEDEEE1 0 (.wri4 3 0x1) ∧
    Decodes 0x00000339 0xF0F1F2F3F4F5F6F7E8E9EAEBECEDEEE1 0 (.wri8 3 0xE1) ∧
    Decodes 0x0000033A 0xF0F1F2F3F4F5F6F7E8E9EAEBECEDEEE1 0 (.wri16 3 0xEEE1) ∧
    Decodes 0x0000033B 0xF0F1F2F3F4F5F6F7E8E9EAEBECEDEEE1 0 (.wri32 3 0xECEDEEE1) ∧
    Decodes 0x0000033C 0xF0F1F2F3F4F5F6F7E8E9EAEBECEDEEE1 0 (.wri64 3 0xE8E9EAEBECEDEEE1) ∧
    Decodes 0x0000033D 0xF0F1F2F3F4F5F6F7E8E9EAEBECEDEEE1 0 (.wri128 3 0xF0F1F2F3F4F5F6F7E8E9EAEBECEDEEE1) := by
  decide

theorem test_decode_float_reads :
    Decodes 0x00000340 0 0 (.rdf8 3) ∧
    Decodes 0x00000341 0 0 (.rdf16 3) ∧
    Decodes 0x00000342 0 0 (.rdf32 3) ∧
    Decodes 0x00000343 0 0 (.rdf64 3) ∧
    Decodes 0x00000344 0 0 (.rduf8 3) ∧
    Decodes 0x00000345 0 0 (.rduf16 3) ∧
    Decodes 0x00000346 0 0 (.rduf32 3) ∧
    Decodes 0x00000347 0 0 (.rduf64 3) := by
  decide

theorem test_decode_float_writes :
    Decodes 0x00000348 0xF0F1F2F3F4F5F6F7E8E9EAEBECEDEEE1 0 (.wrf8 3 0xE8E9EAEBECEDEEE1) ∧
    Decodes 0x00000349 0xF0F1F2F3F4F5F6F7E8E9EAEBECEDEEE1 0 (.wrf16 3 0xE8E9EAEBECEDEEE1) ∧
    Decodes 0x0000034A 0xF0F1F2F3F4F5F6F7E8E9EAEBECEDEEE1 0 (.wrf32 3 0xE8E9EAEBECEDEEE1) ∧
    Decodes 0x0000034B 0xF0F1F2F3F4F5F6F7E8E9EAEBECEDEEE1 0 (.wrf64 3 0xE8E9EAEBECEDEEE1) ∧
    Decodes 0x0000034C 0xF0F1F2F3F4F5F6F7E8E9EAEBECEDEEE1 0 (.wruf8 3 0xE8E9EAEBECEDEEE1) ∧
    Decodes 0x0000034D 0xF0F1F2F3F4F5F6F7E8E9EAEBECEDEEE1 0 (.wruf16 3 0xE8E9EAEBECEDEEE1) ∧
    Decodes 0x0000034E 0xF0F1F2F3F4F5F6F7E8E9EAEBECEDEEE1 0 (.wruf32 3 0xE8E9EAEBECEDEEE1) ∧
    Decodes 0x0000034F 0xF0F1F2F3F4F5F6F7E8E9EAEBECEDEEE1 0 (.wruf64 3 0xE8E9EAEBECEDEEE1) := by
  decide

theorem test_decode_stream_codec :
    Decodes 0x00005350 0xF0F1F2F3F4F5F6F7E8E9EAEBECEDEEE1 0 (.wrbs 3 5 0xE8E9EAEBECEDEEE1) ∧
    Decodes 0x00000360 0xFFFFFFFFFFFFFFFFFFFFFFFFFFFF0508 0 (.cnew 3 8 5 true) ∧
    Decodes 0x00000361 0xF0F1F2F3F4F5F6F7E8E9EAEBECEDEEE1 0 (.enc 3 0xE8E9EAEBECEDEEE1) ∧
    Decodes 0x00000362 0xF0F1F2F3F4F5F6F7E8E9EAEBECEDEEE1 0 (.dec 3 0xF0F1F2F3F4F5F6F7E8E9EAEBECEDEEE1) := by
  decide

/-- R77 (a): opcodes without a row. -/
theorem test_decode_unknown_opcode :
    decode ⟨0x00, 0, 0⟩ = .error .unknownOpcode ∧
    decode ⟨0x0A, 0, 0⟩ = .error .unknownOpcode ∧
    decode ⟨0x16, 0, 0⟩ = .error .unknownOpcode ∧
    decode ⟨0x1F, 0, 0⟩ = .error .unknownOpcode ∧
    decode ⟨0x26, 0, 0⟩ = .error .unknownOpcode ∧
    decode ⟨0x27, 0, 0⟩ = .error .unknownOpcode ∧
    decode ⟨0x2E, 0, 0⟩ = .error .unknownOpcode ∧
    decode ⟨0x36, 0, 0⟩ = .error .unknownOpcode ∧
    decode ⟨0x3F, 0, 0⟩ = .error .unknownOpcode ∧
    decode ⟨0x51, 0, 0⟩ = .error .unknownOpcode ∧
    decode ⟨0x63, 0, 0⟩ = .error .unknownOpcode ∧
    decode ⟨0xFF, 0, 0⟩ = .error .unknownOpcode := by
  decide

/-- R77 (b): a bit outside the row's fields: a reserved bit, a source slot or a count where there is none. -/
theorem test_decode_reserved_bits :
    decode ⟨0x80000001, 0, 0⟩ = .error .reservedBits ∧
    decode ⟨0x00400010, 0, 0⟩ = .error .reservedBits ∧
    decode ⟨0x00001001, 0, 0⟩ = .error .reservedBits ∧
    decode ⟨0x00010003, 0, 0⟩ = .error .reservedBits ∧
    decode ⟨0x00001010, 0, 0⟩ = .error .reservedBits ∧
    decode ⟨0x00010009, 0, 0⟩ = .error .reservedBits ∧
    decode ⟨0x00001060, 0, 0⟩ = .error .reservedBits := by
  decide

/-- R76, last example, numbered as the opcode table numbers it, and an operand: RDF16 c3 and NEW c1, 2. -/
theorem test_table_word :
    decodeTableWord 32 0x00000341 = some (.rdf16 3) ∧ decodeTableWord 160 0x200000101 = some (.new 1 2) ∧
    decodeTableWord 32 0x00000000 = none := by
  decide

/-- The first step after reset runs the word presented (log 1): NEW c1, 2. -/
theorem test_first_step :
    after 1 (step (State.reset.withFetchWord 160 0x200000101)) = some (⟨.ok, 0⟩, [0, 0], 0, false) := by
  decide

/-- R77: an illegal word is answered with ERR_ILLEGAL. The idle step is log 1's. -/
theorem test_illegal :
    reply (step (State.reset.withFetchWord 32 0)) = some ⟨.illegal, 0⟩ := by
  decide
theorem test_idle : step State.reset = .next State.reset := rfl

/-! ## Cursor control: the examples of R100 to R108 -/

theorem test_new :
    after 0 (exec (.new 0 2) (one true 5 [1, 2, 3])) = some (⟨.ok, 0⟩, [0, 0], 0, false) := by decide
theorem test_new_capacity :
    reply (exec (.new 0 65537) State.reset) = some ⟨.capacity, 0⟩ ∧
    reply (exec (.new 0 65536) State.reset) = some ⟨.ok, 0⟩ ∧
    reply (exec (.new 4 1) State.reset) = some ⟨.slot, 0⟩ := by decide
theorem test_setidx :
    after 0 (exec (.setidx 0 15) (one false 3 [0, 7])) = some (⟨.ok, 0⟩, [0, 7], 15, false) ∧
    after 0 (exec (.setidx 0 16) (one false 3 [0, 7])) = some (⟨.index, 0⟩, [0, 7], 3, false) := by decide
theorem test_getidx : after 0 (exec (.getidx 0) (one false 5 [0, 0])) = some (⟨.ok, 5⟩, [0, 0], 5, false) := by decide
theorem test_setend :
    after 0 (exec (.setend 0 true) (one false 3 [9])) = some (⟨.ok, 0⟩, [9], 3, true) ∧
    after 0 (exec (.setend 0 false) (one true 3 [9])) = some (⟨.ok, 0⟩, [9], 3, false) := by decide
theorem test_getend :
    reply (exec (.getend 0) (one false 0 [0])) = some ⟨.ok, 0⟩ ∧
    reply (exec (.getend 0) (one true 0 [0])) = some ⟨.ok, 1⟩ := by decide
theorem test_bitsleft : reply (exec (.bitsleft 0) (one false 6 [0, 0])) = some ⟨.ok, 10⟩ := by decide
theorem test_getlen : reply (exec (.getlen 0) (one false 6 [0, 0])) = some ⟨.ok, 2⟩ := by decide
theorem test_align :
    after 0 (exec (.align 0) (one false 13 [1, 0xFF])) = some (⟨.ok, 0⟩, [1, 0xFF], 16, false) ∧
    after 0 (exec (.align 0) (one false 16 [1, 0xFF, 0])) = some (⟨.ok, 0⟩, [1, 0xFF, 0], 16, false) := by decide
/-- R108's example: c0 holds 11 22 33 44 under Big. -/
theorem test_slice :
    after 1 (exec (.slice 1 0 1 (-1)) (one true 7 [0x11, 0x22, 0x33, 0x44])) =
      some (⟨.ok, 0⟩, [0x22, 0x33], 0, true) ∧
    after 0 (exec (.slice 1 0 1 (-1)) (one true 7 [0x11, 0x22, 0x33, 0x44])) =
      some (⟨.ok, 0⟩, [0x11, 0x22, 0x33, 0x44], 7, true) := by decide
theorem test_slice_bounds :
    reply (exec (.slice 1 0 3 1) (one true 0 [0x11, 0x22, 0x33, 0x44])) = some ⟨.slice, 0⟩ ∧
    reply (exec (.slice 1 0 (-5) 4) (one true 0 [0x11, 0x22, 0x33, 0x44])) = some ⟨.slice, 0⟩ ∧
    reply (exec (.slice 1 0 0 5) (one true 0 [0x11, 0x22, 0x33, 0x44])) = some ⟨.slice, 0⟩ := by decide

/-! ## Raw bits: the examples of R122 to R125 -/

theorem test_rdb :
    after 0 (exec (.rdb 0 12) (one false 4 [0x12, 0x34, 0x56])) =
      some (⟨.ok, 0x341⟩, [0x12, 0x34, 0x56], 16, false) ∧
    after 0 (exec (.rdb 0 12) (one true 4 [0x12, 0x34, 0x56])) =
      some (⟨.ok, 0x234⟩, [0x12, 0x34, 0x56], 16, true) := by decide
/-- R304, R313: the width test comes first; R105: a failed read does not move the index. -/
theorem test_rdb_errors :
    reply (exec (.rdb 0 0) (one false 0 [0])) = some ⟨.width, 0⟩ ∧
    reply (exec (.rdb 0 40) (one false 0 [])) = some ⟨.width, 0⟩ ∧
    reply (exec (.rdb 9 40) (one false 0 [])) = some ⟨.slot, 0⟩ ∧
    after 0 (exec (.rdb 0 16) (one false 6 [0, 0])) = some (⟨.exhausted, 0⟩, [0, 0], 6, false) := by decide
theorem test_rdbs :
    reply (exec (.rdbs 0 4) (one false 0 [0x0F])) = some ⟨.ok, -1⟩ ∧
    reply (exec (.rdbs 0 4) (one false 0 [0x07])) = some ⟨.ok, 7⟩ ∧
    reply (exec (.rdbs 0 32) (one false 0 [0, 0, 0, 0x80])) = some ⟨.ok, -2147483648⟩ ∧
    reply (exec (.rdbs 0 1) (one false 0 [1])) = some ⟨.ok, -1⟩ := by decide
theorem test_wrbu :
    after 0 (exec (.wrbu 0 5 0x16) (one false 3 [0, 0])) = some (⟨.ok, 0⟩, [0xB0, 0], 8, false) ∧
    after 0 (exec (.wrbu 0 5 0x16) (one true 3 [0, 0])) = some (⟨.ok, 0⟩, [0x16, 0], 8, true) := by decide
/-- R124: the neighbours of an unaligned field keep their bits. -/
theorem test_wrbu_neighbours :
    after 0 (exec (.wrbu 0 12 0) (one false 6 [0xFF, 0xFF, 0xFF])) = some (⟨.ok, 0⟩, [0x3F, 0, 0xFC], 18, false) ∧
    after 0 (exec (.wrbu 0 12 0) (one true 6 [0xFF, 0xFF, 0xFF])) = some (⟨.ok, 0⟩, [0xFC, 0, 0x3F], 18, true) := by
  decide
theorem test_wrb :
    after 0 (exec (.wrb 0 4 (-1)) (one false 0 [0])) = some (⟨.ok, 0⟩, [0x0F], 4, false) ∧
    after 0 (exec (.wrb 0 8 (-128)) (one true 0 [0])) = some (⟨.ok, 0⟩, [0x80], 8, true) := by decide

/-! ## Booleans and integers: the examples of R143 to R168 -/

/-- R143: bits 0, 1, 2 of 05 under Little; bit 7 under Big. -/
theorem test_rdbool :
    reply (exec (.rdbool 0) (one false 0 [5])) = some ⟨.ok, 1⟩ ∧
    after 0 (exec (.rdbool 0) (one false 1 [5])) = some (⟨.ok, 0⟩, [5], 2, false) ∧
    reply (exec (.rdbool 0) (one true 0 [5])) = some ⟨.ok, 0⟩ := by decide
theorem test_wrbool : Writes (.wrbool 0 true) [0x01] [0x80] 1 := by decide
theorem test_rdu4 : Reads (.rdu4 0) [0x0B] [0xB0] 0xB 4 := by decide
theorem test_rdu8 : Reads (.rdu8 0) [0xA7] [0xA7] 0xA7 8 := by decide
theorem test_rdu16 : Reads (.rdu16 0) [0xCD, 0xAB] [0xAB, 0xCD] 0xABCD 16 := by decide
theorem test_rdu32 : Reads (.rdu32 0) [0xEF, 0xBE, 0xAD, 0xDE] [0xDE, 0xAD, 0xBE, 0xEF] 0xDEADBEEF 32 := by decide
theorem test_rdu64 : Reads (.rdu64 0) [0xEF, 0xCD, 0xAB, 0x89, 0x67, 0x45, 0x23, 0x01] [0x89, 0xAB, 0xCD, 0xEF, 0x01, 0x23, 0x45, 0x67] 0x0123456789ABCDEF 64 := by decide
theorem test_rdu128 : Reads (.rdu128 0) [0xFF, 0xEE, 0xDD, 0xCC, 0xBB, 0xAA, 0x99, 0x88, 0x77, 0x66, 0x55, 0x44, 0x33, 0x22, 0x11, 0] [0xCC, 0xDD, 0xEE, 0xFF, 0x88, 0x99, 0xAA, 0xBB, 0x44, 0x55, 0x66, 0x77, 0, 0x11, 0x22, 0x33] 0x00112233445566778899AABBCCDDEEFF 128 := by decide
theorem test_rdi4 : Reads (.rdi4 0) [0x0D] [0xD0] (-3) 4 := by decide
theorem test_rdi8 : Reads (.rdi8 0) [0x80] [0x80] (-128) 8 := by decide
theorem test_rdi16 : Reads (.rdi16 0) [0xFE, 0xFF] [0xFF, 0xFE] (-2) 16 := by decide
theorem test_rdi32 : Reads (.rdi32 0) [0xEF, 0xBE, 0xAD, 0xDE] [0xDE, 0xAD, 0xBE, 0xEF] (-559038737) 32 := by decide
theorem test_rdi64 : Reads (.rdi64 0) [0xFE, 0xFF, 0xFF, 0xFF, 0xFF, 0xFF, 0xFF, 0xFF] [0xFF, 0xFF, 0xFF, 0xFE, 0xFF, 0xFF, 0xFF, 0xFF] (-2) 64 := by decide
set_option maxRecDepth 4000 in
theorem test_rdi128 : Reads (.rdi128 0) [0, 0, 0, 0, 0, 0, 0, 0, 0, 0, 0, 0, 0, 0, 0, 0x80] [0, 0, 0, 0, 0, 0, 0, 0, 0, 0, 0, 0, 0x80, 0, 0, 0] (-170141183460469231731687303715884105728) 128 := by decide
theorem test_wru4 : Writes (.wru4 0 0xB) [0x0B] [0xB0] 4 := by decide
theorem test_wru8 : Writes (.wru8 0 0xA7) [0xA7] [0xA7] 8 := by decide
theorem test_wru16 : Writes (.wru16 0 0xABCD) [0xCD, 0xAB] [0xAB, 0xCD] 16 := by decide
theorem test_wru32 : Writes (.wru32 0 0xDEADBEEF) [0xEF, 0xBE, 0xAD, 0xDE] [0xDE, 0xAD, 0xBE, 0xEF] 32 := by decide
theorem test_wru64 : Writes (.wru64 0 0x0123456789ABCDEF) [0xEF, 0xCD, 0xAB, 0x89, 0x67, 0x45, 0x23, 0x01] [0x89, 0xAB, 0xCD, 0xEF, 0x01, 0x23, 0x45, 0x67] 64 := by decide
theorem test_wru128 : Writes (.wru128 0 0x00112233445566778899AABBCCDDEEFF) [0xFF, 0xEE, 0xDD, 0xCC, 0xBB, 0xAA, 0x99, 0x88, 0x77, 0x66, 0x55, 0x44, 0x33, 0x22, 0x11, 0] [0xCC, 0xDD, 0xEE, 0xFF, 0x88, 0x99, 0xAA, 0xBB, 0x44, 0x55, 0x66, 0x77, 0, 0x11, 0x22, 0x33] 128 := by decide
theorem test_wri4 : Writes (.wri4 0 (-3)) [0x0D] [0xD0] 4 := by decide
theorem test_wri8 : Writes (.wri8 0 (-128)) [0x80] [0x80] 8 := by decide
theorem test_wri16 : Writes (.wri16 0 (-2)) [0xFE, 0xFF] [0xFF, 0xFE] 16 := by decide
theorem test_wri32 : Writes (.wri32 0 (-559038737)) [0xEF, 0xBE, 0xAD, 0xDE] [0xDE, 0xAD, 0xBE, 0xEF] 32 := by decide
theorem test_wri64 : Writes (.wri64 0 (-2)) [0xFE, 0xFF, 0xFF, 0xFF, 0xFF, 0xFF, 0xFF, 0xFF] [0xFF, 0xFF, 0xFF, 0xFE, 0xFF, 0xFF, 0xFF, 0xFF] 64 := by decide
theorem test_wri128 : Writes (.wri128 0 (-170141183460469231731687303715884105728)) [0, 0, 0, 0, 0, 0, 0, 0, 0, 0, 0, 0, 0, 0, 0, 0x80] [0, 0, 0, 0, 0, 0, 0, 0, 0, 0, 0, 0, 0x80, 0, 0, 0] 128 := by decide
/-- R306 (b): with 40 bits left the low chunk is consumed and lost, and the low chunk is written and stays. -/
theorem test_wide_partial :
    after 0 (exec (.rdu64 0) (one false 0 [1, 2, 3, 4, 5])) = some (⟨.exhausted, 0⟩, [1, 2, 3, 4, 5], 32, false) ∧
    after 0 (exec (.wru64 0 0x0123456789ABCDEF) (one true 0 [0, 0, 0, 0, 0])) =
      some (⟨.exhausted, 0⟩, [0x89, 0xAB, 0xCD, 0xEF, 0], 32, true) := by decide

/-! ## Floats through the cursor: the examples of R223 to R238 -/

theorem test_rdf8 : Reads (.rdf8 0) [0x54] [0x54] 0x4014000000000000 8 := by decide
theorem test_rdf16 : Reads (.rdf16 0) [0, 0x3E] [0x3E, 0] 0x3FF8000000000000 16 := by decide
theorem test_rdf32 : Reads (.rdf32 0) [0xCD, 0xCC, 0xCC, 0x3D] [0x3D, 0xCC, 0xCC, 0xCD] 0x3FB99999A0000000 32 := by decide
theorem test_rdf64 : Reads (.rdf64 0) [0x9A, 0x99, 0x99, 0x99, 0x99, 0x99, 0xB9, 0x3F] [0x99, 0x99, 0x99, 0x9A, 0x3F, 0xB9, 0x99, 0x99] 0x3FB999999999999A 64 := by decide
theorem test_rduf8 : Reads (.rduf8 0) [0xA8] [0xA8] 0x4014000000000000 8 := by decide
theorem test_rduf16 : Reads (.rduf16 0) [0, 0x7C] [0x7C, 0] 0x3FF8000000000000 16 := by decide
theorem test_rduf32 : Reads (.rduf32 0) [0x99, 0x99, 0x99, 0x7B] [0x7B, 0x99, 0x99, 0x99] 0x3FB9999990000000 32 := by decide
theorem test_rduf64 : Reads (.rduf64 0) [0x34, 0x33, 0x33, 0x33, 0x33, 0x33, 0x73, 0x7F] [0x33, 0x33, 0x33, 0x34, 0x7F, 0x73, 0x33, 0x33] 0x3FB999999999999A 64 := by decide
theorem test_wrf8 : Writes (.wrf8 0 0x4014000000000000) [0x54] [0x54] 8 := by decide
theorem test_wrf16 : Writes (.wrf16 0 0x3FF8000000000000) [0, 0x3E] [0x3E, 0] 16 := by decide
theorem test_wrf32 : Writes (.wrf32 0 0x3FB999999999999A) [0xCD, 0xCC, 0xCC, 0x3D] [0x3D, 0xCC, 0xCC, 0xCD] 32 := by decide
theorem test_wrf64 : Writes (.wrf64 0 0x3FB999999999999A) [0x9A, 0x99, 0x99, 0x99, 0x99, 0x99, 0xB9, 0x3F] [0x99, 0x99, 0x99, 0x9A, 0x3F, 0xB9, 0x99, 0x99] 64 := by decide
theorem test_wruf8 : Writes (.wruf8 0 0xBFE0000000000000) [0x40] [0x40] 8 := by decide
theorem test_wruf16 : Writes (.wruf16 0 0x3FF8000000000000) [0, 0x7C] [0x7C, 0] 16 := by decide
theorem test_wruf32 : Writes (.wruf32 0 0x3FB999999999999A) [0x99, 0x99, 0x99, 0x7B] [0x7B, 0x99, 0x99, 0x99] 32 := by decide
theorem test_wruf64 : Writes (.wruf64 0 0x3FB999999999999A) [0x34, 0x33, 0x33, 0x33, 0x33, 0x33, 0x73, 0x7F] [0x33, 0x33, 0x33, 0x34, 0x7F, 0x73, 0x33, 0x33] 64 := by decide

/-! ## Codec: the examples of R190, R193, R194, R197, R200 to R202 and R231 to R238 -/

theorem test_cnew :
    reply (exec (.cnew 0 8 3 true) State.reset) = some ⟨.ok, 0⟩ ∧
    reply (exec (.cnew 0 129 8 true) State.reset) = some ⟨.config, 0⟩ ∧
    reply (exec (.cnew 0 8 8 false) State.reset) = some ⟨.config, 0⟩ ∧
    reply (exec (.cnew 0 8 0 false) State.reset) = some ⟨.config, 0⟩ ∧
    reply (exec (.cnew 4 8 3 true) State.reset) = some ⟨.ctx, 0⟩ := by decide
/-- ENC k0 of 5.0, 100.0, NaN, 1e-10 and 0.1, and on a context that was never constructed. -/
theorem test_enc :
    reply (exec (.enc 0 0x4014000000000000) (machine Slot.unbuilt Slot.unbuilt ctx8)) = some ⟨.ok, 0x54⟩ ∧
    reply (exec (.enc 0 0x4059000000000000) (machine Slot.unbuilt Slot.unbuilt ctx8)) = some ⟨.ok, 0x70⟩ ∧
    reply (exec (.enc 0 0x7FF8000000000000) (machine Slot.unbuilt Slot.unbuilt ctx8)) = some ⟨.ok, 0x71⟩ ∧
    reply (exec (.enc 0 0x3DDB7CDFD9D7BDBB) (machine Slot.unbuilt Slot.unbuilt ctx8)) = some ⟨.ok, 0x0⟩ ∧
    reply (exec (.enc 0 0x3FB999999999999A) (machine Slot.unbuilt Slot.unbuilt ctx8)) = some ⟨.ok, 0x6⟩ ∧
    reply (exec (.enc 1 0) (machine Slot.unbuilt Slot.unbuilt ctx8)) = some ⟨.ctx, 0⟩ := by
  decide
/-- DEC k0 of 0x54, 0x06, 0x80, 0x70, 0x7F and 0x154. -/
theorem test_dec :
    reply (exec (.dec 0 0x54) (machine Slot.unbuilt Slot.unbuilt ctx8)) = some ⟨.ok, 0x4014000000000000⟩ ∧
    reply (exec (.dec 0 0x6) (machine Slot.unbuilt Slot.unbuilt ctx8)) = some ⟨.ok, 0x3FB8000000000000⟩ ∧
    reply (exec (.dec 0 0x80) (machine Slot.unbuilt Slot.unbuilt ctx8)) = some ⟨.ok, 0x8000000000000000⟩ ∧
    reply (exec (.dec 0 0x70) (machine Slot.unbuilt Slot.unbuilt ctx8)) = some ⟨.ok, 0x7FF0000000000000⟩ ∧
    reply (exec (.dec 0 0x7F) (machine Slot.unbuilt Slot.unbuilt ctx8)) = some ⟨.ok, 0x7FF8000000000000⟩ ∧
    reply (exec (.dec 0 0x154) (machine Slot.unbuilt Slot.unbuilt ctx8)) = some ⟨.ok, 0x4014000000000000⟩ := by
  decide
/-- R193: 1.99 drops to the bottom of its binade, 3.96 rounds up to the next; R194: −0.5 unsigned, −1e−10, −0.0. -/
theorem test_encode_carry_and_signs :
    encodeFloat numerics presetF8S 0x3FFFD70A3D70A3D7 = 0x30 ∧
    encodeFloat numerics presetF8S 0x400FAE147AE147AE = 0x50 ∧
    encodeFloat numerics presetF8U 0xBFE0000000000000 = 0x40 ∧
    encodeFloat numerics presetF8S 0xBDDB7CDFD9D7BDBB = 0 ∧
    encodeFloat numerics presetF64S 0x8000000000000000 = 0 := by decide
/-- R197: (64,11,u) rounds to even, up to Infinity, and 2^−1075 to 0. -/
theorem test_decode_f64u :
    decodeFloat numerics presetF64U 0x7FE0000000000001 = 0x3FF0000000000000 ∧
    decodeFloat numerics presetF64U 0x7FE0000000000003 = 0x3FF0000000000002 ∧
    decodeFloat numerics presetF64U 0xFFDFFFFFFFFFFFFF = 0x7FF0000000000000 ∧
    decodeFloat numerics presetF64U 1 = 0 := by decide

/-! ## Nested stream: the examples of R250 -/

/-- (a): 36 bits, both Little; destination and source. -/
theorem test_wrbs :
    after 1 (exec (.wrbs 1 0 36) (machine (cursor false 4 [0x12, 0x34, 0x56, 0x78, 0x9A])
      (cursor false 3 [0, 0, 0, 0, 0, 0]) ctx8)) = some (⟨.ok, 0⟩, [0x08, 0x1A, 0x2B, 0x3C, 0x4D, 0], 39, false) ∧
    after 0 (exec (.wrbs 1 0 36) (machine (cursor false 4 [0x12, 0x34, 0x56, 0x78, 0x9A])
      (cursor true 3 [0, 0, 0, 0, 0, 0]) ctx8)) = some (⟨.ok, 0⟩, [0x12, 0x34, 0x56, 0x78, 0x9A], 40, false) ∧
    after 1 (exec (.wrbs 1 0 36) (machine (cursor false 4 [0x12, 0x34, 0x56, 0x78, 0x9A])
      (cursor true 3 [0, 0, 0, 0, 0, 0]) ctx8)) = some (⟨.ok, 0⟩, [0x14, 0xF0, 0xAC, 0x68, 0x32, 0], 39, true) := by
  decide
/-- (b): the second chunk is read and cannot be written. -/
theorem test_wrbs_lost_chunk :
    after 1 (exec (.wrbs 1 0 64) (machine (cursor false 0 [0x11, 0x22, 0x33, 0x44, 0x55, 0x66, 0x77, 0x88])
      (cursor false 0 [0, 0, 0, 0, 0]) ctx8)) = some (⟨.exhausted, 0⟩, [0x11, 0x22, 0x33, 0x44, 0], 32, false) ∧
    (after 0 (exec (.wrbs 1 0 64) (machine (cursor false 0 [0x11, 0x22, 0x33, 0x44, 0x55, 0x66, 0x77, 0x88])
      (cursor false 0 [0, 0, 0, 0, 0]) ctx8))).map (fun r => r.2.2.1) = some 64 := by
  decide

/-! ## Strings: the examples of R262 to R266 and R268 -/

theorem test_utf8_bytes :
    utf8 [Char.ofNat 0xE9] = [0xC3, 0xA9] ∧ utf8 [Char.ofNat 0x20AC] = [0xE2, 0x82, 0xAC] ∧
    utf8 [Char.ofNat 0x1F600] = [0xF0, 0x9F, 0x98, 0x80] ∧
    utf8Decode [0xF0, 0x9F, 0x98, 0x80] = some [Char.ofNat 0x1F600] ∧ utf8Decode [0xC3] = none := by decide
/-- R268: "A" written at bit 4 of a fresh 3-byte buffer under Big, and R263's read of "hi". -/
theorem test_ascii :
    ((writeAscii 0 ['A'] none (one true 4 [0, 0, 0])).state.slot 0).buf = [(0, 0x04), (1, 0x10)] ∧
    got 0 (readAscii 0 none (one false 0 [0x68, 0x69, 0, 0x41])) = some (['h', 'i'], 24) ∧
    got 0 (readAscii 0 (some 4) (one false 0 [0x68, 0x69, 0, 0x41])) = some (['h', 'i'], 32) := by decide

/-! ## Text: R79's forms, read and printed -/

/-- That `5` after `->` is the result 5, and `5.0` the binary64 pattern of 5, is log 15's choice. -/
theorem test_parse_line :
    parseLine "SLICE c1, c0, -5, 4 -> !ERR_SLICE" = some ⟨.slice 1 0 (-5) 4, some ⟨.slice, 0⟩⟩ ∧
    parseLine "RDI4 c0 -> -3" = some ⟨.rdi4 0, some ⟨.ok, -3⟩⟩ ∧
    parseLine "CNEW k0, 8, 3, s" = some ⟨.cnew 0 8 3 true, none⟩ ∧
    parseLine "RDF8 c0 -> 5" = some ⟨.rdf8 0, some ⟨.ok, 5⟩⟩ ∧
    parseLine "RDF8 c0 -> 5.0" = some ⟨.rdf8 0, some ⟨.ok, 0x4014000000000000⟩⟩ ∧
    parseLine "WRF8 c0, 0.1" = some ⟨.wrf8 0 0x3FB999999999999A, none⟩ ∧ parseLine "NEW k0, 2" = none := by
  decide +kernel
theorem test_print_line :
    parseLine (Instr.asm (.wrbu 2 5 0x16)) = some ⟨.wrbu 2 5 0x16, none⟩ ∧ Instr.asm (.rdf16 3) = "RDF16 c3" := by
  decide +kernel

/-! ## Witnesses: the hypotheses of every obligation are met, at the boundaries of its clauses -/

/-- Slot 0: four bytes, Little, `IDX` = 5 (27 bits left). Slot 1: eight bytes, Big, `IDX` = 1 (63 bits left). Context 0:
(8,3,signed). -/
def m2 : State := machine (cursor false 5 [0x11, 0x22, 0x33, 0x44]) (cursor true 1 [1, 2, 3, 4, 5, 6, 7, 8]) ctx8

/-- The machine with packets presented. -/
def m2With (ps : List Packet) : State := m2.present ps

theorem witness_DecodeOfEncodeIsTheCommand : (Instr.rdbs 15 63).WellFormed := by decide
theorem witness_EncodeOfDecodeKeepsTheWord : Decodes 0x003F0F11 0 0 (.rdbs 15 63) := by decide
theorem witness_IllegalWordsAreThoseOfRuleR77 :
    (m2With [⟨0, 0, 0⟩]).cmds = ⟨0, 0, 0⟩ :: [] ∧ decode ⟨0, 0, 0⟩ = .error .unknownOpcode ∧
    decode ⟨0x80000001, 0, 0⟩ = .error .reservedBits ∧ decode ⟨0x00000F03, 0, 0⟩ = .ok (.getidx 15) ∧
    reply (step (m2With [⟨0x00000F03, 0, 0⟩])) = some ⟨.slot, 0⟩ := by decide
theorem witness_StepRunsTheDecodedCommand :
    (m2With [⟨0x00000103, 0, 0⟩]).cmds = ⟨0x00000103, 0, 0⟩ :: [] ∧ decode ⟨0x00000103, 0, 0⟩ = .ok (.getidx 1) := by
  decide
theorem witness_EveryStepAnswersANextState : (m2With [⟨0, 0, 0⟩]).cmds ≠ [] ∧ m2.cmds = [] := by decide
theorem witness_ErrorResponsesObeyTheTables :
    ∃ t, exec (.rdb 0 33) m2 = .next t ∧ t.resp = some ⟨.width, 0⟩ ∧ Status.width ≠ .ok := ⟨_, rfl, rfl, by decide⟩
theorem witness_ResetConstructsNothing :
    (⟨2, 1, 0⟩ : Config).InRange ∧ (⟨16, 16, 2 ^ 32 - 1⟩ : Config).InRange ∧ Config.suggested.InRange := by decide
theorem witness_EveryStepKeepsTheInvariant :
    (m2With [⟨0x00200112, 7, 0⟩]).Inv ∧ ∃ t, step (m2With [⟨0x00200112, 7, 0⟩]) = .next t :=
  ⟨by decide, _, rfl⟩
theorem witness_RegistersFitTheirWidths : m2.Inv ∧ 0 < m2.cap ∧ (m2.slot 1).valid = true := by decide
theorem witness_CommandsChangeOnlyWhatTheyName :
    (∃ t, exec (.slice 2 0 0 4) m2 = .next t) ∧ (Instr.slice 2 0 0 4).namesSlot 1 = false ∧
    (∃ t, exec (.cnew 1 128 127 true) m2 = .next t) ∧ (Instr.cnew 1 128 127 true).configures = true ∧
    0 ≠ (Instr.cnew 1 128 127 true).primary ∧ (Instr.slice 2 0 0 4).configures = false :=
  ⟨⟨_, rfl⟩, by decide, ⟨_, rfl⟩, by decide, by decide, by decide⟩
theorem witness_RegistersAreWrittenOnlyByTheirCommands :
    (∃ t, exec (.setend 0 true) m2 = .next t) ∧ (Instr.setend 0 true).constructs = false ∧
    1 ≠ (Instr.setend 0 true).primary ∧ (∃ t, exec (.align 0) m2 = .next t) ∧
    (Instr.align 0).constructs = false ∧ (Instr.align 0).setsEndianness = false ∧
    (Instr.align 0).configures = false :=
  ⟨⟨_, rfl⟩, by decide, by decide, ⟨_, rfl⟩, by decide, by decide, by decide⟩
theorem witness_ReadsLeaveTheBuffers :
    (∃ t, exec (.rdu16 0) m2 = .next t) ∧ (Instr.rdu16 0).leavesBuffers = true ∧
    (∃ t, exec (.slice 0 1 0 8) m2 = .next t) ∧ (∃ t, exec (.wrbs 0 1 8) m2 = .next t) ∧ 0 ≠ 1 :=
  ⟨⟨_, rfl⟩, by decide, ⟨_, rfl⟩, ⟨_, rfl⟩, by decide⟩

/-- Two machines that differ only in a slot and a context nothing has constructed, and in the last response. -/
theorem witness_UnconstructedContentsAreUnobservable :
    (machine (cursor true 3 [7]) Slot.unbuilt Context.unbuilt).SameToHost
      ((machine (cursor true 3 [7]) ⟨false, 9, 99, true, [(0, 5)]⟩ ⟨false, 1, 2, true⟩).withResp (some ⟨.ok, 4⟩)) ∧
    machine (cursor true 3 [7]) Slot.unbuilt Context.unbuilt ≠
      machine (cursor true 3 [7]) ⟨false, 9, 99, true, [(0, 5)]⟩ ⟨false, 1, 2, true⟩ := by
  refine ⟨⟨rfl, rfl, rfl, rfl, fun x => ?_, fun j => ?_⟩, by decide⟩
  · match x with
    | 0 => decide
    | 1 => decide
    | 2 => decide
    | 3 => decide
    | n + 4 => exact ⟨rfl, fun _ => rfl⟩
  · match j with
    | 0 => decide
    | 1 => decide
    | 2 => decide
    | 3 => decide
    | n + 4 => exact ⟨rfl, fun _ => rfl⟩
theorem witness_FailureAtomicCommandsChangeNothing :
    (Instr.rdb 0 28).composite = false ∧
    ∃ t, exec (.rdb 0 28) m2 = .next t ∧ t.resp = some ⟨.exhausted, 0⟩ ∧ Status.exhausted ≠ .ok :=
  ⟨by decide, _, rfl, rfl, by decide⟩
theorem witness_SlotErrorsChangeNothing :
    ((Instr.new 4 0).isCodec = false ∧ m2.nslot ≤ (Instr.new 4 0).primary) ∧
    ((Instr.wrbs 0 4 0).hasSource = true ∧ m2.nslot ≤ (Instr.wrbs 0 4 0).secondary) ∧
    ((Instr.rdf8 3).isCodec = false ∧ (Instr.rdf8 3).constructs = false ∧ (m2.slot (Instr.rdf8 3).primary).valid = false) ∧
    ((Instr.slice 0 3 0 0).hasSource = true ∧ (m2.slot (Instr.slice 0 3 0 0).secondary).valid = false) ∧
    ((Instr.slice 1 1 0 0).hasSource = true ∧ (Instr.slice 1 1 0 0).primary = (Instr.slice 1 1 0 0).secondary) := by
  decide
theorem witness_ContextErrorsChangeNothing :
    ((Instr.cnew 4 8 3 true).isCodec = true ∧ m2.nctx ≤ (Instr.cnew 4 8 3 true).primary) ∧
    ((Instr.dec 3 0).isCodec = true ∧ (Instr.dec 3 0).configures = false ∧
      (m2.ctx (Instr.dec 3 0).primary).valid = false) ∧
    ((Instr.wrf8 0 0).isCodec = false ∧ reply (exec (.wrf8 0 0) m2) = some ⟨.ok, 0⟩) := by decide
theorem witness_RawAccessErrorsChangeNothing :
    slotOk 0 m2 = true ∧ (32 < 33) ∧ (1 ≤ 28 ∧ 28 ≤ 32 ∧ (m2.slot 0).bitsLeft < 28) ∧
    (1 ≤ 32 ∧ 32 ≤ 32 ∧ (m2.slot 0).bitsLeft < 32) := by decide
theorem witness_WideReadsConsumeTheChunksThatFit :
    slotOk 1 m2 = true ∧ (m2.slot 1).bitsLeft = 63 ∧ (m2.slot 1).bitsLeft < 64 ∧ (m2.slot 0).bitsLeft < 64 := by decide
theorem witness_WideWritesKeepTheChunksThatFit :
    slotOk 1 m2 = true ∧ Memory.wf (m2.slot 1).buf ∧ (m2.slot 1).bitsLeft < 64 ∧ (m2.slot 1).bitsLeft < 128 := by decide
theorem witness_NewConstructsAZeroedCursor :
    m2.nslot ≤ 4 ∧ 3 < m2.nslot ∧ m2.cap < (65537 : BitVec 64).toNat ∧ (65536 : BitVec 64).toNat ≤ m2.cap := by decide
theorem witness_SetidxMovesTheIndexOrFails :
    slotOk 2 m2 = false ∧ slotOk 0 m2 = true ∧ 8 * (m2.slot 0).len ≤ (32 : BitVec 64).toNat ∧
    (31 : BitVec 64).toNat < 8 * (m2.slot 0).len := by decide
theorem witness_AccessorsReportTheRegisters :
    slotOk 4 m2 = false ∧ slotOk 0 (one true 8 [9]) = true ∧
    ((one true 8 [9]).slot 0).idx ≤ 8 * ((one true 8 [9]).slot 0).len := by decide
theorem witness_SetendSetsOnlyTheFlag : slotOk 2 m2 = false ∧ slotOk 1 m2 = true := by decide
theorem witness_AlignMovesToTheNextByte :
    slotOk 2 m2 = false ∧ slotOk 0 m2 = true ∧ (m2.slot 0).idx ≤ 8 * (m2.slot 0).len := by decide
/-- Start −4 normalises to 0 and end 4 is LEN; end 5 is beyond it. -/
theorem witness_SliceCopiesTheByteRange :
    2 < m2.nslot ∧ slotOk 0 m2 = true ∧ 2 ≠ 0 ∧ Memory.wf (m2.slot 0).buf ∧
    (0 : Int) = (if (-4 : BitVec 64).toInt < 0 then (-4 : BitVec 64).toInt + (m2.slot 0).len else (-4 : BitVec 64).toInt) ∧
    (4 : Int) = (if (4 : BitVec 64).toInt < 0 then (4 : BitVec 64).toInt + (m2.slot 0).len else (4 : BitVec 64).toInt) ∧
    ((0 : Int) ≤ 0 ∧ (0 : Int) ≤ 4 ∧ (4 : Int) ≤ (m2.slot 0).len) ∧
    (5 : Int) = (if (5 : BitVec 64).toInt < 0 then (5 : BitVec 64).toInt + (m2.slot 0).len else (5 : BitVec 64).toInt) ∧
    ¬((0 : Int) ≤ 0 ∧ (0 : Int) ≤ 5 ∧ (5 : Int) ≤ (m2.slot 0).len) := by decide
theorem witness_RawReadTakesTheAddressedBits : 31 < 32 ∧ 0 < 32 := by decide
theorem witness_RawWriteChangesExactlyTheAddressedBits :
    Memory.wf (m2.slot 0).buf ∧ 11 < 12 ∧ 5 < 6 ∧ 6 + 12 ≤ 18 := by decide
theorem witness_RawRoundTrip :
    slotOk 0 m2 = true ∧ Memory.wf (m2.slot 0).buf ∧ (0 : BitVec 64).toNat + 32 ≤ 8 * (m2.slot 0).len ∧
    (0xFFFFFFFF : BitVec 32).toNat < 2 ^ 32 ∧ (31 : BitVec 64).toNat + 1 ≤ 8 * (m2.slot 0).len ∧
    (1 : BitVec 32).toNat < 2 ^ 1 := by decide
theorem witness_ConsecutiveRawAccessesCompose :
    Memory.wf (m2.slot 0).buf ∧ 1 ≤ 5 ∧ 1 ≤ 27 ∧ 5 + 27 ≤ 32 ∧ 31 < 2 ^ 5 ∧ 0x5A5A5A < 2 ^ 27 := by decide
theorem witness_RawReadCommandsReturnTheirBits :
    slotOk 1 m2 = true ∧ 1 ≤ 32 ∧ 32 ≤ 32 ∧ 32 ≤ (m2.slot 1).bitsLeft ∧ slotOk 0 m2 = true ∧
    27 ≤ (m2.slot 0).bitsLeft := by decide
theorem witness_RawWriteCommandsStoreTheirBits :
    slotOk 0 m2 = true ∧ Memory.wf (m2.slot 0).buf ∧ 1 ≤ 27 ∧ 27 ≤ 32 ∧ 27 ≤ (m2.slot 0).bitsLeft := by decide
theorem witness_NarrowReadCommandsReturnTheirBits :
    slotOk 0 (one true 8 [9]) = true ∧ ((one true 8 [9]).slot 0).bitsLeft < 1 ∧ slotOk 0 (one true 0 [9]) = true ∧
    8 ≤ ((one true 0 [9]).slot 0).bitsLeft ∧ ((one true 0 [9]).slot 0).bitsLeft < 16 ∧
    32 ≤ (m2.slot 1).bitsLeft := by decide
theorem witness_WideReadCommandsReturnTheirBits :
    slotOk 0 (one true 0 (List.replicate 16 3)) = true ∧
    128 ≤ ((one true 0 (List.replicate 16 3)).slot 0).bitsLeft := by decide
theorem witness_NarrowWriteCommandsStoreTheirBits :
    slotOk 0 (one true 0 [9]) = true ∧ Memory.wf ((one true 0 [9]).slot 0).buf ∧
    8 ≤ ((one true 0 [9]).slot 0).bitsLeft ∧ ((one true 0 [9]).slot 0).bitsLeft < 16 := by decide
theorem witness_WideWriteCommandsStoreTheirBits :
    slotOk 0 (one true 0 (List.replicate 16 3)) = true ∧
    Memory.wf ((one true 0 (List.replicate 16 3)).slot 0).buf ∧
    128 ≤ ((one true 0 (List.replicate 16 3)).slot 0).bitsLeft := by decide
theorem witness_FloatReadCommandsDecodeTheirBits :
    slotOk 0 (one false 0 (List.replicate 8 3)) = true ∧
    presetF64U.bits ≤ ((one false 0 (List.replicate 8 3)).slot 0).bitsLeft := by decide
theorem witness_FloatWriteCommandsStoreTheirPattern :
    slotOk 0 (one false 0 (List.replicate 8 3)) = true ∧ Memory.wf ((one false 0 (List.replicate 8 3)).slot 0).buf ∧
    presetF64U.bits ≤ ((one false 0 (List.replicate 8 3)).slot 0).bitsLeft := by decide
/-- A carry out of an even and of an odd exponent field, and none. -/
theorem witness_MantissaRoundsAtTwoThirdsAndItsCarryIsOred :
    5 < 2 ^ 3 ∧ (128 = 2 ^ (3 + 4) ∧ 4 < 2 ^ 3 ∧ 15 < 2 ^ 4 ∧ 4 % 2 = 0 ∧ 4 + 1 < 2 ^ 3 ∧ 3 < 2 ^ 3 ∧ 3 % 2 = 1) := by
  decide
theorem witness_EncodedPatternFitsItsWidth :
    (⟨2, 1, true⟩ : CodecCfg).Valid ∧ (⟨2, 1, false⟩ : CodecCfg).Valid ∧ (⟨128, 127, true⟩ : CodecCfg).Valid := by
  decide
/-- 2^−7 is below F8S's `min_value` 2^−6. -/
theorem witness_EncodeDropsSignsAsRuleR194Says :
    presetF8S.Valid ∧ presetF8U.signed = false ∧ isNan 0xFFF8000000000000 = true ∧
    isFinite 0xBF80000000000000 = true ∧ (f64Mag 0xBF80000000000000).value < (codecMinValue presetF8S).value :=
  ⟨by decide, by decide, by decide, by decide, (Mag.lt_iff _ _).1 (by decide)⟩
/-- −Infinity, and −16.0, above F8S's `max_value` 15.5. -/
theorem witness_EncodeOverflowsToInfinity :
    presetF8S.Valid ∧ isInf 0xFFF0000000000000 = true ∧ isFinite 0xC030000000000000 = true ∧
    (codecMinValue presetF8S).value ≤ (f64Mag 0xC030000000000000).value ∧
    (codecMaxValue presetF8S).value < (f64Mag 0xC030000000000000).value ∧ presetF8S ≠ presetF32S :=
  ⟨by decide, by decide, by decide, (Mag.value_le_iff _ _).2 (by decide), (Mag.lt_iff _ _).1 (by decide), by decide⟩
/-- A power of two as a magnitude. -/
theorem value_pow (e : Int) : (⟨1, e⟩ : Mag).value = (2 : ℚ) ^ e := by simp [Mag.value]

/-- A lower bound on a finite operand's magnitude, by evaluation. -/
theorem pow_le_value {e : Int} {x : F64} (h : Mag.lt (f64Mag x) ⟨1, e⟩ = false) : (2 : ℚ) ^ e ≤ (f64Mag x).value :=
  value_pow e ▸ (Mag.value_le_iff _ _).2 h

/-- An upper bound on a finite operand's magnitude, by evaluation. -/
theorem value_lt_pow {e : Int} {x : F64} (h : Mag.lt (f64Mag x) ⟨1, e⟩ = true) : (f64Mag x).value < (2 : ℚ) ^ e :=
  value_pow e ▸ (Mag.lt_iff _ _).1 h

/-- A normal operand (1.99 in F8S, where the mantissa carries) and a subnormal one (2^−20 in F16S, for which
2^(1 − bias) is 2^−14). -/
theorem witness_EncodeFollowsTheGeneralPath :
    (∃ (e : Int) (f : ℚ) (field : Nat), presetF8S.Valid ∧ isFinite 0x3FFFD70A3D70A3D7 = true ∧
      (presetF8S = presetF32S → (f64Mag 0x3FFFD70A3D70A3D7).value < (2 : ℚ) ^ (-126 : Int)) ∧
      (codecMinValue presetF8S).value ≤ (f64Mag 0x3FFFD70A3D70A3D7).value ∧
      (f64Mag 0x3FFFD70A3D70A3D7).value ≤ (codecMaxValue presetF8S).value ∧
      if (f64Mag 0x3FFFD70A3D70A3D7).value < (2 : ℚ) ^ (1 - (presetF8S.bias : Int)) then
        field = 0 ∧ f = (f64Mag 0x3FFFD70A3D70A3D7).value / 2 ^ (1 - (presetF8S.bias : Int))
      else (2 : ℚ) ^ e ≤ (f64Mag 0x3FFFD70A3D70A3D7).value ∧ (f64Mag 0x3FFFD70A3D70A3D7).value < 2 ^ (e + 1) ∧
        (field : Int) = e + presetF8S.bias ∧ f = (f64Mag 0x3FFFD70A3D70A3D7).value / 2 ^ e - 1) ∧
    (presetF16S.Valid ∧ isFinite 0x3EB0000000000000 = true ∧ presetF16S ≠ presetF32S ∧
      (codecMinValue presetF16S).value ≤ (f64Mag 0x3EB0000000000000).value ∧
      (f64Mag 0x3EB0000000000000).value ≤ (codecMaxValue presetF16S).value ∧
      (f64Mag 0x3EB0000000000000).value < (2 : ℚ) ^ (1 - (presetF16S.bias : Int))) := by
  refine ⟨⟨0, (f64Mag 0x3FFFD70A3D70A3D7).value / 2 ^ (0 : Int) - 1, 3, by decide, by decide, fun h => absurd h (by decide), (Mag.value_le_iff _ _).2 (by decide),
    (Mag.value_le_iff _ _).2 (by decide), ?_⟩, by decide, by decide, by decide, (Mag.value_le_iff _ _).2 (by decide),
    (Mag.value_le_iff _ _).2 (by decide), value_lt_pow (by decide)⟩
  rw [if_neg (not_lt.2 (pow_le_value (by decide)))]
  exact ⟨pow_le_value (by decide), value_lt_pow (by decide), by decide, rfl⟩
/-- 0.1 in F8S; 1.0 in F8S, whose mantissa field is 0 without a carry; 1.0 with no mantissa bit at all; and 2^−140 in
(32,8,signed), below the fast path. -/
theorem witness_EncodedValueIsWithinTwoThirdsOfAUnit :
    (∀ x ∈ ([0x3FB999999999999A, 0x3FF0000000000000] : List F64), presetF8S.Valid ∧ isFinite x = true ∧
      presetF8S ≠ presetF32S ∧ (codecMinValue presetF8S).value ≤ (f64Mag x).value ∧
      (f64Mag x).value ≤ (codecMaxValue presetF8S).value ∧
      roundedMantissa (mantissaFraction presetF8S (f64Mag x)) presetF8S.mantissaWidth < 2 ^ presetF8S.mantissaWidth) ∧
    patternMantissa presetF8S (encodeFloat numerics presetF8S 0x3FF0000000000000) = 0 ∧
    ((⟨12, 11, true⟩ : CodecCfg).Valid ∧ (⟨12, 11, true⟩ : CodecCfg).mantissaWidth = 0 ∧
      (codecMinValue ⟨12, 11, true⟩).value ≤ (f64Mag 0x3FF0000000000000).value ∧
      (f64Mag 0x3FF0000000000000).value ≤ (codecMaxValue ⟨12, 11, true⟩).value ∧
      roundedMantissa (mantissaFraction ⟨12, 11, true⟩ (f64Mag 0x3FF0000000000000)) 0 < 2 ^ 0) ∧
    ((f64Mag 0x3730000000000000).value < (2 : ℚ) ^ (-126 : Int) ∧
      (codecMinValue presetF32S).value ≤ (f64Mag 0x3730000000000000).value ∧
      roundedMantissa (mantissaFraction presetF32S (f64Mag 0x3730000000000000)) presetF32S.mantissaWidth <
        2 ^ presetF32S.mantissaWidth) := by
  refine ⟨fun x hx => ?_, by decide, ⟨by decide, by decide, (Mag.value_le_iff _ _).2 (by decide),
    (Mag.value_le_iff _ _).2 (by decide), by decide +kernel⟩, value_lt_pow (by decide), (Mag.value_le_iff _ _).2 (by decide),
    by decide +kernel⟩
  rcases List.mem_pair.1 hx with rfl | rfl
  · exact ⟨by decide, by decide, by decide, (Mag.value_le_iff _ _).2 (by decide), (Mag.value_le_iff _ _).2 (by decide),
      by decide +kernel⟩
  · exact ⟨by decide, by decide, by decide, (Mag.value_le_iff _ _).2 (by decide), (Mag.value_le_iff _ _).2 (by decide),
      by decide +kernel⟩
/-- 0.1, below the overflow bound; 2^128 − 2^103, at it. -/
theorem witness_FastPathPicksTheNearestBinary32 :
    (isFinite 0x3FB999999999999A = true ∧ (2 : ℚ) ^ (-126 : Int) ≤ (f64Mag 0x3FB999999999999A).value ∧
      (f64Mag 0x3FB999999999999A).value < 2 ^ 128 - 2 ^ 103 ∧
      patternExp presetF32S 0x3DCCCCCC ≠ 255 ∧ 0x3DCCCCCC ≠ encodeFloat numerics presetF32S 0x3FB999999999999A) ∧
    (isFinite 0x47EFFFFFF0000000 = true ∧ (2 : ℚ) ^ (-126 : Int) ≤ (f64Mag 0x47EFFFFFF0000000).value ∧
      2 ^ 128 - 2 ^ 103 ≤ (f64Mag 0x47EFFFFFF0000000).value) := by
  refine ⟨⟨by decide, pow_le_value (by decide), ?_, by decide, by decide⟩, by decide, pow_le_value (by decide), ?_⟩
  · have h : (f64Mag 0x3FB999999999999A).value < (2 : ℚ) ^ (0 : Int) := value_lt_pow (by decide)
    norm_num at h ⊢
    linarith
  · have h : (f64Mag 0x47EFFFFFF0000000) = ⟨2 ^ 52 + 0xFFFFFF0000000, 75⟩ := by decide
    rw [h]
    norm_num [Mag.value]
theorem witness_Binary64IsReproduced :
    isNan 0x8000000000000001 = false ∧ (0x8000000000000001 : F64) ≠ 0x8000000000000000 ∧
    isNan 0x8000000000000000 = false := by decide
theorem witness_DecodeIsExact :
    presetF64S.Valid ∧ presetF64S.ebits ≤ 11 ∧ presetF64S.mantissaWidth ≤ 52 ∧
    patternExp presetF64S 0x8000000000000001 ≠ presetF64S.specialExp := by decide
/-- 1.0, and (64,11,u)'s largest finite pattern, exactly at the bound 2^1024 − 2^970. -/
theorem witness_DecodeRoundsToTheNearestBinary64 :
    presetF64U.Valid ∧
    (patternExp presetF64U 0x7FE0000000000000 ≠ presetF64U.specialExp ∧
      |patternValue presetF64U 0x7FE0000000000000| < 2 ^ 1024 - 2 ^ 970 ∧ isFinite 0x3FF0000000000000 = true ∧
      (0x3FF0000000000000 : F64) ≠ decodeFloat numerics presetF64U 0x7FE0000000000002) ∧
    (patternExp presetF64U 0xFFDFFFFFFFFFFFFF ≠ presetF64U.specialExp ∧
      2 ^ 1024 - 2 ^ 970 ≤ |patternValue presetF64U 0xFFDFFFFFFFFFFFFF|) := by
  have h1 : patternMantissa presetF64U 0x7FE0000000000000 = 0 ∧ patternExp presetF64U 0x7FE0000000000000 = 1023 ∧
      patternSign presetF64U 0x7FE0000000000000 = false := by decide
  have h2 : patternMantissa presetF64U 0xFFDFFFFFFFFFFFFF = 2 ^ 53 - 1 ∧
      patternExp presetF64U 0xFFDFFFFFFFFFFFFF = 2046 ∧ patternSign presetF64U 0xFFDFFFFFFFFFFFFF = false := by decide
  have h3 : presetF64U.mantissaWidth = 53 ∧ presetF64U.bias = 1023 := by decide
  have h4 : (2 : ℚ) ^ 1024 = 2 ^ 54 * 2 ^ 970 := by rw [← pow_add]
  have h5 : (1 : ℚ) ≤ 2 ^ 970 := one_le_pow₀ (by norm_num)
  refine ⟨by decide, ⟨by decide, ?_, by decide, by decide⟩, by decide, ?_⟩
  · simp only [patternValue, h1.1, h1.2.1, h1.2.2, h3.1, h3.2, h4]
    generalize (2 : ℚ) ^ 970 = y at *
    norm_num
    nlinarith only [h5]
  · simp only [patternValue, h2.1, h2.2.1, h2.2.2, h3.1, h3.2, h4]
    norm_num
    generalize (2 : ℚ) ^ 970 = y at *
    linarith
theorem witness_DecodeOfSpecialPatternsAndHighBits :
    presetF8S.Valid ∧ (patternExp presetF8S 0xF0 = presetF8S.specialExp ∧ patternMantissa presetF8S 0xF0 = 0) ∧
    (patternExp presetF8S 0x171 = presetF8S.specialExp ∧ patternMantissa presetF8S 0x171 ≠ 0) := by decide
/-- 1.0 is representable in F8S and F8U; 0x80 is F8S's −0.0. -/
theorem witness_CodecRoundTrip :
    presetF8S.Valid ∧ presetF8S.ebits ≤ 11 ∧ presetF8S.mantissaWidth ≤ 52 ∧ presetF8S.signed = true ∧
    (patternIsNan presetF8S 0x81 = false ∧ ¬(presetF8S.signed = true ∧ 0x81 % 2 ^ presetF8S.bits = presetF8S.signMask)) ∧
    patternIsNan presetF8S 0x7F = true ∧ isFinite 0x3FF0000000000000 = true ∧
    (∃ p, patternExp presetF8S p ≠ presetF8S.specialExp ∧ patternValue presetF8S p = f64Value 0x3FF0000000000000) ∧
    presetF8U.signed = false ∧
    ∃ p, patternExp presetF8U p ≠ presetF8U.specialExp ∧ patternValue presetF8U p = |f64Value 0x3FF0000000000000| := by
  have hx : f64Mag 0x3FF0000000000000 = ⟨2 ^ 52, -52⟩ ∧ f64Sign 0x3FF0000000000000 = false := by decide
  have h1 : patternMantissa presetF8S 0x30 = 0 ∧ patternExp presetF8S 0x30 = 3 ∧ patternSign presetF8S 0x30 = false ∧
      presetF8S.mantissaWidth = 4 ∧ presetF8S.bias = 3 := by decide
  have h2 : patternMantissa presetF8U 0x60 = 0 ∧ patternExp presetF8U 0x60 = 3 ∧ patternSign presetF8U 0x60 = false ∧
      presetF8U.mantissaWidth = 5 ∧ presetF8U.bias = 3 := by decide
  refine ⟨by decide, by decide, by decide, by decide, by decide, by decide, by decide, ⟨0x30, by decide, ?_⟩, by decide,
    0x60, by decide, ?_⟩
  · simp only [patternValue, f64Value, h1, hx, Mag.value]
    norm_num
  · simp only [patternValue, f64Value, h2, hx, Mag.value]
    norm_num
theorem witness_CnewReplacesTheConfiguration :
    m2.nctx ≤ 4 ∧ 3 < m2.nctx ∧
    (1 ≤ (1 : BitVec 8).toNat ∧ (1 : BitVec 8).toNat < (2 : BitVec 8).toNat ∧ (2 : BitVec 8).toNat ≤ 128) ∧
    (1 ≤ (127 : BitVec 8).toNat ∧ (127 : BitVec 8).toNat < (128 : BitVec 8).toNat ∧ (128 : BitVec 8).toNat ≤ 128) ∧
    ¬(1 ≤ (8 : BitVec 8).toNat ∧ (8 : BitVec 8).toNat < (129 : BitVec 8).toNat ∧ (129 : BitVec 8).toNat ≤ 128) ∧
    ¬(1 ≤ (8 : BitVec 8).toNat ∧ (8 : BitVec 8).toNat < (8 : BitVec 8).toNat ∧ (8 : BitVec 8).toNat ≤ 128) := by decide
theorem witness_EncAndDecAnswerTheCodec : ctxOk 0 m2 = true := by decide
/-- R250's example (a), both Big: slot 0 holds 5 bytes at `IDX` 4, slot 1 is fresh with 6 bytes at `IDX` 3. -/
def copyState : State := machine (cursor true 4 [0x12, 0x34, 0x56, 0x78, 0x9A]) (cursor true 3 [0, 0, 0, 0, 0, 0]) ctx8

/-- 36 bits: all that slot 0 has left, in a chunk of 32 and one of 4. Bit 3 of the second chunk, and the bits either side of
the copy. -/
theorem witness_WrbsCopiesEveryBit :
    slotOk 1 copyState = true ∧ slotOk 0 copyState = true ∧ 1 ≠ 0 ∧ Memory.wf (copyState.slot 1).buf ∧
    (36 : BitVec 64).toNat ≤ (copyState.slot 1).bitsLeft ∧ (36 : BitVec 64).toNat ≤ (copyState.slot 0).bitsLeft ∧
    32 * 1 < (36 : BitVec 64).toNat ∧ 4 = min 32 ((36 : BitVec 64).toNat - 32 * 1) ∧ 3 < 4 ∧
    2 < (copyState.slot 1).idx ∧ (copyState.slot 1).idx + 36 ≤ 39 ∧
    (copyState.slot 1).big = (copyState.slot 0).big := by decide
/-- R250's example (b): slot 0 holds 8 bytes, slot 1 is fresh with 5. -/
def lossState : State :=
  machine (cursor false 0 [0x11, 0x22, 0x33, 0x44, 0x55, 0x66, 0x77, 0x88]) (cursor false 0 [0, 0, 0, 0, 0]) ctx8

/-- The first chunk: 28 bits, one more than slot 0 of `m2` has left, as a source and as a destination. The second chunk:
64 bits, of which slot 0 of `copyState` has 36 left as a source; and R250's example (b), 64 bits from a slot with 64 left
into one with 40. -/
theorem witness_WrbsLosesTheChunkThatDoesNotFit :
    (slotOk 1 m2 = true ∧ slotOk 0 m2 = true ∧ 1 ≠ 0 ∧ 1 ≤ (28 : BitVec 64).toNat ∧
      (m2.slot 0).bitsLeft < min 32 (28 : BitVec 64).toNat ∧ min 32 (28 : BitVec 64).toNat ≤ (m2.slot 1).bitsLeft) ∧
    (Memory.wf (copyState.slot 1).buf ∧ 32 * 1 < (64 : BitVec 64).toNat ∧ 32 = min 32 ((64 : BitVec 64).toNat - 32 * 1) ∧
      32 * 1 ≤ (copyState.slot 0).bitsLeft ∧ 32 * 1 ≤ (copyState.slot 1).bitsLeft ∧
      (copyState.slot 0).bitsLeft < 32 * 1 + 32) ∧
    (slotOk 1 lossState = true ∧ slotOk 0 lossState = true ∧ Memory.wf (lossState.slot 1).buf ∧
      32 * 1 + 32 ≤ (lossState.slot 0).bitsLeft ∧ 32 * 1 ≤ (lossState.slot 1).bitsLeft ∧
      (lossState.slot 1).bitsLeft < 32 * 1 + 32) := by decide
theorem witness_WrbsEqualsTheHostsCommands : slotOk 1 m2 = true ∧ slotOk 0 m2 = true ∧ 1 ≠ 0 := by decide
theorem witness_StringBytesAreThoseOfTheEncodings :
    (∃ c ∈ ['h', Char.ofNat 0xE9], 0x7F < c.toNat) ∧ (∀ c ∈ ['h', Char.ofNat 0x7F], c.toNat ≤ 0x7F) :=
  ⟨⟨Char.ofNat 0xE9, by decide, by decide⟩, by simp⟩
/-- "hi" in a field of exactly two bytes, and with a terminator; "é" in UTF-8. -/
theorem witness_StringRoundTrip :
    slotOk 1 m2 = true ∧ Memory.wf (m2.slot 1).buf ∧ (∀ c ∈ ['h', 'i'], c.toNat ≠ 0) ∧ allAscii ['h', 'i'] = true ∧
    (∀ k ∈ some 2, ['h', 'i'].length ≤ k) ∧ (∃ t, writeAscii 1 ['h', 'i'] (some 2) m2 = .done () t) ∧
    (∃ t, writeAscii 1 ['h', 'i'] none m2 = .done () t) ∧ (∀ k ∈ some 2, (utf8 [Char.ofNat 0xE9]).length ≤ k) ∧
    ∃ t, writeUtf8 1 [Char.ofNat 0xE9] (some 2) m2 = .done () t :=
  ⟨by decide, by decide, by simp, by decide, by decide, ⟨_, rfl⟩, ⟨_, rfl⟩, by decide, _, rfl⟩

end Sys2Proof.Tests
end

/-! # Scope of the machine: what a command can do to the state

Every command is a chain of elementary edits followed by a response. The invariant, the frame and the totality of `step`
are each proved once for an edit and carried along the chain. -/

namespace Sys2Proof.Machine

/-! ## The shapes of the commands -/

/-- The ways `exec` runs a command: the accessors, the reads and writes of one or several chunks, ENC and DEC are one
shape each, and the commands with a meaning of their own stand for themselves. -/
inductive Shape : Instr → Prop
  | accessor {i : Instr} (x : Nat) (f : Slot → Operand)
      (run : ∀ s, exec i s = withSlot x s (respond (f (s.slot x)) s)) : Shape i
  | narrowRead {i : Instr} (n : Nat) (f : Nat → Operand) (slotted : i.isCodec = false)
      (run : ∀ s, exec i s = readCommand i.primary (readBits i.primary n) f s) : Shape i
  | wideRead {i : Instr} (w : Nat) (f : Nat → Operand) (slotted : i.isCodec = false)
      (run : ∀ s, exec i s = readCommand i.primary (readWide i.primary w) f s) : Shape i
  | narrowWrite {i : Instr} (v n : Nat) (slotted : i.isCodec = false) (writes : i.leavesBuffers = false)
      (run : ∀ s, exec i s = writeCommand i.primary (writeBits i.primary v n) s) : Shape i
  | wideWrite {i : Instr} (v w : Nat) (slotted : i.isCodec = false) (writes : i.leavesBuffers = false)
      (run : ∀ s, exec i s = writeCommand i.primary (writeWide i.primary v w) s) : Shape i
  | codec {i : Instr} (j : Nat) (f : Context → Operand)
      (run : ∀ s, exec i s = if ctxOk j s then respond (f (s.ctx j)) s else raise .ctx s) : Shape i
  | new (x : Nat) (len : BitVec 64) : Shape (.new x len)
  | setidx (x : Nat) (bits : BitVec 64) : Shape (.setidx x bits)
  | setend (x : Nat) (big : Bool) : Shape (.setend x big)
  | align (x : Nat) : Shape (.align x)
  | slice (d t : Nat) (start stop : BitVec 64) : Shape (.slice d t start stop)
  | wrbs (d t : Nat) (nbits : BitVec 64) : Shape (.wrbs d t nbits)
  | cnew (j : Nat) (bits ebits : BitVec 8) (signed : Bool) : Shape (.cnew j bits ebits signed)

/-- Every command has one of the shapes. -/
theorem shape (i : Instr) : Shape i := by
  cases i with
  | new x len => exact .new x len
  | setidx x bits => exact .setidx x bits
  | getidx x => exact .accessor x (fun c => zext128 c.idx) fun _ => rfl
  | setend x big => exact .setend x big
  | getend x => exact .accessor x (fun c => zext128 (bigCode c.big)) fun _ => rfl
  | bitsleft x => exact .accessor x (fun c => zext128 c.bitsLeft) fun _ => rfl
  | getlen x => exact .accessor x (fun c => zext128 c.len) fun _ => rfl
  | align x => exact .align x
  | slice d t start stop => exact .slice d t start stop
  | rdb x n => exact .narrowRead n zext128 rfl fun _ => rfl
  | rdbs x n => exact .narrowRead n _ rfl fun _ => rfl
  | wrbu x n value => exact .narrowWrite value.toNat n rfl rfl fun _ => rfl
  | wrb x n value => exact .narrowWrite value.toNat n rfl rfl fun _ => rfl
  | rdbool x => exact .narrowRead 1 zext128 rfl fun _ => rfl
  | wrbool x b => exact .narrowWrite _ 1 rfl rfl fun _ => rfl
  | rdu4 x => exact .narrowRead 4 zext128 rfl fun _ => rfl
  | rdu8 x => exact .narrowRead 8 zext128 rfl fun _ => rfl
  | rdu16 x => exact .narrowRead 16 zext128 rfl fun _ => rfl
  | rdu32 x => exact .narrowRead 32 zext128 rfl fun _ => rfl
  | rdu64 x => exact .wideRead 64 zext128 rfl fun _ => rfl
  | rdu128 x => exact .wideRead 128 zext128 rfl fun _ => rfl
  | rdi4 x => exact .narrowRead 4 (sext128 · 4) rfl fun _ => rfl
  | rdi8 x => exact .narrowRead 8 (sext128 · 8) rfl fun _ => rfl
  | rdi16 x => exact .narrowRead 16 (sext128 · 16) rfl fun _ => rfl
  | rdi32 x => exact .narrowRead 32 (sext128 · 32) rfl fun _ => rfl
  | rdi64 x => exact .wideRead 64 (sext128 · 64) rfl fun _ => rfl
  | rdi128 x => exact .wideRead 128 (sext128 · 128) rfl fun _ => rfl
  | wru4 x value => exact .narrowWrite _ 4 rfl rfl fun _ => rfl
  | wru8 x value => exact .narrowWrite _ 8 rfl rfl fun _ => rfl
  | wru16 x value => exact .narrowWrite _ 16 rfl rfl fun _ => rfl
  | wru32 x value => exact .narrowWrite _ 32 rfl rfl fun _ => rfl
  | wru64 x value => exact .wideWrite value.toNat 64 rfl rfl fun _ => rfl
  | wru128 x value => exact .wideWrite value.toNat 128 rfl rfl fun _ => rfl
  | wri4 x value => exact .narrowWrite _ 4 rfl rfl fun _ => rfl
  | wri8 x value => exact .narrowWrite _ 8 rfl rfl fun _ => rfl
  | wri16 x value => exact .narrowWrite _ 16 rfl rfl fun _ => rfl
  | wri32 x value => exact .narrowWrite _ 32 rfl rfl fun _ => rfl
  | wri64 x value => exact .wideWrite value.toNat 64 rfl rfl fun _ => rfl
  | wri128 x value => exact .wideWrite value.toNat 128 rfl rfl fun _ => rfl
  | rdf8 x => exact .narrowRead 8 (floatResult presetF8S) rfl fun _ => rfl
  | rdf16 x => exact .narrowRead 16 (floatResult presetF16S) rfl fun _ => rfl
  | rdf32 x => exact .narrowRead 32 (floatResult presetF32S) rfl fun _ => rfl
  | rdf64 x => exact .wideRead 64 (floatResult presetF64S) rfl fun _ => rfl
  | rduf8 x => exact .narrowRead 8 (floatResult presetF8U) rfl fun _ => rfl
  | rduf16 x => exact .narrowRead 16 (floatResult presetF16U) rfl fun _ => rfl
  | rduf32 x => exact .narrowRead 32 (floatResult presetF32U) rfl fun _ => rfl
  | rduf64 x => exact .wideRead 64 (floatResult presetF64U) rfl fun _ => rfl
  | wrf8 x v => exact .narrowWrite _ 8 rfl rfl fun _ => rfl
  | wrf16 x v => exact .narrowWrite _ 16 rfl rfl fun _ => rfl
  | wrf32 x v => exact .narrowWrite _ 32 rfl rfl fun _ => rfl
  | wrf64 x v => exact .wideWrite (encodeFloat numerics presetF64S v) 64 rfl rfl fun _ => rfl
  | wruf8 x v => exact .narrowWrite _ 8 rfl rfl fun _ => rfl
  | wruf16 x v => exact .narrowWrite _ 16 rfl rfl fun _ => rfl
  | wruf32 x v => exact .narrowWrite _ 32 rfl rfl fun _ => rfl
  | wruf64 x v => exact .wideWrite (encodeFloat numerics presetF64U v) 64 rfl rfl fun _ => rfl
  | wrbs d t nbits => exact .wrbs d t nbits
  | cnew j bits ebits signed => exact .cnew j bits ebits signed
  | enc j x => exact .codec j (fun k => zext128 (encodeFloat numerics k.cfg x)) fun _ => rfl
  | dec j p => exact .codec j (fun k => f64Result (decodeFloat numerics k.cfg p.toNat)) fun _ => rfl

/-! ## Elementary edits -/

/-- One elementary change of the banks that the command `i` may make: the registers it writes and the condition it has
checked by then. -/
inductive Edit (i : Instr) (s : State) : State → Prop
  /-- `IDX` of a named slot moves, not past the end (R26). -/
  | move {x idx : Nat} (named : i.namesSlot x = true)
      (fits : (s.slot x).idx ≤ 8 * (s.slot x).len → idx ≤ 8 * (s.slot x).len) :
      Edit i s (s.setSlot x { s.slot x with idx := idx })
  /-- SETEND sets `BIG` (R27). -/
  | orient {x : Nat} {big : Bool} (named : i.namesSlot x = true) (dest : x = i.primary)
      (sets : i.setsEndianness = true) : Edit i s (s.setSlot x { s.slot x with big := big })
  /-- A raw write that passed its bounds check (R120, R121). -/
  | store {x v n : Nat} (named : i.namesSlot x = true) (dest : x = i.primary) (writes : i.leavesBuffers = false)
      (fits : check (s.slot x) n = none) :
      Edit i s (s.setSlot x { s.slot x with
        buf := memWrite (s.slot x).buf (s.slot x).big (s.slot x).idx n v
        idx := (s.slot x).idx + n })
  /-- NEW constructs a zeroed cursor within CAP (R100). -/
  | create {x len : Nat} (named : i.namesSlot x = true) (dest : x = i.primary) (constructs : i.constructs = true)
      (fits : len ≤ s.cap) :
      Edit i s (s.setSlot x { valid := true, len := len, idx := 0, big := false, buf := [] })
  /-- SLICE constructs a cursor from bytes of another, constructed one (R108). -/
  | excerpt {d t a b : Nat} (named : i.namesSlot d = true) (dest : d = i.primary) (constructs : i.constructs = true)
      (built : (s.slot t).valid = true) (fits : b ≤ (s.slot t).len) :
      Edit i s (s.setSlot d { valid := true, len := b - a, idx := 0, big := (s.slot t).big
                              buf := Memory.slice (s.slot t).buf a b })
  /-- CNEW stores a valid configuration (R200). -/
  | configure {j : Nat} {k : Context} (dest : j = i.primary) (configures : i.configures = true) (ok : k.cfg.Valid) :
      Edit i s (s.setCtx j k)

/-- What a command may do to the banks: a chain of its edits. -/
abbrev Effect (i : Instr) : State → State → Prop := Relation.ReflTransGen (Edit i)

/-- The outcome is a next state with a response, reached from `s` by edits of the command. -/
def Answers (i : Instr) (s : State) (out : Result) : Prop :=
  ∃ t r, out = .next (t.withResp (some r)) ∧ Effect i s t

/-- A command that is not the codec's names its primary slot (R71). -/
theorem namesSlot_primary {i : Instr} (h : i.isCodec = false) : i.namesSlot i.primary = true := by
  simp [Instr.namesSlot, h]

/-! ## The edits of the sub-steps -/

section
variable {i : Instr} {s : State}

/-- Sub-steps in a row make the edits of both. -/
theorem effect_andThen {α β : Type} {r : SubStep α} {f : α → State → SubStep β} (hr : Effect i s r.state)
    (hf : ∀ v t, Effect i t (f v t).state) : Effect i s (r.andThen f).state := by
  cases r with
  | done v t => exact hr.trans (hf v t)
  | raised e t => exact hr

theorem readBits_effect {x : Nat} (hx : i.namesSlot x = true) (n : Nat) (s : State) :
    Effect i s (readBits x n s).state := by
  rcases readBits_eq x n s with ⟨hc, e⟩ | ⟨_, -, e⟩ <;> rw [e]
  · obtain ⟨h1, -, hn⟩ := check_none.1 hc
    refine .single (.move hx fun _ => ?_)
    unfold Slot.bitsLeft at hn
    omega
  · exact .refl

theorem readChunks_effect {x : Nat} (hx : i.namesSlot x = true) (k j v : Nat) (s : State) :
    Effect i s (readChunks x k j v s).state := by
  induction k generalizing j v s with
  | zero => exact .refl
  | succ k ih => exact effect_andThen (readBits_effect hx 32 s) fun _ t => ih _ _ t

theorem writeBits_effect (hc : i.isCodec = false) (hw : i.leavesBuffers = false) (v n : Nat) (s : State) :
    Effect i s (writeBits i.primary v n s).state := by
  rcases writeBits_eq i.primary v n s with ⟨hn, e⟩ | ⟨_, -, e⟩ <;> rw [e]
  · exact .single (.store (namesSlot_primary hc) rfl hw hn)
  · exact .refl

theorem writeChunks_effect (hc : i.isCodec = false) (hw : i.leavesBuffers = false) (v k j : Nat) (s : State) :
    Effect i s (writeChunks i.primary v k j s).state := by
  induction k generalizing j s with
  | zero => exact .refl
  | succ k ih => exact effect_andThen (writeBits_effect hc hw _ 32 s) fun _ t => ih _ t

/-- The copy loop of WRBS reads its source and writes its destination (R250). -/
theorem copyLoop_effect (d t : Nat) (nbits : BitVec 64) (fuel rem : Nat) (s : State) :
    Effect (.wrbs d t nbits) s (copyLoop d t fuel rem s).state := by
  have ht : (Instr.wrbs d t nbits).namesSlot t = true := by
    simp [Instr.namesSlot, Instr.isCodec, Instr.hasSource, Instr.secondary]
  induction fuel generalizing rem s with
  | zero => exact .refl
  | succ fuel ih =>
    by_cases h0 : rem = 0
    · rw [h0, copyLoop_zero]
      exact .refl
    · rw [copyLoop_chunk s h0]
      have hchunk : Effect (.wrbs d t nbits) s (copyChunk d t (min 32 rem) s).state :=
        effect_andThen (readBits_effect ht _ s) fun _ t => writeBits_effect rfl rfl _ _ t
      exact effect_andThen hchunk fun _ t => ih _ t

/-! ## The edits of the commands -/

/-- A response after edits is an answer. -/
theorem answers_respond {t : State} (h : Effect i s t) (v : Operand) : Answers i s (respond v t) :=
  ⟨t, _, respond_eq v t, h⟩

/-- An error without edits is an answer. -/
theorem answers_raise (e : Status) : Answers i s (raise e s) := ⟨s, _, raise_eq e s, .refl⟩

/-- The end of a command's sub-steps is an answer. -/
theorem answers_answer {α : Type} {r : SubStep α} (h : Effect i s r.state) (f : α → Operand) :
    Answers i s (r.answer f) := by
  cases r with
  | done v t => exact ⟨t, _, rfl, h⟩
  | raised e t => exact ⟨t, _, rfl, h⟩

/-- `slotcheck` answers when the body does on a constructed slot. -/
theorem answers_withSlot {x : Nat} {body : Result} (h : slotOk x s = true → Answers i s body) :
    Answers i s (withSlot x s body) := by
  cases hx : slotOk x s with
  | true =>
    rw [withSlot_ok hx]
    exact h hx
  | false =>
    rw [withSlot_bad hx]
    exact ⟨s, _, rfl, .refl⟩

end

theorem execNew_answers (x : Nat) (len : BitVec 64) (s : State) : Answers (.new x len) s (execNew x len s) := by
  unfold execNew
  split
  · exact answers_raise _
  · split
    · exact answers_raise _
    · next hl => exact answers_respond (.single (.create (namesSlot_primary rfl) rfl rfl (by omega))) _

theorem execSetidx_answers (x : Nat) (bits : BitVec 64) (s : State) :
    Answers (.setidx x bits) s (execSetidx x bits s) := by
  refine answers_withSlot fun _ => ?_
  split
  · exact answers_raise _
  · next hl =>
    have hmove : Edit (.setidx x bits) s (s.setSlot x { s.slot x with idx := bits.toNat }) :=
      .move (namesSlot_primary rfl) fun _ => (Nat.lt_of_not_ge hl).le
    exact answers_respond (.single hmove) _

theorem execSetend_answers (x : Nat) (big : Bool) (s : State) : Answers (.setend x big) s (execSetend x big s) :=
  answers_withSlot fun _ => answers_respond (.single (.orient (namesSlot_primary rfl) rfl rfl)) _

/-- The end of a buffer is a whole byte, so aligning does not pass it (R107). -/
theorem alignedIndex_le {idx len : Nat} (h : idx ≤ 8 * len) : alignedIndex idx ≤ 8 * len := by
  unfold alignedIndex
  omega

theorem execAlign_answers (x : Nat) (s : State) : Answers (.align x) s (execAlign x s) :=
  answers_withSlot fun _ => answers_respond (.single (.move (namesSlot_primary rfl) alignedIndex_le)) _

theorem execSlice_answers (d t : Nat) (start stop : BitVec 64) (s : State) :
    Answers (.slice d t start stop) s (execSlice d t start stop s) := by
  unfold execSlice
  split
  · exact answers_raise _
  · refine answers_withSlot fun ht => ?_
    split
    · exact answers_raise _
    · dsimp only
      split
      · exact answers_raise _
      · next hb =>
        exact answers_respond (.single (.excerpt (namesSlot_primary rfl) rfl rfl (slotOk_iff.1 ht).2 (by omega))) _

theorem execWrbs_answers (d t : Nat) (nbits : BitVec 64) (s : State) :
    Answers (.wrbs d t nbits) s (execWrbs d t nbits s) := by
  refine answers_withSlot fun _ => answers_withSlot fun _ => ?_
  split
  · exact answers_raise _
  · exact answers_answer (copyLoop_effect ..) _

/-- CNEW's test rejects exactly the invalid configurations (R180, R200). -/
theorem badConfig_eq_false {bits ebits : Nat} (signed : Bool) :
    badConfig bits ebits = false ↔ CodecCfg.Valid ⟨bits, ebits, signed⟩ := by
  simp only [badConfig, CodecCfg.Valid, Bool.or_eq_false_iff, decide_eq_false_iff_not]
  omega

theorem execCnew_answers (j : Nat) (bits ebits : BitVec 8) (signed : Bool) (s : State) :
    Answers (.cnew j bits ebits signed) s (execCnew j bits ebits signed s) := by
  unfold execCnew
  split
  · exact answers_raise _
  · split
    · exact answers_raise _
    · next hb =>
      have hok : (Context.cfg ⟨true, bits, ebits, signed⟩).Valid :=
        (badConfig_eq_false signed).1 (Bool.eq_false_iff.2 hb)
      exact answers_respond (.single (.configure rfl rfl hok)) _

/-- Every command ends in a response, after edits it may make. -/
theorem exec_answers (i : Instr) (s : State) : Answers i s (exec i s) := by
  cases shape i with
  | accessor x f run =>
    rw [run]
    exact answers_withSlot fun _ => answers_respond .refl _
  | narrowRead n f slotted run =>
    rw [run]
    exact answers_withSlot fun _ => answers_answer (readBits_effect (namesSlot_primary slotted) n s) f
  | wideRead w f slotted run =>
    rw [run]
    exact answers_withSlot fun _ => answers_answer (readChunks_effect (namesSlot_primary slotted) _ _ _ s) f
  | narrowWrite v n slotted writes run =>
    rw [run]
    exact answers_withSlot fun _ => answers_answer (writeBits_effect slotted writes v n s) _
  | wideWrite v w slotted writes run =>
    rw [run]
    exact answers_withSlot fun _ => answers_answer (writeChunks_effect slotted writes v _ _ s) _
  | codec j f run =>
    rw [run]
    split
    · exact answers_respond .refl _
    · exact answers_raise _
  | new x len => exact execNew_answers x len s
  | setidx x bits => exact execSetidx_answers x bits s
  | setend x big => exact execSetend_answers x big s
  | align x => exact execAlign_answers x s
  | slice d t start stop => exact execSlice_answers d t start stop s
  | wrbs d t nbits => exact execWrbs_answers d t nbits s
  | cnew j bits ebits signed => exact execCnew_answers j bits ebits signed s

/-- A next state of a command is edits of the state and a response. -/
theorem exec_effect {i : Instr} {s t : State} (h : exec i s = .next t) :
    ∃ t' r, t = t'.withResp (some r) ∧ Effect i s t' := by
  obtain ⟨t', r, e, he⟩ := exec_answers i s
  exact ⟨t', r, Host.Outcome.next.inj (h.symm.trans e), he⟩

/-! ## The cases of a step -/

/-- Without a packet the unit waits. -/
theorem step_idle {s : State} (h : s.cmds = []) : step s = .next (s.withResp none) := by
  simp only [step, h, idle, State.withResp]

/-- An illegal word is refused. -/
theorem step_illegal {s : State} {p : Packet} {rest : List Packet} {e : Illegal} (h : s.cmds = p :: rest)
    (hd : decode p = .error e) : step s = .next (s.takeCommand.withResp (some ⟨.illegal, 0⟩)) := by
  simp only [step, h, hd, illegalWord, raise_eq]

/-- A legal word's command is run. -/
theorem step_command {s : State} {p : Packet} {rest : List Packet} {i : Instr} (h : s.cmds = p :: rest)
    (hd : decode p = .ok i) : step s = exec i s.takeCommand := by
  simp only [step, h, hd]

/-- Everything a step can do: wait, refuse an illegal word, or run the command. -/
theorem step_cases (s : State) :
    (s.cmds = [] ∧ step s = .next (s.withResp none)) ∨
    (∃ p rest e, s.cmds = p :: rest ∧ decode p = .error e ∧
      step s = .next (s.takeCommand.withResp (some ⟨.illegal, 0⟩))) ∨
    ∃ p rest i, s.cmds = p :: rest ∧ decode p = .ok i ∧ step s = exec i s.takeCommand := by
  cases hc : s.cmds with
  | nil => exact .inl ⟨rfl, step_idle hc⟩
  | cons p rest =>
    cases hd : decode p with
    | error e => exact .inr (.inl ⟨p, rest, e, rfl, hd, step_illegal hc hd⟩)
    | ok i => exact .inr (.inr ⟨p, rest, i, rfl, hd, step_command hc hd⟩)

/-! ## The invariant along edits -/

/-- An empty slot meets the invariant. -/
theorem unbuilt_inv (cap : Nat) : Slot.Inv cap Slot.unbuilt := ⟨wf_nil, fun h => by cases h⟩

theorem State.Inv.slot {s : State} (h : s.Inv) (x : Nat) : Slot.Inv s.cap (s.slot x) := by
  obtain ⟨-, hs, -⟩ := h
  rcases Nat.lt_or_ge x s.nslot with hx | hx
  · exact hs _ (slot_mem hx)
  · rw [slot_out hx]
    exact unbuilt_inv _

/-- Setting a slot to one that meets the invariant keeps the machine's. -/
theorem State.Inv.setSlot {s : State} (h : s.Inv) (x : Nat) {c : Slot} (hc : Slot.Inv s.cap c) :
    (s.setSlot x c).Inv := by
  obtain ⟨hcfg, hs, hk⟩ := h
  refine ⟨?_, fun d hd => ?_, hk⟩
  · simpa [State.config] using hcfg
  · rcases List.mem_or_eq_of_mem_set hd with hd | rfl
    · exact hs d hd
    · exact hc

/-- Setting a context to one that meets the invariant keeps the machine's. -/
theorem State.Inv.setCtx {s : State} (h : s.Inv) (j : Nat) {k : Context} (hk : Context.Inv k) : (s.setCtx j k).Inv := by
  obtain ⟨hcfg, hs, hks⟩ := h
  refine ⟨?_, hs, fun d hd => ?_⟩
  · simpa [State.config] using hcfg
  · rcases List.mem_or_eq_of_mem_set hd with hd | rfl
    · exact hks d hd
    · exact hk

/-- A raw write that passes its bounds check keeps the slot's invariant. -/
theorem store_inv {cap : Nat} {c : Slot} (h : Slot.Inv cap c) {n : Nat} (hn : check c n = none) (v : Nat) :
    Slot.Inv cap { c with buf := memWrite c.buf c.big c.idx n v, idx := c.idx + n } := by
  obtain ⟨hwf, hv⟩ := h
  obtain ⟨h1, -, hl⟩ := check_none.1 hn
  have hend : c.idx + n ≤ 8 * c.len := by
    unfold Slot.bitsLeft at hl
    omega
  refine ⟨memWrite_wf hwf .., fun hc => ?_⟩
  obtain ⟨hcap, -, hbelow⟩ := hv hc
  exact ⟨hcap, hend, memWrite_below hbelow _ _ _ _ hend⟩

/-- An excerpt of a constructed slot meets the invariant. -/
theorem excerpt_inv {cap : Nat} {c : Slot} (h : Slot.Inv cap c) (hc : c.valid = true) {a b : Nat} (hb : b ≤ c.len) :
    Slot.Inv cap { valid := true, len := b - a, idx := 0, big := c.big, buf := Memory.slice c.buf a b } := by
  obtain ⟨hwf, hv⟩ := h
  obtain ⟨hcap, -, -⟩ := hv hc
  refine ⟨slice_wf hwf a b, fun _ => ⟨?_, Nat.zero_le _, slice_below _ _ _⟩⟩
  show b - a ≤ cap
  omega

/-- One edit keeps the invariant. -/
theorem Edit.inv {i : Instr} {s t : State} (e : Edit i s t) (h : s.Inv) : t.Inv := by
  cases e with
  | @move x idx _ fits =>
    obtain ⟨hwf, hv⟩ := h.slot x
    refine h.setSlot x ⟨hwf, fun hc => ?_⟩
    obtain ⟨hcap, hidx, hbelow⟩ := hv hc
    exact ⟨hcap, fits hidx, hbelow⟩
  | @orient x => exact h.setSlot x (h.slot x)
  | @store x v n _ _ _ fits => exact h.setSlot x (store_inv (h.slot x) fits v)
  | @create x len _ _ _ fits =>
    exact h.setSlot x ⟨wf_nil, fun _ => ⟨fits, Nat.zero_le _, fun y hy => absurd hy List.not_mem_nil⟩⟩
  | @excerpt d t a b _ _ _ built fits => exact h.setSlot d (excerpt_inv (h.slot t) built fits)
  | @configure j k _ _ ok => exact h.setCtx j fun _ => ok

/-- A chain of edits keeps the invariant. -/
theorem effect_inv {i : Instr} {s t : State} (e : Effect i s t) (h : s.Inv) : t.Inv := by
  induction e with
  | refl => exact h
  | tail _ e ih => exact e.inv ih

/-- A command keeps the invariant. -/
theorem exec_inv {i : Instr} {s t : State} (e : exec i s = .next t) (h : s.Inv) : t.Inv := by
  obtain ⟨t', r, rfl, he⟩ := exec_effect e
  have := effect_inv he h
  exact this

/-! ## The frame along edits -/

/-- What a command leaves as it was (R8, R66): the parameters, the input, the slots it does not name, and the contexts
other than the one CNEW names. -/
def Frame (i : Instr) (s t : State) : Prop :=
  t.nslot = s.nslot ∧ t.nctx = s.nctx ∧ t.cap = s.cap ∧ t.cmds = s.cmds ∧
  (∀ x, i.namesSlot x = false → t.slot x = s.slot x) ∧
  ∀ j, (i.configures = false ∨ j ≠ i.primary) → t.ctx j = s.ctx j

theorem Frame.refl (i : Instr) (s : State) : Frame i s s := ⟨rfl, rfl, rfl, rfl, fun _ _ => rfl, fun _ _ => rfl⟩

theorem Frame.trans {i : Instr} {s t u : State} (h : Frame i s t) (h' : Frame i t u) : Frame i s u := by
  obtain ⟨hn, hk, hcap, hcmds, hs, hc⟩ := h
  obtain ⟨hn', hk', hcap', hcmds', hs', hc'⟩ := h'
  exact ⟨hn'.trans hn, hk'.trans hk, hcap'.trans hcap, hcmds'.trans hcmds,
    fun x hx => (hs' x hx).trans (hs x hx), fun j hj => (hc' j hj).trans (hc j hj)⟩

/-- Setting a named slot is within the frame. -/
theorem frame_setSlot {i : Instr} {x : Nat} (hx : i.namesSlot x = true) (s : State) (c : Slot) :
    Frame i s (s.setSlot x c) := by
  refine ⟨setSlot_nslot .., rfl, rfl, rfl, fun y hy => slot_setSlot_ne s c ?_, fun _ _ => rfl⟩
  rintro rfl
  simp [hx] at hy

/-- Setting the context CNEW names is within the frame. -/
theorem frame_setCtx {i : Instr} (hi : i.configures = true) (s : State) (k : Context) :
    Frame i s (s.setCtx i.primary k) := by
  refine ⟨rfl, setCtx_nctx .., rfl, rfl, fun _ _ => rfl, fun j hj => ctx_setCtx_ne s k ?_⟩
  rintro rfl
  simp [hi] at hj

theorem Edit.frame {i : Instr} {s t : State} (e : Edit i s t) : Frame i s t := by
  cases e with
  | move named => exact frame_setSlot named ..
  | orient named => exact frame_setSlot named ..
  | store named => exact frame_setSlot named ..
  | create named => exact frame_setSlot named ..
  | excerpt named => exact frame_setSlot named ..
  | configure dest configures =>
    subst dest
    exact frame_setCtx configures ..

theorem effect_frame {i : Instr} {s t : State} (e : Effect i s t) : Frame i s t := by
  induction e with
  | refl => exact .refl i s
  | tail _ e ih => exact ih.trans e.frame

/-! ## Independence of earlier responses -/

/-- A sub-step with the response output of its state replaced. -/
def SubStep.withResp {α : Type} (r : SubStep α) (q : Option Response) : SubStep α :=
  match r with
  | .done v s => .done v (s.withResp q)
  | .raised e s => .raised e (s.withResp q)

/-- A command's own response overwrites the one its sub-steps carried along. -/
theorem answer_withResp {α : Type} (r : SubStep α) (q : Option Response) (f : α → Operand) :
    (r.withResp q).answer f = r.answer f := by
  cases r <;> rfl

/-- Sub-steps that carry the response output along do so in a row. -/
theorem andThen_withResp {α β : Type} {f : α → State → SubStep β} {q : Option Response}
    (hf : ∀ v s, f v (s.withResp q) = (f v s).withResp q) (r : SubStep α) :
    (r.withResp q).andThen f = (r.andThen f).withResp q := by
  cases r with
  | done v s => exact hf v s
  | raised e s => rfl

section
variable (q : Option Response)

theorem readBits_withResp (x n : Nat) (s : State) : readBits x n (s.withResp q) = (readBits x n s).withResp q := by
  unfold readBits
  rw [withResp_slot]
  cases check (s.slot x) n <;> rfl

theorem writeBits_withResp (x v n : Nat) (s : State) :
    writeBits x v n (s.withResp q) = (writeBits x v n s).withResp q := by
  unfold writeBits
  rw [withResp_slot]
  cases check (s.slot x) n <;> rfl

theorem readChunks_withResp (x k j v : Nat) (s : State) :
    readChunks x k j v (s.withResp q) = (readChunks x k j v s).withResp q := by
  induction k generalizing j v s with
  | zero => rfl
  | succ k ih =>
    rw [readChunks, readBits_withResp, andThen_withResp fun _ t => ih _ _ t, readChunks]

theorem readWide_withResp (x w : Nat) (s : State) : readWide x w (s.withResp q) = (readWide x w s).withResp q :=
  readChunks_withResp ..

theorem writeChunks_withResp (x v k j : Nat) (s : State) :
    writeChunks x v k j (s.withResp q) = (writeChunks x v k j s).withResp q := by
  induction k generalizing j s with
  | zero => rfl
  | succ k ih =>
    rw [writeChunks, writeBits_withResp, andThen_withResp fun _ t => ih _ t, writeChunks]

theorem writeWide_withResp (x v w : Nat) (s : State) :
    writeWide x v w (s.withResp q) = (writeWide x v w s).withResp q :=
  writeChunks_withResp ..

theorem copyLoop_withResp (d t fuel rem : Nat) (s : State) :
    copyLoop d t fuel rem (s.withResp q) = (copyLoop d t fuel rem s).withResp q := by
  have hchunk (c : Nat) (s : State) : copyChunk d t c (s.withResp q) = (copyChunk d t c s).withResp q := by
    rw [copyChunk, readBits_withResp, andThen_withResp fun v s => writeBits_withResp q d v c s, copyChunk]
  induction fuel generalizing rem s with
  | zero => rfl
  | succ fuel ih =>
    by_cases h0 : rem = 0
    · rw [h0, copyLoop_zero, copyLoop_zero]
      rfl
    · rw [copyLoop_chunk _ h0, copyLoop_chunk _ h0, hchunk, andThen_withResp fun _ s => ih _ s]

/-- `slotcheck` does not depend on the earlier response when the body does not. -/
theorem withSlot_withResp (x : Nat) (s : State) {body body' : Result} (h : body = body') :
    withSlot x (s.withResp q) body = withSlot x s body' := by
  subst h
  rfl

theorem readCommand_withResp (x : Nat) {read : State → SubStep Nat} (f : Nat → Operand) {s : State}
    (h : read (s.withResp q) = (read s).withResp q) :
    readCommand x read f (s.withResp q) = readCommand x read f s :=
  withSlot_withResp q x s (by rw [h, answer_withResp])

theorem writeCommand_withResp (x : Nat) {write : State → SubStep Unit} {s : State}
    (h : write (s.withResp q) = (write s).withResp q) :
    writeCommand x write (s.withResp q) = writeCommand x write s :=
  withSlot_withResp q x s (by rw [h, answer_withResp])

theorem execWrbs_withResp (d t : Nat) (nbits : BitVec 64) (s : State) :
    execWrbs d t nbits (s.withResp q) = execWrbs d t nbits s := by
  refine withSlot_withResp q d s (withSlot_withResp q t s ?_)
  rw [copyLoop_withResp, answer_withResp]
  rfl

/-- A command does not depend on the response of an earlier one. -/
theorem exec_withResp (i : Instr) (s : State) : exec i (s.withResp q) = exec i s := by
  cases shape i with
  | accessor x f run => rw [run, run]; rfl
  | narrowRead n f _ run => rw [run, run, readCommand_withResp q _ f (readBits_withResp ..)]
  | wideRead w f _ run => rw [run, run, readCommand_withResp q _ f (readWide_withResp ..)]
  | narrowWrite v n _ _ run => rw [run, run, writeCommand_withResp q _ (writeBits_withResp ..)]
  | wideWrite v w _ _ run => rw [run, run, writeCommand_withResp q _ (writeWide_withResp ..)]
  | codec j f run => rw [run, run]; rfl
  | wrbs d t nbits => exact execWrbs_withResp q d t nbits s
  | new | setidx | setend | align | slice | cnew => rfl

end

/-! ## Register widths and reset -/

/-- LENW bits hold 0..CAP (R9). -/
theorem lt_two_pow_lenWidth (cap : Nat) : cap < 2 ^ lenWidth cap := by
  unfold lenWidth
  split
  · omega
  · exact Nat.lt_log2_self

/-- One bit less than LENW does not hold CAP (R9). -/
theorem two_pow_lenWidth_pred_le {cap : Nat} (h : 0 < cap) : 2 ^ (lenWidth cap - 1) ≤ cap := by
  have h0 : cap ≠ 0 := by omega
  rw [lenWidth, if_neg h0]
  exact Nat.log2_self_le h0

theorem resetWith_slot (c : Config) (x : Nat) : (State.resetWith c).slot x = Slot.unbuilt := by
  simp only [State.slot, State.resetWith, List.getElem?_replicate]
  split <;> rfl

theorem resetWith_ctx (c : Config) (j : Nat) : (State.resetWith c).ctx j = Context.unbuilt := by
  simp only [State.ctx, State.resetWith, List.getElem?_replicate]
  split <;> rfl

theorem resetWith_config (c : Config) : (State.resetWith c).config = c := by
  simp [State.config, State.nslot, State.nctx, State.resetWith]

theorem resetWith_inv {c : Config} (h : c.InRange) : (State.resetWith c).Inv := by
  refine ⟨(resetWith_config c).symm ▸ h, fun d hd => ?_, fun k hk => ?_⟩
  · rw [List.eq_of_mem_replicate hd]
    exact unbuilt_inv _
  · rw [List.eq_of_mem_replicate hk]
    intro hv
    cases hv

end Sys2Proof.Machine

namespace Sys2Proof.Proofs

open Sys2Proof Sys2Proof.Machine

/-! ## The obligations on steps and the invariant -/

/-- Settles O10, by the cases of a step and the chain of edits of a command. -/
theorem everyStepKeepsTheInvariant : Obligations.EveryStepKeepsTheInvariant := by
  intro s t h hstep
  rcases step_cases s with ⟨-, e⟩ | ⟨p, rest, err, -, -, e⟩ | ⟨p, rest, i, -, -, e⟩ <;> rw [e] at hstep
  · cases hstep
    exact h
  · cases hstep
    exact h
  · exact exec_inv hstep h

/-- Settles O6: every command answers, and its edits leave the input. -/
theorem everyStepAnswersANextState : Obligations.EveryStepAnswersANextState := by
  have hexec (i : Instr) (s : State) : ∃ t r, exec i s = .next t ∧ t.resp = some r ∧ t.cmds = s.cmds := by
    obtain ⟨t, r, e, he⟩ := exec_answers i s
    obtain ⟨-, -, -, hcmds, -, -⟩ := effect_frame he
    exact ⟨_, r, e, rfl, hcmds⟩
  refine ⟨hexec, fun s hs => ?_, fun s hs => step_idle hs⟩
  rcases step_cases s with ⟨h0, -⟩ | ⟨p, rest, err, -, -, e⟩ | ⟨p, rest, i, -, -, e⟩
  · exact absurd h0 hs
  · exact ⟨_, _, e, rfl, rfl⟩
  · rw [e]
    exact hexec i s.takeCommand

/-- Settles O8: every sub-step carries the response output along and the command's own response overwrites it. -/
theorem earlierResponsesAreNotRetained : Obligations.EarlierResponsesAreNotRetained := by
  refine ⟨fun i s r => exec_withResp r i s, fun s r => ?_⟩
  rcases step_cases s with ⟨h, e⟩ | ⟨p, rest, err, h, hd, e⟩ | ⟨p, rest, i, h, hd, e⟩ <;> rw [e]
  · exact step_idle (show (s.withResp r).cmds = [] from h)
  · exact step_illegal (show (s.withResp r).cmds = p :: rest from h) hd
  · rw [step_command (show (s.withResp r).cmds = p :: rest from h) hd]
    exact exec_withResp r i s.takeCommand

/-- Settles O11: the invariant bounds LEN by CAP and IDX by 8·LEN. -/
theorem registersFitTheirWidths : Obligations.RegistersFitTheirWidths := by
  intro s h
  have hcap : s.cap < 2 ^ lenWidth s.cap := lt_two_pow_lenWidth s.cap
  have hmax : s.cap ≤ 2 ^ 32 - 1 := by
    obtain ⟨⟨-, -, hmax⟩, -, -⟩ := h
    exact hmax
  refine ⟨by omega, hcap, two_pow_lenWidth_pred_le, fun x hx => ?_⟩
  obtain ⟨-, hv⟩ := h.slot x
  obtain ⟨hlen, hidx, -⟩ := hv hx
  rw [Nat.pow_add]
  omega

/-- Settles O12: every edit is within the frame of its command. -/
theorem commandsChangeOnlyWhatTheyName : Obligations.CommandsChangeOnlyWhatTheyName := by
  intro i s t h
  obtain ⟨t', r, rfl, he⟩ := exec_effect h
  have := effect_frame he
  exact this

/-- Settles O5, by the definition of a step. -/
theorem stepRunsTheDecodedCommand : Obligations.StepRunsTheDecodedCommand := by
  intro s p rest i hs hd
  rw [step_command hs hd, State.takeCommand, hs, List.tail_cons]

/-- Settles O9: a bank of unbuilt slots and contexts. -/
theorem resetConstructsNothing : Obligations.ResetConstructsNothing := by
  refine ⟨fun c hc => ⟨resetWith_inv hc, resetWith_config c, fun x => ?_, fun j => ?_⟩, resetWith_inv ?_, rfl, rfl⟩
  · rw [resetWith_slot]
    rfl
  · rw [resetWith_ctx]
    rfl
  · decide

end Sys2Proof.Proofs

/-! # Rounding to a binary format

`roundToBinary` is described once, for every width of the exponent and the fraction: it is rounding to an integer at the
unit in the last place, it picks the nearest pattern, and it reaches Infinity at a bound. Binary32 of the fast path and
binary64 of `decode` are two instances. -/

namespace Sys2Proof.Machine

/-! ## Rounding to an integer -/

/-- `n` is an integer nearest to `t`, and even when `t` lies halfway between two (R18). -/
def IsRoundedHalfEven (n : Nat) (t : ℚ) : Prop := |(n : ℚ) - t| ≤ 1 / 2 ∧ (|(n : ℚ) - t| = 1 / 2 → n % 2 = 0)

/-- Different integers are at least 1 apart. -/
theorem one_le_abs_cast_sub {m n : Nat} (h : m ≠ n) : (1 : ℚ) ≤ |(m : ℚ) - n| := by
  have hz : (m : Int) - n ≠ 0 := by omega
  exact_mod_cast Int.one_le_abs hz

/-- No integer is nearer, and another is equally near only when the rounded one is even. -/
theorem IsRoundedHalfEven.nearest {n : Nat} {t : ℚ} (h : IsRoundedHalfEven n t) (m : Nat) :
    |(n : ℚ) - t| ≤ |(m : ℚ) - t| ∧ (m ≠ n → |(n : ℚ) - t| = |(m : ℚ) - t| → n % 2 = 0) := by
  obtain ⟨hhalf, heven⟩ := h
  by_cases hmn : m = n
  · subst hmn
    exact ⟨le_refl _, fun h => absurd rfl h⟩
  · have hfar : (1 : ℚ) ≤ |(m : ℚ) - t| + |(n : ℚ) - t| :=
      calc (1 : ℚ) ≤ |(m : ℚ) - n| := one_le_abs_cast_sub hmn
        _ ≤ |(m : ℚ) - t| + |t - n| := abs_sub_le _ _ _
        _ = |(m : ℚ) - t| + |(n : ℚ) - t| := by rw [abs_sub_comm t]
    exact ⟨by linarith, fun _ heq => heven (by linarith)⟩

/-- Rounding does not pass an integer from below. -/
theorem IsRoundedHalfEven.le_of_le {n N : Nat} {t : ℚ} (h : IsRoundedHalfEven n t) (ht : t ≤ N) : n ≤ N := by
  obtain ⟨hhalf, -⟩ := h
  have h1 := (abs_le.1 hhalf).2
  have h2 : (n : ℚ) < ((N + 1 : Nat) : ℚ) := by
    push_cast
    linarith
  exact Nat.lt_succ_iff.1 (Nat.cast_lt.1 h2)

/-- Rounding does not pass an integer from above. -/
theorem IsRoundedHalfEven.le_of_ge {n N : Nat} {t : ℚ} (h : IsRoundedHalfEven n t) (ht : (N : ℚ) ≤ t) : N ≤ n := by
  obtain ⟨hhalf, -⟩ := h
  have h1 := (abs_le.1 hhalf).1
  have h2 : (N : ℚ) < ((n + 1 : Nat) : ℚ) := by
    push_cast
    linarith
  exact Nat.lt_succ_iff.1 (Nat.cast_lt.1 h2)

/-- An integer rounds to itself. -/
theorem isRoundedHalfEven_self (n : Nat) : IsRoundedHalfEven n n := by
  simp [IsRoundedHalfEven]

/-- Rounding down from at most half way. -/
theorem isRoundedHalfEven_down {q : Nat} {f : ℚ} (h0 : 0 ≤ f) (h1 : f ≤ 1 / 2) (heven : f = 1 / 2 → q % 2 = 0) :
    IsRoundedHalfEven q (q + f) := by
  have habs : |(q : ℚ) - (q + f)| = f := by rw [sub_add_cancel_left, abs_neg, abs_of_nonneg h0]
  rw [IsRoundedHalfEven, habs]
  exact ⟨h1, heven⟩

/-- Rounding up from at least half way. -/
theorem isRoundedHalfEven_up {q : Nat} {f : ℚ} (h0 : 1 / 2 ≤ f) (h1 : f ≤ 1) (heven : f = 1 / 2 → (q + 1) % 2 = 0) :
    IsRoundedHalfEven (q + 1) (q + f) := by
  have habs : |((q + 1 : Nat) : ℚ) - (q + f)| = 1 - f := by
    rw [Nat.cast_succ, add_sub_add_left_eq_sub, abs_of_nonneg (by linarith)]
  rw [IsRoundedHalfEven, habs]
  exact ⟨by linarith, fun h => heven (by linarith)⟩

/-- Half a unit or less below an even integer, and not above it, is rounded to it. -/
theorem IsRoundedHalfEven.eq_of_half_below {n N : Nat} {t : ℚ} (h : IsRoundedHalfEven n t) (hN : N % 2 = 0)
    (ht : (N : ℚ) - 1 / 2 ≤ t) (hle : n ≤ N) : n = N := by
  obtain ⟨hhalf, heven⟩ := h
  have hdist := (abs_le.1 hhalf).1
  have hnear : N < n + 2 := by
    have : (N : ℚ) < ((n + 2 : Nat) : ℚ) := by
      push_cast
      linarith
    exact Nat.cast_lt.1 this
  have hodd : n + 1 ≠ N := by
    rintro rfl
    push_cast at ht
    have := heven (by rw [abs_of_nonpos (by linarith)]; linarith)
    omega
  omega

/-- A quotient is its integer part and the residue over the divisor. -/
theorem cast_div_eq_div_add_mod (n : Nat) {d : Nat} (hd : 0 < d) :
    (n : ℚ) / d = (n / d : Nat) + ((n % d : Nat) : ℚ) / d := by
  have hd' : (d : ℚ) ≠ 0 := by exact_mod_cast hd.ne'
  have hsplit : (n : ℚ) = d * (n / d : Nat) + (n % d : Nat) := by exact_mod_cast (Nat.div_add_mod n d).symm
  rw [div_eq_iff hd', add_mul, div_mul_cancel₀ _ hd', mul_comm, ← hsplit]

/-- `roundHalfEven` rounds to the nearest integer, ties to even (R18). -/
theorem roundHalfEven_isRounded (n sh : Nat) : IsRoundedHalfEven (roundHalfEven n sh) ((n : ℚ) / (2 ^ sh : Nat)) := by
  have hP : 0 < 2 ^ sh := by positivity
  have hr : n % 2 ^ sh < 2 ^ sh := Nat.mod_lt _ hP
  unfold roundHalfEven
  rw [cast_div_eq_div_add_mod n hP]
  generalize n / 2 ^ sh = q
  generalize n % 2 ^ sh = r at hr ⊢
  generalize 2 ^ sh = d at hP hr ⊢
  have hd : (0 : ℚ) < d := by exact_mod_cast hP
  have htie (h : (r : ℚ) / d = 1 / 2) : 2 * r = d := by
    rw [div_eq_iff hd.ne'] at h
    exact_mod_cast (by linarith : (2 : ℚ) * r = d)
  dsimp only
  split
  · next hup =>
    have hge : (d : ℚ) ≤ 2 * r := by exact_mod_cast (by omega : d ≤ 2 * r)
    have hlt : (r : ℚ) ≤ d := by exact_mod_cast hr.le
    refine isRoundedHalfEven_up ?_ ((div_le_one hd).2 hlt) fun h => ?_
    · rw [le_div_iff₀ hd]
      linarith
    · have := htie h
      omega
  · next hdown =>
    have hle : 2 * (r : ℚ) ≤ d := by exact_mod_cast (by omega : 2 * r ≤ d)
    refine isRoundedHalfEven_down (by positivity) ?_ fun h => ?_
    · rw [div_le_iff₀ hd]
      linarith
    · have := htie h
      omega

/-- The coefficient `roundToBinary` gives a magnitude over the unit 2^q. -/
def roundedAt (a : Mag) (q : Int) : Nat :=
  if q ≤ a.expo then a.coeff * 2 ^ (a.expo - q).toNat
  else if (Nat.log2 a.coeff : Int) + 1 < q - a.expo then 0
  else roundHalfEven a.coeff (q - a.expo).toNat

/-- It is the magnitude in units of 2^q, rounded: exactly, to 0 below half a unit, or by `roundHalfEven`. -/
theorem roundedAt_isRounded (a : Mag) (q : Int) : IsRoundedHalfEven (roundedAt a q) (a.value / 2 ^ q) := by
  have hq : (0 : ℚ) < 2 ^ q := by positivity
  unfold roundedAt
  split
  · next hexact =>
    rw [Mag.value_eq_scaled a q hexact, mul_div_cancel_right₀ _ hq.ne']
    exact isRoundedHalfEven_self _
  · split
    · next hsmall =>
      have hlt : a.value / 2 ^ q < 1 / 2 := by
        rw [div_lt_iff₀ hq]
        calc a.value < 2 ^ (a.log2 + 1) := a.lt_pow_log2_succ
          _ ≤ 2 ^ (q - 1) := zpow_le_zpow_right₀ (by norm_num) (by unfold Mag.log2; omega)
          _ = 1 / 2 * 2 ^ q := by
            rw [zpow_sub₀ (by norm_num)]
            ring
      have h0 : 0 ≤ a.value / 2 ^ q := div_nonneg a.value_nonneg hq.le
      rw [IsRoundedHalfEven, Nat.cast_zero, zero_sub, abs_neg, abs_of_nonneg h0]
      exact ⟨hlt.le, fun h => absurd h hlt.ne⟩
    · next hexpo hsmall =>
      have ht : a.value / 2 ^ q = (a.coeff : ℚ) / (2 ^ (q - a.expo).toNat : Nat) := by
        have hsplit : q = ((q - a.expo).toNat : Int) + a.expo := by omega
        unfold Mag.value
        conv_lhs => rw [hsplit, zpow_add₀ (by norm_num), zpow_natCast]
        rw [Nat.cast_pow]
        exact mul_div_mul_right _ _ (by positivity)
      rw [ht]
      exact roundHalfEven_isRounded _ _

/-! ## The patterns of a binary format -/

/-- The exponent bias of the format with `ew` exponent bits, also its greatest exponent (R18). -/
def binaryBias (ew : Nat) : Int := ((2 ^ (ew - 1) : Nat) : Int) - 1

/-- The least exponent of the format. -/
def binaryMin (ew : Nat) : Int := 1 - binaryBias ew

/-- The coefficient of a sign-less pattern with `fw` fraction bits: the leading 1 is there unless the exponent field
is 0. -/
def binaryCoeff (fw p : Nat) : Nat := if p / 2 ^ fw = 0 then p % 2 ^ fw else 2 ^ fw + p % 2 ^ fw

/-- How many binades the pattern is above the least one: exponent fields 0 and 1 share it. -/
def binaryScale (fw p : Nat) : Nat := p / 2 ^ fw - 1

/-- The rational number of a sign-less pattern, with no exponent field taken as special. -/
def binaryValue (ew fw p : Nat) : ℚ :=
  (binaryCoeff fw p : ℚ) * 2 ^ ((binaryScale fw p : Int) + binaryMin ew - fw)

theorem binaryValue_nonneg (ew fw p : Nat) : 0 ≤ binaryValue ew fw p := by
  unfold binaryValue
  positivity

@[simp] theorem binaryValue_zero (ew fw : Nat) : binaryValue ew fw 0 = 0 := by
  simp [binaryValue, binaryCoeff]

theorem binaryCoeff_lt (fw p : Nat) : binaryCoeff fw p < 2 ^ (fw + 1) := by
  have hm : p % 2 ^ fw < 2 ^ fw := Nat.mod_lt _ (by positivity)
  unfold binaryCoeff
  rw [pow_succ]
  split <;> omega

/-- A pattern is its scale in units of 2^fw plus its coefficient. -/
theorem binaryScale_add_binaryCoeff (fw p : Nat) : binaryScale fw p * 2 ^ fw + binaryCoeff fw p = p := by
  have hp := Nat.div_add_mod' p (2 ^ fw)
  unfold binaryScale binaryCoeff
  split
  · next h0 =>
    rw [h0] at hp ⊢
    omega
  · next h0 =>
    obtain ⟨e, he⟩ := Nat.exists_eq_succ_of_ne_zero h0
    rw [he, Nat.succ_mul] at hp
    rw [he, Nat.succ_sub_one]
    omega

/-- The pattern with a given scale and coefficient has the value they stand for, also when the coefficient has just
carried into the next binade. -/
theorem binaryValue_scale_add_coeff (ew : Nat) {fw k n : Nat} (hk : k = 0 ∨ 2 ^ fw ≤ n) (hn : n ≤ 2 ^ (fw + 1)) :
    binaryValue ew fw (k * 2 ^ fw + n) = (n : ℚ) * 2 ^ ((k : Int) + binaryMin ew - fw) := by
  have hF : 0 < 2 ^ fw := by positivity
  rw [pow_succ] at hn
  have parts (e m : Nat) (hm : m < 2 ^ fw) : (e * 2 ^ fw + m) / 2 ^ fw = e ∧ (e * 2 ^ fw + m) % 2 ^ fw = m := by
    rw [Nat.mul_comm, Nat.mul_add_div hF, Nat.mul_add_mod, Nat.div_eq_of_lt hm, Nat.mod_eq_of_lt hm]
    exact ⟨rfl, rfl⟩
  rcases Nat.lt_or_ge n (2 ^ fw) with hlt | hge
  · obtain rfl : k = 0 := by omega
    obtain ⟨hd, hm⟩ := parts 0 n hlt
    simp only [binaryValue, binaryCoeff, binaryScale, hd, hm, if_true]
  · rcases Nat.lt_or_ge n (2 * 2 ^ fw) with hlt | hcarry
    · obtain ⟨hd, hm⟩ := parts (k + 1) (n - 2 ^ fw) (by omega)
      have hp : k * 2 ^ fw + n = (k + 1) * 2 ^ fw + (n - 2 ^ fw) := by
        rw [Nat.succ_mul]
        omega
      simp only [hp, binaryValue, binaryCoeff, binaryScale, hd, hm, Nat.succ_ne_zero, if_false, Nat.add_sub_cancel]
      rw [Nat.add_sub_cancel' hge]
    · obtain rfl : n = 2 * 2 ^ fw := by omega
      obtain ⟨hd, hm⟩ := parts (k + 2) 0 hF
      have hp : k * 2 ^ fw + 2 * 2 ^ fw = (k + 2) * 2 ^ fw + 0 := by ring
      simp only [hp, binaryValue, binaryCoeff, binaryScale, hd, hm, Nat.succ_ne_zero, if_false]
      rw [show ((k + 2 - 1 : Nat) : Int) + binaryMin ew - fw = (k : Int) + binaryMin ew - fw + 1 by omega,
        zpow_add_one₀ (by norm_num)]
      push_cast
      ring

/-! ## Rounding to a binary format -/

/-- The scale of a magnitude in the format: that of its binade, or 0 below the least one. -/
def magScale (ew : Nat) (a : Mag) : Nat := (max a.log2 (binaryMin ew) - binaryMin ew).toNat

/-- The exponent of the unit in the last place at a magnitude. -/
def magUnit (ew fw : Nat) (a : Mag) : Int := (magScale ew a : Int) + binaryMin ew - fw

theorem magScale_add_min (ew : Nat) (a : Mag) : (magScale ew a : Int) + binaryMin ew = max a.log2 (binaryMin ew) := by
  unfold magScale
  omega

section
variable {ew fw : Nat} {a : Mag}

/-- Within the format's exponents, `roundToBinary` rounds the magnitude at its unit in the last place. -/
theorem roundToBinary_eq (ha : a.coeff ≠ 0) (hl : a.log2 ≤ binaryBias ew) :
    roundToBinary ew fw a = magScale ew a * 2 ^ fw + roundedAt a (magUnit ew fw a) := by
  have hunit : magUnit ew fw a = max a.log2 (binaryMin ew) - fw := by rw [magUnit, magScale_add_min]
  rw [hunit]
  have hle : ¬a.log2 > ((2 ^ (ew - 1) : Nat) : Int) - 1 := not_lt.2 hl
  unfold roundToBinary
  dsimp only
  rw [if_neg ha, if_neg hle]
  change (if a.log2 < binaryMin ew then roundedAt a (max a.log2 (binaryMin ew) - fw)
    else (a.log2 - binaryMin ew).toNat * 2 ^ fw + roundedAt a (max a.log2 (binaryMin ew) - fw)) = _
  have hscale := magScale_add_min ew a
  split
  · have h0 : magScale ew a = 0 := by omega
    rw [h0, Nat.zero_mul, Nat.zero_add]
  · have hbinade : magScale ew a = (a.log2 - binaryMin ew).toNat := by omega
    rw [hbinade]

/-- Above the format's exponents the result is Infinity. -/
theorem roundToBinary_of_bias_lt (ha : a.coeff ≠ 0) (hl : binaryBias ew < a.log2) :
    roundToBinary ew fw a = (2 ^ ew - 1) * 2 ^ fw := by
  have hgt : a.log2 > ((2 ^ (ew - 1) : Nat) : Int) - 1 := hl
  unfold roundToBinary
  dsimp only
  rw [if_neg ha, if_pos hgt]

/-- The magnitude in units of its last place is below twice the hidden bit. -/
theorem value_div_unit_lt : a.value / 2 ^ magUnit ew fw a < ((2 ^ (fw + 1) : Nat) : ℚ) := by
  rw [div_lt_iff₀ (by positivity)]
  calc a.value < 2 ^ (a.log2 + 1) := a.lt_pow_log2_succ
    _ ≤ 2 ^ (((fw + 1 : Nat) : Int) + magUnit ew fw a) := by
      refine zpow_le_zpow_right₀ (by norm_num) ?_
      have := magScale_add_min ew a
      unfold magUnit
      omega
    _ = ((2 ^ (fw + 1) : Nat) : ℚ) * 2 ^ magUnit ew fw a := by
      rw [zpow_add₀ (by norm_num), zpow_natCast]
      push_cast
      rfl

/-- Above the least binade the magnitude has the hidden bit. -/
theorem le_value_div_unit (ha : a.coeff ≠ 0) (hk : magScale ew a ≠ 0) :
    ((2 ^ fw : Nat) : ℚ) ≤ a.value / 2 ^ magUnit ew fw a := by
  rw [le_div_iff₀ (by positivity)]
  calc ((2 ^ fw : Nat) : ℚ) * 2 ^ magUnit ew fw a = 2 ^ ((fw : Int) + magUnit ew fw a) := by
        rw [zpow_add₀ (by norm_num), zpow_natCast]
        push_cast
        rfl
    _ = 2 ^ a.log2 := by
      congr 1
      have := magScale_add_min ew a
      unfold magUnit
      omega
    _ ≤ a.value := a.pow_log2_le ha

/-- The rounded coefficient of a magnitude, as the pattern's parts need it. -/
theorem roundedAt_bounds (ew fw : Nat) (ha : a.coeff ≠ 0) :
    (magScale ew a = 0 ∨ 2 ^ fw ≤ roundedAt a (magUnit ew fw a)) ∧ roundedAt a (magUnit ew fw a) ≤ 2 ^ (fw + 1) := by
  have hround := roundedAt_isRounded a (magUnit ew fw a)
  refine ⟨?_, hround.le_of_le value_div_unit_lt.le⟩
  by_cases hk : magScale ew a = 0
  · exact .inl hk
  · exact .inr (hround.le_of_ge (le_value_div_unit ha hk))

/-- The value of the rounded pattern. -/
theorem binaryValue_roundToBinary (ha : a.coeff ≠ 0) (hl : a.log2 ≤ binaryBias ew) :
    binaryValue ew fw (roundToBinary ew fw a) = (roundedAt a (magUnit ew fw a) : ℚ) * 2 ^ magUnit ew fw a := by
  obtain ⟨hlow, hhigh⟩ := roundedAt_bounds ew fw ha
  rw [roundToBinary_eq ha hl, binaryValue_scale_add_coeff ew hlow hhigh, magUnit]

/-- The pattern `r` is the nearest to `v` of all sign-less patterns, and even when another is equally near. -/
def IsNearestPattern (ew fw r : Nat) (v : ℚ) : Prop :=
  ∀ p, |binaryValue ew fw r - v| ≤ |binaryValue ew fw p - v| ∧
    (p ≠ r → |binaryValue ew fw r - v| = |binaryValue ew fw p - v| → r % 2 = 0)

/-- Distances measured in units. -/
theorem abs_mul_sub_mul (n t : ℚ) {u : ℚ} (hu : 0 < u) : |n * u - t * u| = |n - t| * u := by
  rw [← sub_mul, abs_mul, abs_of_pos hu]

/-- Against a pattern of the same or a higher scale: its value is a whole number of units, so rounding to an integer
decides. -/
theorem nearest_of_scale_le (hfw : 1 ≤ fw) {k n p : Nat} {t : ℚ} (hn : IsRoundedHalfEven n t)
    (hkp : k ≤ binaryScale fw p) :
    let u : ℚ := 2 ^ ((k : Int) + binaryMin ew - fw)
    |n * u - t * u| ≤ |binaryValue ew fw p - t * u| ∧
      (p ≠ k * 2 ^ fw + n → |n * u - t * u| = |binaryValue ew fw p - t * u| → (k * 2 ^ fw + n) % 2 = 0) := by
  intro u
  have hu : 0 < u := by positivity
  obtain ⟨j, hj⟩ := Nat.exists_eq_add_of_le hkp
  have hval : binaryValue ew fw p = ((binaryCoeff fw p * 2 ^ j : Nat) : ℚ) * u := by
    rw [binaryValue, hj, show ((k + j : Nat) : Int) + binaryMin ew - fw = j + ((k : Int) + binaryMin ew - fw) by omega,
      zpow_add₀ (by norm_num), zpow_natCast]
    push_cast
    ring
  obtain ⟨hle, heven⟩ := hn.nearest (binaryCoeff fw p * 2 ^ j)
  rw [hval, abs_mul_sub_mul _ _ hu, abs_mul_sub_mul _ _ hu]
  refine ⟨mul_le_mul_of_nonneg_right hle hu.le, fun hne heq => ?_⟩
  have hn2 : n % 2 = 0 := by
    by_cases hm : binaryCoeff fw p * 2 ^ j = n
    · cases j with
      | zero =>
        have hp := binaryScale_add_binaryCoeff fw p
        rw [hj, Nat.add_zero] at hp
        rw [pow_zero, Nat.mul_one] at hm
        rw [hm] at hp
        exact absurd hp.symm hne
      | succ j =>
        rw [← hm, pow_succ, ← Nat.mul_assoc]
        exact Nat.mul_mod_left _ _
    · exact heven hm (mul_right_cancel₀ hu.ne' heq)
  obtain ⟨f, rfl⟩ := Nat.exists_eq_add_of_le' hfw
  rw [pow_succ, ← Nat.mul_assoc]
  omega

/-- Against a pattern of a lower scale: it lies below the hidden bit, which is nearer. -/
theorem nearest_of_scale_lt (ew : Nat) {k n p : Nat} {t : ℚ} (hn : IsRoundedHalfEven n t) (ht : ((2 ^ fw : Nat) : ℚ) ≤ t)
    (hkp : binaryScale fw p < k) :
    let u : ℚ := 2 ^ ((k : Int) + binaryMin ew - fw)
    |n * u - t * u| < |binaryValue ew fw p - t * u| := by
  intro u
  have hu : 0 < u := by positivity
  have hval : binaryValue ew fw p < ((2 ^ fw : Nat) : ℚ) * u := by
    have hc : (binaryCoeff fw p : ℚ) < ((2 ^ (fw + 1) : Nat) : ℚ) := Nat.cast_lt.2 (binaryCoeff_lt fw p)
    calc binaryValue ew fw p < ((2 ^ (fw + 1) : Nat) : ℚ) * 2 ^ ((binaryScale fw p : Int) + binaryMin ew - fw) :=
          mul_lt_mul_of_pos_right hc (by positivity)
      _ ≤ ((2 ^ (fw + 1) : Nat) : ℚ) * 2 ^ ((k : Int) + binaryMin ew - fw - 1) :=
          mul_le_mul_of_nonneg_left (zpow_le_zpow_right₀ (by norm_num) (by omega)) (by positivity)
      _ = ((2 ^ fw : Nat) : ℚ) * u := by
          rw [zpow_sub_one₀ (by norm_num)]
          push_cast
          ring
  have htu : ((2 ^ fw : Nat) : ℚ) * u ≤ t * u := mul_le_mul_of_nonneg_right ht hu.le
  calc |n * u - t * u| = |(n : ℚ) - t| * u := abs_mul_sub_mul _ _ hu
    _ ≤ |((2 ^ fw : Nat) : ℚ) - t| * u := mul_le_mul_of_nonneg_right (hn.nearest _).1 hu.le
    _ = |((2 ^ fw : Nat) : ℚ) * u - t * u| := (abs_mul_sub_mul _ _ hu).symm
    _ < |binaryValue ew fw p - t * u| := by
      rw [abs_of_nonpos (by linarith), abs_of_nonpos (by linarith)]
      linarith

/-- Within the format's exponents `roundToBinary` picks the nearest pattern, ties to even (R18). -/
theorem roundToBinary_isNearest (hfw : 1 ≤ fw) (hl : a.coeff = 0 ∨ a.log2 ≤ binaryBias ew) :
    IsNearestPattern ew fw (roundToBinary ew fw a) a.value := by
  intro p
  by_cases ha : a.coeff = 0
  · have hr : roundToBinary ew fw a = 0 := by simp [roundToBinary, ha]
    rw [hr, (Mag.value_eq_zero a).2 ha, binaryValue_zero, sub_zero, abs_zero]
    exact ⟨abs_nonneg _, fun _ _ => rfl⟩
  · have hl := hl.resolve_left ha
    have hround := roundedAt_isRounded a (magUnit ew fw a)
    have hu : (0 : ℚ) < 2 ^ magUnit ew fw a := by positivity
    have hv : a.value = a.value / 2 ^ magUnit ew fw a * 2 ^ magUnit ew fw a := (div_mul_cancel₀ _ hu.ne').symm
    rw [binaryValue_roundToBinary ha hl, roundToBinary_eq ha hl, hv]
    rcases Nat.lt_or_ge (binaryScale fw p) (magScale ew a) with hlow | hhigh
    · have hlt := nearest_of_scale_lt ew hround (le_value_div_unit ha (by omega)) hlow
      exact ⟨hlt.le, fun _ heq => absurd heq hlt.ne⟩
    · exact nearest_of_scale_le hfw hround hhigh

/-! ## The top of a binary format -/

/-- The pattern of Infinity, without the sign. -/
def binaryTop (ew fw : Nat) : Nat := (2 ^ ew - 1) * 2 ^ fw

/-- Half a unit below 2^(bias + 1): from here on a magnitude rounds to Infinity (R18). -/
def binaryBound (ew fw : Nat) : ℚ := 2 ^ (binaryBias ew + 1) - 2 ^ (binaryBias ew - fw - 1)

/-- The bound in units of the highest binade. -/
theorem binaryBound_eq (ew fw : Nat) :
    binaryBound ew fw = (((2 ^ (fw + 1) : Nat) : ℚ) - 1 / 2) * 2 ^ (binaryBias ew - fw) := by
  rw [binaryBound, show binaryBias ew + 1 = ((fw + 1 : Nat) : Int) + (binaryBias ew - fw) by omega,
    zpow_add₀ (by norm_num), zpow_natCast, zpow_sub_one₀ (by norm_num)]
  push_cast
  ring

/-- The number of binades: the highest one has scale 2^ew − 3. -/
theorem binaryTop_scale (hew : 2 ≤ ew) : ((2 ^ ew - 3 : Nat) : Int) + binaryMin ew = binaryBias ew ∧ 4 ≤ 2 ^ ew := by
  obtain ⟨e, rfl⟩ := Nat.exists_eq_add_of_le' hew
  have h1 : 1 ≤ 2 ^ e := Nat.one_le_two_pow
  simp only [binaryMin, binaryBias, Nat.add_succ_sub_one, pow_succ]
  generalize 2 ^ e = b at h1 ⊢
  omega

/-- The magnitude is below the highest binade, or in it. -/
theorem magScale_le (fw : Nat) (hew : 2 ≤ ew) (hl : a.log2 ≤ binaryBias ew) :
    magScale ew a ≤ 2 ^ ew - 3 ∧ (magScale ew a = 2 ^ ew - 3 → magUnit ew fw a = binaryBias ew - fw) := by
  obtain ⟨htop, h4⟩ := binaryTop_scale hew
  have := magScale_add_min ew a
  unfold magUnit
  omega

/-- A pattern below the highest binade, or in it without a carry, is finite; with the carry it is Infinity. -/
theorem scale_add_coeff_top (hew : 2 ≤ ew) {k n : Nat} (hk : k ≤ 2 ^ ew - 3) (hn : n ≤ 2 ^ (fw + 1)) :
    (k < 2 ^ ew - 3 ∨ n < 2 ^ (fw + 1) → k * 2 ^ fw + n < binaryTop ew fw) ∧
      (k = 2 ^ ew - 3 → n = 2 ^ (fw + 1) → k * 2 ^ fw + n = binaryTop ew fw) := by
  obtain ⟨-, h4⟩ := binaryTop_scale hew
  have hF : 0 < 2 ^ fw := by positivity
  obtain ⟨m, hm⟩ := Nat.exists_eq_add_of_le h4
  have htop : binaryTop ew fw = (m + 1) * 2 ^ fw + 2 * 2 ^ fw := by
    rw [binaryTop, hm, show 4 + m - 1 = m + 1 + 2 by omega, Nat.add_mul]
  rw [hm, show 4 + m - 3 = m + 1 by omega] at hk ⊢
  rw [pow_succ, Nat.mul_comm _ 2] at hn ⊢
  rw [htop]
  have hmul : k * 2 ^ fw ≤ (m + 1) * 2 ^ fw := Nat.mul_le_mul_right _ hk
  refine ⟨?_, fun hk hn => by rw [hk, hn]⟩
  rintro (hlt | hlt)
  · have hmul : k * 2 ^ fw < (m + 1) * 2 ^ fw := Nat.mul_lt_mul_of_pos_right hlt hF
    omega
  · omega

/-- Below the bound a magnitude is within the format's exponents. -/
theorem log2_le_of_lt_bound (h : a.value < binaryBound ew fw) : a.coeff = 0 ∨ a.log2 ≤ binaryBias ew := by
  by_cases ha : a.coeff = 0
  · exact .inl ha
  · refine .inr (Int.lt_add_one_iff.1 ((zpow_lt_zpow_iff_right₀ (by norm_num : (1 : ℚ) < 2)).1 ?_))
    have hhalf : (0 : ℚ) < 2 ^ (binaryBias ew - fw - 1) := by positivity
    calc (2 : ℚ) ^ a.log2 ≤ a.value := a.pow_log2_le ha
      _ < binaryBound ew fw := h
      _ ≤ 2 ^ (binaryBias ew + 1) := by
        unfold binaryBound
        linarith

/-- Below the bound the result is finite. -/
theorem roundToBinary_lt_top (hew : 2 ≤ ew) (h : a.value < binaryBound ew fw) :
    roundToBinary ew fw a < binaryTop ew fw := by
  by_cases ha : a.coeff = 0
  · obtain ⟨-, h4⟩ := binaryTop_scale hew
    have hr : roundToBinary ew fw a = 0 := by simp [roundToBinary, ha]
    rw [hr]
    exact Nat.mul_pos (by omega) (by positivity)
  · have hl := (log2_le_of_lt_bound h).resolve_left ha
    obtain ⟨-, hhigh⟩ := roundedAt_bounds ew fw ha
    obtain ⟨hk, hunit⟩ := magScale_le fw hew hl
    rw [roundToBinary_eq ha hl]
    refine (scale_add_coeff_top hew hk hhigh).1 ?_
    rcases Nat.lt_or_ge (magScale ew a) (2 ^ ew - 3) with hlt | hge
    · exact .inl hlt
    · right
      have hu : (0 : ℚ) < 2 ^ magUnit ew fw a := by positivity
      have ht : a.value / 2 ^ magUnit ew fw a < ((2 ^ (fw + 1) : Nat) : ℚ) - 1 / 2 := by
        rw [div_lt_iff₀ hu, hunit (by omega), ← binaryBound_eq]
        exact h
      obtain ⟨hdist, -⟩ := roundedAt_isRounded a (magUnit ew fw a)
      have hup := (abs_le.1 hdist).2
      exact Nat.cast_lt.1 (by linarith : ((roundedAt a (magUnit ew fw a) : Nat) : ℚ) < ((2 ^ (fw + 1) : Nat) : ℚ))

/-- From the bound on a magnitude is in the highest binade or above it. -/
theorem pow_bias_le_of_bound_le (h : binaryBound ew fw ≤ a.value) : (2 : ℚ) ^ binaryBias ew ≤ a.value := by
  have hF : (1 : ℚ) ≤ 2 ^ fw := one_le_pow₀ (by norm_num)
  calc (2 : ℚ) ^ binaryBias ew = 2 ^ fw * 2 ^ (binaryBias ew - fw) := by
        rw [← zpow_natCast, ← zpow_add₀ (by norm_num), add_sub_cancel]
    _ ≤ (((2 ^ (fw + 1) : Nat) : ℚ) - 1 / 2) * 2 ^ (binaryBias ew - fw) := by
        refine mul_le_mul_of_nonneg_right ?_ (by positivity)
        rw [pow_succ]
        push_cast
        linarith
    _ = binaryBound ew fw := (binaryBound_eq ew fw).symm
    _ ≤ a.value := h

/-- From the bound on the result is Infinity: the tie at the bound goes up, since the highest coefficient is odd. -/
theorem roundToBinary_eq_top (hew : 2 ≤ ew) (h : binaryBound ew fw ≤ a.value) :
    roundToBinary ew fw a = binaryTop ew fw := by
  have hlarge := pow_bias_le_of_bound_le h
  have ha : a.coeff ≠ 0 := by
    intro h0
    rw [(Mag.value_eq_zero a).2 h0] at hlarge
    exact absurd hlarge (not_le.2 (by positivity))
  by_cases hl : a.log2 ≤ binaryBias ew
  · have hlog : binaryBias ew < a.log2 + 1 :=
      (zpow_lt_zpow_iff_right₀ (by norm_num : (1 : ℚ) < 2)).1 (hlarge.trans_lt a.lt_pow_log2_succ)
    have hk : magScale ew a = 2 ^ ew - 3 := by
      obtain ⟨htop, -⟩ := binaryTop_scale hew
      have := magScale_add_min ew a
      omega
    obtain ⟨hkle, hunit⟩ := magScale_le fw hew hl
    obtain ⟨-, hhigh⟩ := roundedAt_bounds ew fw ha
    have ht : ((2 ^ (fw + 1) : Nat) : ℚ) - 1 / 2 ≤ a.value / 2 ^ magUnit ew fw a := by
      rw [hunit hk, le_div_iff₀ (by positivity), ← binaryBound_eq]
      exact h
    have heven : 2 ^ (fw + 1) % 2 = 0 := by
      rw [pow_succ]
      exact Nat.mul_mod_left _ _
    rw [roundToBinary_eq ha hl]
    exact (scale_add_coeff_top hew hkle hhigh).2 hk ((roundedAt_isRounded a _).eq_of_half_below heven ht hhigh)
  · exact roundToBinary_of_bias_lt ha (not_le.1 hl)

end

/-! ## Signed patterns -/

/-- The sign of a pattern as a factor. -/
def signFactor (sgn : Bool) : ℚ := if sgn then -1 else 1

theorem abs_signFactor_mul (sgn : Bool) (v : ℚ) : |signFactor sgn * v| = |v| := by
  cases sgn <;> simp [signFactor]

/-- The nearest sign-less pattern with the sign of the value is the nearest of all patterns: one of the other sign is
no nearer than zero. -/
theorem IsNearestPattern.signed {ew fw r : Nat} {v : ℚ} (h : IsNearestPattern ew fw r v) (hv : 0 ≤ v) (sgn sgn' : Bool)
    (p : Nat) :
    |signFactor sgn * binaryValue ew fw r - signFactor sgn * v| ≤
        |signFactor sgn' * binaryValue ew fw p - signFactor sgn * v| ∧
      (sgn' ≠ sgn ∨ p ≠ r →
        |signFactor sgn * binaryValue ew fw r - signFactor sgn * v| =
          |signFactor sgn' * binaryValue ew fw p - signFactor sgn * v| → r % 2 = 0) := by
  rw [← mul_sub, abs_signFactor_mul]
  by_cases hs : sgn' = sgn
  · subst hs
    rw [← mul_sub, abs_signFactor_mul]
    obtain ⟨hle, heven⟩ := h p
    exact ⟨hle, fun hne => heven (hne.resolve_left fun hs => hs rfl)⟩
  · have hp := binaryValue_nonneg ew fw p
    have hopp : |signFactor sgn' * binaryValue ew fw p - signFactor sgn * v| = binaryValue ew fw p + v := by
      have : signFactor sgn' = -signFactor sgn := by
        cases sgn <;> cases sgn' <;> simp [signFactor] at hs ⊢
      rw [this, neg_mul, ← neg_add', abs_neg, ← mul_add, abs_signFactor_mul, abs_of_nonneg (by linarith)]
    obtain ⟨hle, heven⟩ := h 0
    rw [binaryValue_zero, zero_sub, abs_neg, abs_of_nonneg hv] at hle heven
    rw [hopp]
    refine ⟨by linarith, fun _ heq => ?_⟩
    by_cases hr : r = 0
    · rw [hr]
    · exact heven (Ne.symm hr) (by linarith)

/-! ## Binary64 patterns -/

/-- The sign of a binary64 pattern is its highest bit. -/
theorem f64Sign_eq (x : F64) : f64Sign x = decide (2 ^ 63 ≤ x.toNat) := by
  have hlt := x.isLt
  rw [f64Sign, ← BitVec.testBit_toNat, Nat.testBit_eq_decide_div_mod_eq]
  congr 1
  rw [eq_iff_iff]
  omega

/-- A binary64 pattern is its sign and its other 63 bits. -/
theorem f64_toNat_eq (x : F64) : x.toNat = (if f64Sign x then 2 ^ 63 else 0) + x.toNat % 2 ^ 63 := by
  have hlt := x.isLt
  rw [f64Sign_eq]
  by_cases h : 2 ^ 63 ≤ x.toNat
  · simp only [h, decide_true, if_true]
    omega
  · simp only [h, decide_false, Bool.false_eq_true, if_false]
    omega

/-- Two patterns with the same sign and the same other bits are equal. -/
theorem f64_ext {x y : F64} (hs : f64Sign x = f64Sign y) (hm : x.toNat % 2 ^ 63 = y.toNat % 2 ^ 63) : x = y := by
  refine BitVec.eq_of_toNat_eq ?_
  rw [f64_toNat_eq x, f64_toNat_eq y, hs, hm]

/-- The exponent and fraction fields are those of the sign-less pattern. -/
theorem f64Exp_eq (x : F64) : f64Exp x = x.toNat % 2 ^ 63 / 2 ^ 52 := by
  unfold f64Exp
  omega

theorem f64Frac_eq (x : F64) : f64Frac x = x.toNat % 2 ^ 63 % 2 ^ 52 := by
  unfold f64Frac
  omega

theorem isFinite_iff (x : F64) : isFinite x = true ↔ x.toNat % 2 ^ 63 < binaryTop 11 52 := by
  have h : isFinite x = true ↔ f64Exp x ≠ 2047 := by
    by_cases hf : f64Frac x = 0 <;> simp [isFinite, isNan, isInf, hf]
  rw [h, f64Exp_eq]
  unfold binaryTop
  omega

theorem isInf_iff (x : F64) : isInf x = true ↔ x.toNat % 2 ^ 63 = binaryTop 11 52 := by
  rw [isInf, Bool.and_eq_true, decide_eq_true_eq, decide_eq_true_eq, f64Exp_eq, f64Frac_eq]
  unfold binaryTop
  omega

/-- The magnitude of a binary64 pattern is the value of its sign-less pattern (R18). -/
theorem f64Mag_value (x : F64) : (f64Mag x).value = binaryValue 11 52 (x.toNat % 2 ^ 63) := by
  have hmin : binaryMin 11 = -1022 := by decide
  unfold f64Mag binaryValue binaryCoeff binaryScale
  rw [f64Exp_eq, f64Frac_eq, hmin]
  split
  · next h0 =>
    rw [h0]
    rfl
  · next h0 =>
    show ((2 ^ 52 + _ : Nat) : ℚ) * 2 ^ (_ - _ : Int) = _
    congr 2
    omega

/-- The rational number of a binary64 pattern is that of its sign-less pattern, with the sign. -/
theorem f64Value_eq (x : F64) : f64Value x = signFactor (f64Sign x) * binaryValue 11 52 (x.toNat % 2 ^ 63) := by
  rw [f64Value, f64Mag_value]
  rfl

/-- The parts of a packed pattern. -/
theorem f64Pack_parts (sgn : Bool) {m : Nat} (hm : m < 2 ^ 63) :
    f64Sign (f64Pack sgn m) = sgn ∧ (f64Pack sgn m).toNat % 2 ^ 63 = m := by
  have ht : (f64Pack sgn m).toNat = (if sgn then 2 ^ 63 else 0) + m := by
    rw [f64Pack, BitVec.toNat_ofNat, Nat.mod_eq_of_lt]
    cases sgn <;> simp <;> omega
  rw [f64Sign_eq, ht]
  cases sgn <;> simp <;> omega

/-- The sign of a pattern does not change whether it is even. -/
theorem f64_even (x : F64) : x.toNat % 2 = x.toNat % 2 ^ 63 % 2 := by omega

/-! ## Patterns of a configuration -/

/-- The magnitude a pattern that is not special stands for (R196). -/
def patternMag (c : CodecCfg) (p : Nat) : Mag :=
  if patternExp c p = 0 then subnormalMag numerics c p else normalMag c p

/-- The rational number of a pattern is its magnitude with its sign. -/
theorem patternValue_eq (c : CodecCfg) (p : Nat) :
    patternValue c p = signFactor (patternSign c p) * (patternMag c p).value := by
  unfold patternValue patternMag
  by_cases h0 : patternExp c p = 0
  · rw [if_pos h0, if_pos h0]
    rfl
  · rw [if_neg h0, if_neg h0]
    rfl

theorem abs_patternValue (c : CodecCfg) (p : Nat) : |patternValue c p| = (patternMag c p).value := by
  rw [patternValue_eq, abs_signFactor_mul, abs_of_nonneg (Mag.value_nonneg _)]

/-- A pattern that is not special decodes to its magnitude, rounded, with its sign (R196, R197). -/
theorem decodeFloat_eq {c : CodecCfg} {p : Nat} (h : patternExp c p ≠ c.specialExp) :
    decodeFloat numerics c p = f64Pack (patternSign c p) (rne64 (patternMag c p)) := by
  unfold decodeFloat patternMag
  by_cases h0 : patternExp c p = 0
  · rw [if_pos h0, if_pos h0]
    rfl
  · rw [if_neg h0, if_neg h, if_neg h0]
    rfl

/-- The mantissa field is the low bits (R182, R195). -/
theorem patternMantissa_eq (c : CodecCfg) (p : Nat) : patternMantissa c p = p % 2 ^ c.mantissaWidth :=
  Nat.and_two_pow_sub_one_eq_mod _ _

/-- The exponent field is the bits above the mantissa (R182, R195). -/
theorem patternExp_eq (c : CodecCfg) (p : Nat) : patternExp c p = p / 2 ^ c.mantissaWidth % 2 ^ c.ebits := by
  rw [patternExp, CodecCfg.exponentMask, Nat.shiftRight_and_distrib, ← Nat.shiftLeft_eq, Nat.shiftLeft_shiftRight,
    Nat.and_two_pow_sub_one_eq_mod, Nat.shiftRight_eq_div_pow]

/-- The sign is the top bit of a signed configuration (R182, R195). -/
theorem patternSign_eq (c : CodecCfg) (p : Nat) : patternSign c p = (c.signed && p.testBit (c.bits - 1)) := by
  unfold patternSign CodecCfg.signMask
  cases c.signed with
  | false => rfl
  | true =>
    simp only [Bool.true_and, if_true, Nat.and_two_pow]
    cases p.testBit (c.bits - 1) <;> simp

/-! ## Binary32 patterns -/

/-- The sign of a binary32 pattern is its highest bit. -/
theorem f32Sign_eq {p : Nat} (hp : p < 2 ^ 32) : patternSign presetF32S p = decide (2 ^ 31 ≤ p) := by
  rw [patternSign_eq]
  show (true && p.testBit 31) = _
  rw [Bool.true_and, Nat.testBit_eq_decide_div_mod_eq]
  congr 1
  rw [eq_iff_iff]
  omega

/-- A binary32 pattern is its sign and its other 31 bits. -/
theorem f32_eq {p : Nat} (hp : p < 2 ^ 32) :
    p = (if patternSign presetF32S p then 2 ^ 31 else 0) + p % 2 ^ 31 := by
  rw [f32Sign_eq hp]
  by_cases h : 2 ^ 31 ≤ p
  · simp only [h, decide_true, if_true]
    omega
  · simp only [h, decide_false, Bool.false_eq_true, if_false]
    omega

theorem f32Exp_eq (p : Nat) : patternExp presetF32S p = p % 2 ^ 31 / 2 ^ 23 := by
  rw [patternExp_eq]
  show p / 2 ^ 23 % 2 ^ 8 = _
  omega

/-- The rational number of a binary32 pattern is that of its sign-less pattern, with the sign. -/
theorem f32Value_eq (p : Nat) :
    patternValue presetF32S p = signFactor (patternSign presetF32S p) * binaryValue 8 23 (p % 2 ^ 31) := by
  have hmin : binaryMin 8 = -126 := by decide
  have hman : patternMantissa presetF32S p = p % 2 ^ 31 % 2 ^ 23 := by
    rw [patternMantissa_eq]
    show p % 2 ^ 23 = _
    omega
  rw [patternValue_eq, patternMag, f32Exp_eq, binaryValue, binaryCoeff, binaryScale, hmin]
  congr 1
  split
  · next h0 =>
    rw [h0]
    show (patternMantissa presetF32S p : ℚ) * 2 ^ (-149 : Int) = _
    rw [hman]
    rfl
  · next h0 =>
    show ((2 ^ 23 + patternMantissa presetF32S p : Nat) : ℚ) *
      2 ^ ((patternExp presetF32S p : Int) - (127 : Nat) - (23 : Nat)) = _
    rw [hman, f32Exp_eq]
    congr 2
    omega

/-- The parts of a binary32 pattern put together from a sign and the other bits. -/
theorem f32_parts (sgn : Bool) {m : Nat} (hm : m < 2 ^ 31) :
    (if sgn then 2 ^ 31 else 0) + m < 2 ^ 32 ∧
      patternSign presetF32S ((if sgn then 2 ^ 31 else 0) + m) = sgn ∧
      ((if sgn then 2 ^ 31 else 0) + m) % 2 ^ 31 = m := by
  have hlt : (if sgn then 2 ^ 31 else 0) + m < 2 ^ 32 := by
    cases sgn <;> simp <;> omega
  refine ⟨hlt, ?_⟩
  rw [f32Sign_eq hlt]
  cases sgn <;> simp <;> omega

/-- A finite value of at least 2^−126 takes the binary32 fast path: its sign beside its rounded magnitude (R190). -/
theorem encodeFloat_f32 {x : F64} (hfin : isFinite x = true) (hx : (2 : ℚ) ^ (-126 : Int) ≤ (f64Mag x).value)
    (hr : rne32 (f64Mag x) < 2 ^ 31) :
    encodeFloat numerics presetF32S x = (if f64Sign x then 2 ^ 31 else 0) + rne32 (f64Mag x) := by
  obtain ⟨hnan, hinf⟩ : isNan x = false ∧ isInf x = false := by simpa [isFinite] using hfin
  have hlog : -126 < (f64Mag x).log2 + 1 :=
    (zpow_lt_zpow_iff_right₀ (by norm_num : (1 : ℚ) < 2)).1 (hx.trans_lt (f64Mag x).lt_pow_log2_succ)
  have hne : (f64Mag x).coeff ≠ 0 := by
    intro h0
    rw [(Mag.value_eq_zero _).2 h0] at hx
    exact absurd hx (not_le.2 (by positivity))
  have hbias : (presetF32S.bias : Int) = 127 := rfl
  have hsub : encodeSub presetF32S x = false := by
    have : ¬ (f64Mag x).log2 ≤ -127 := by omega
    simp [encodeSub, hne, hbias, this]
  have hpath : encodeFloat numerics presetF32S x = (if f64Sign x then 2 ^ 31 else 0) ||| rne32 (f64Mag x) := by
    have hpreset : decide (presetF32S = ⟨32, 8, true⟩) = true := rfl
    simp [encodeFloat, hnan, hinf, hsub, hpreset]
  rw [hpath]
  cases f64Sign x with
  | false => simp
  | true =>
    have := Nat.two_pow_add_eq_or_of_lt hr 1
    simpa using this.symm

end Sys2Proof.Machine

namespace Sys2Proof.Proofs

open Sys2Proof Sys2Proof.Machine

/-! ## The obligations on rounding -/

/-- Settles O48: the fast path is `roundToBinary` at binary32's widths. -/
theorem fastPathPicksTheNearestBinary32 : Obligations.FastPathPicksTheNearestBinary32 := by
  intro x p hfin hx hp
  have hbound : binaryBound 8 23 = 2 ^ 128 - 2 ^ 103 := by
    have hbias : binaryBias 8 = 127 := by decide
    rw [binaryBound, hbias]
    norm_num
  have htop : binaryTop 8 23 = 0x7F800000 := by decide
  rw [← hbound]
  refine ⟨fun hlt => ?_, fun hge => ?_⟩
  · have hr : rne32 (f64Mag x) < binaryTop 8 23 := roundToBinary_lt_top (by norm_num) hlt
    have hr31 : rne32 (f64Mag x) < 2 ^ 31 := by omega
    obtain ⟨-, hsign, hlow⟩ := f32_parts (f64Sign x) hr31
    rw [encodeFloat_f32 hfin hx hr31] at hp
    rw [← hp] at hsign hlow
    refine ⟨by rw [f32Exp_eq]; omega, fun q hq _ => ?_⟩
    have hnear : IsNearestPattern 8 23 (rne32 (f64Mag x)) (f64Mag x).value :=
      roundToBinary_isNearest (by norm_num) (log2_le_of_lt_bound hlt)
    have hxv : f64Value x = signFactor (f64Sign x) * (f64Mag x).value := rfl
    rw [f32Value_eq p, f32Value_eq q, hsign, hlow, hxv]
    obtain ⟨hle, heven⟩ :=
      hnear.signed (Mag.value_nonneg _) (f64Sign x) (patternSign presetF32S q) (q % 2 ^ 31)
    refine ⟨hle, fun hne heq => ?_⟩
    have hdiff : patternSign presetF32S q ≠ f64Sign x ∨ q % 2 ^ 31 ≠ rne32 (f64Mag x) := by
      by_contra hsame
      obtain ⟨hs, hm⟩ := not_or.1 hsame
      exact hne (by rw [f32_eq hq, not_not.1 hs, not_not.1 hm, hp])
    have := heven hdiff heq
    omega
  · have hr : rne32 (f64Mag x) = 0x7F800000 := (roundToBinary_eq_top (by norm_num) hge).trans htop
    rw [hp, encodeFloat_f32 hfin hx (by omega), hr]

/-- Settles O51: decoding is `roundToBinary` at binary64's widths. -/
theorem decodeRoundsToTheNearestBinary64 : Obligations.DecodeRoundsToTheNearestBinary64 := by
  intro c p d _ hspecial hd
  have hbound : binaryBound 11 52 = 2 ^ 1024 - 2 ^ 970 := by
    have hbias : binaryBias 11 = 1023 := by decide
    rw [binaryBound, hbias]
    norm_num
  have htop : binaryTop 11 52 < 2 ^ 63 := by decide
  have hle : rne64 (patternMag c p) ≤ binaryTop 11 52 := by
    rcases lt_or_ge (patternMag c p).value (binaryBound 11 52) with h | h
    · exact (roundToBinary_lt_top (by norm_num) h).le
    · exact (roundToBinary_eq_top (by norm_num) h).le
  obtain ⟨hsign, hlow⟩ := f64Pack_parts (patternSign c p) (hle.trans_lt htop)
  rw [← decodeFloat_eq hspecial, ← hd] at hsign hlow
  rw [abs_patternValue, ← hbound]
  refine ⟨hsign, fun hlt => ?_, fun hge => ?_⟩
  · have hr : rne64 (patternMag c p) < binaryTop 11 52 := roundToBinary_lt_top (by norm_num) hlt
    refine ⟨(isFinite_iff d).2 (hlow ▸ hr), fun y _ => ?_⟩
    have hnear : IsNearestPattern 11 52 (rne64 (patternMag c p)) (patternMag c p).value :=
      roundToBinary_isNearest (by norm_num) (log2_le_of_lt_bound hlt)
    rw [f64Value_eq d, f64Value_eq y, patternValue_eq, hsign, hlow]
    obtain ⟨hle, heven⟩ :=
      hnear.signed (Mag.value_nonneg _) (patternSign c p) (f64Sign y) (y.toNat % 2 ^ 63)
    refine ⟨hle, fun hne heq => ?_⟩
    have hdiff : f64Sign y ≠ patternSign c p ∨ y.toNat % 2 ^ 63 ≠ rne64 (patternMag c p) := by
      by_contra hsame
      obtain ⟨hs, hm⟩ := not_or.1 hsame
      exact hne (f64_ext ((not_not.1 hs).trans hsign.symm) ((not_not.1 hm).trans hlow.symm))
    rw [f64_even, hlow]
    exact heven hdiff heq
  · exact (isInf_iff d).2 (hlow.trans (roundToBinary_eq_top (by norm_num) hge))

end Sys2Proof.Proofs

/-! # The registers: which commands write them, and who can observe them

Which command writes which register is read off its edits. That the contents of unconstructed slots and contexts are
unobservable is a simulation: every sub-step of two runs that agree on the constructed slots ends alike. -/

namespace Sys2Proof.Machine

/-! ## Reading after an update -/

/-- Reading any slot after one is set; a number outside the bank sets nothing. -/
theorem slot_setSlot (s : State) (x : Nat) (c : Slot) (y : Nat) :
    (s.setSlot x c).slot y = if x = y ∧ x < s.nslot then c else s.slot y := by
  split
  · next h =>
    obtain ⟨rfl, hx⟩ := h
    exact slot_setSlot_same hx c
  · next h =>
    by_cases hxy : x = y
    · subst hxy
      have hx : s.nslot ≤ x := by omega
      rw [slot_out hx, slot_out (by rwa [setSlot_nslot])]
    · exact slot_setSlot_ne s c hxy

/-- Reading any context after one is set; a number outside the bank sets nothing. -/
theorem ctx_setCtx (s : State) (j : Nat) (k : Context) (i : Nat) :
    (s.setCtx j k).ctx i = if j = i ∧ j < s.nctx then k else s.ctx i := by
  split
  · next h =>
    obtain ⟨rfl, hj⟩ := h
    exact ctx_setCtx_same hj k
  · next h =>
    by_cases hji : j = i
    · subst hji
      have hj : s.nctx ≤ j := by omega
      rw [ctx_out hj, ctx_out (by rwa [setCtx_nctx])]
    · exact ctx_setCtx_ne s k hji

/-- A register that the new contents of a slot share with the old is kept in every slot. -/
theorem setSlot_keeps {β : Type} (f : Slot → β) {s : State} {x : Nat} {c : Slot} (h : f c = f (s.slot x))
    (y : Nat) :
    f ((s.setSlot x c).slot y) = f (s.slot y) := by
  rw [slot_setSlot]
  split
  · next hxy =>
    obtain ⟨rfl, -⟩ := hxy
    exact h
  · rfl

/-! ## The writers of the registers -/

/-- The registers a command leaves as they were: `VALID` and `LEN` but for NEW and SLICE, `BIG` but for these and
SETEND, each on the destination only, and the contexts but for CNEW (R23, R24, R27, R29, R30). -/
structure RegistersKept (i : Instr) (s t : State) : Prop where
  valid : ∀ x, (i.constructs = false ∨ x ≠ i.primary) → (t.slot x).valid = (s.slot x).valid
  len : ∀ x, (i.constructs = false ∨ x ≠ i.primary) → (t.slot x).len = (s.slot x).len
  big : ∀ x, ((i.constructs = false ∧ i.setsEndianness = false) ∨ x ≠ i.primary) →
    (t.slot x).big = (s.slot x).big
  ctxs : i.configures = false → t.ctxs = s.ctxs

theorem RegistersKept.refl (i : Instr) (s : State) : RegistersKept i s s :=
  ⟨fun _ _ => rfl, fun _ _ => rfl, fun _ _ => rfl, fun _ => rfl⟩

theorem RegistersKept.trans {i : Instr} {s t u : State} (h : RegistersKept i s t) (h' : RegistersKept i t u) :
    RegistersKept i s u :=
  ⟨fun x hx => (h'.valid x hx).trans (h.valid x hx), fun x hx => (h'.len x hx).trans (h.len x hx),
    fun x hx => (h'.big x hx).trans (h.big x hx), fun hc => (h'.ctxs hc).trans (h.ctxs hc)⟩

/-- Setting a slot to contents with the same `VALID`, `LEN` and `BIG` is open to every command. -/
theorem registersKept_setSlot (i : Instr) {s : State} {x : Nat} {c : Slot} (hv : c.valid = (s.slot x).valid)
    (hl : c.len = (s.slot x).len) (hb : c.big = (s.slot x).big) : RegistersKept i s (s.setSlot x c) :=
  ⟨fun y _ => setSlot_keeps Slot.valid hv y, fun y _ => setSlot_keeps Slot.len hl y,
    fun y _ => setSlot_keeps Slot.big hb y, fun _ => rfl⟩

/-- Setting the destination to anything is open to the commands that construct a cursor. -/
theorem registersKept_construct {i : Instr} (hi : i.constructs = true) (s : State) (c : Slot) :
    RegistersKept i s (s.setSlot i.primary c) := by
  have hother {y : Nat} (hy : y ≠ i.primary) : (s.setSlot i.primary c).slot y = s.slot y :=
    slot_setSlot_ne s c hy.symm
  constructor
  case valid => intro y hy; rw [hother (by simpa [hi] using hy)]
  case len => intro y hy; rw [hother (by simpa [hi] using hy)]
  case big => intro y hy; rw [hother (by simpa [hi] using hy)]
  case ctxs => exact fun _ => rfl

/-- Setting `BIG` of the destination is open to SETEND. -/
theorem registersKept_orient {i : Instr} (hi : i.setsEndianness = true) (s : State) (big : Bool) :
    RegistersKept i s (s.setSlot i.primary { s.slot i.primary with big := big }) := by
  constructor
  case valid => exact fun y _ => setSlot_keeps Slot.valid (by rfl) y
  case len => exact fun y _ => setSlot_keeps Slot.len (by rfl) y
  case big =>
    intro y hy
    have hne : i.primary ≠ y := Ne.symm (by simpa [hi] using hy)
    rw [slot_setSlot_ne s _ hne]
  case ctxs => exact fun _ => rfl

theorem Edit.registersKept {i : Instr} {s t : State} (e : Edit i s t) : RegistersKept i s t := by
  cases e with
  | move => exact registersKept_setSlot i rfl rfl rfl
  | store => exact registersKept_setSlot i rfl rfl rfl
  | orient _ dest sets =>
    subst dest
    exact registersKept_orient sets ..
  | create _ dest constructs =>
    subst dest
    exact registersKept_construct constructs ..
  | excerpt _ dest constructs =>
    subst dest
    exact registersKept_construct constructs ..
  | configure _ configures =>
    exact ⟨fun _ _ => rfl, fun _ _ => rfl, fun _ _ => rfl, fun hc => absurd (configures.symm.trans hc) (by decide)⟩

theorem effect_registersKept {i : Instr} {s t : State} (e : Effect i s t) : RegistersKept i s t := by
  induction e with
  | refl => exact .refl i s
  | tail _ e ih => exact ih.trans e.registersKept

/-! ## States the host cannot tell apart -/

section
variable {s t : State}

theorem State.SameToHost.nslot_eq (h : s.SameToHost t) : t.nslot = s.nslot := by
  obtain ⟨hn, -⟩ := h
  exact hn.symm

theorem State.SameToHost.nctx_eq (h : s.SameToHost t) : t.nctx = s.nctx := by
  obtain ⟨-, hn, -⟩ := h
  exact hn.symm

theorem State.SameToHost.cap_eq (h : s.SameToHost t) : t.cap = s.cap := by
  obtain ⟨-, -, hcap, -⟩ := h
  exact hcap.symm

theorem State.SameToHost.cmds_eq (h : s.SameToHost t) : t.cmds = s.cmds := by
  obtain ⟨-, -, -, hcmds, -⟩ := h
  exact hcmds.symm

theorem State.SameToHost.slot (h : s.SameToHost t) (x : Nat) : (s.slot x).SameToHost (t.slot x) := by
  obtain ⟨-, -, -, -, hs, -⟩ := h
  exact hs x

theorem State.SameToHost.ctx (h : s.SameToHost t) (j : Nat) : (s.ctx j).SameToHost (t.ctx j) := by
  obtain ⟨-, -, -, -, -, hk⟩ := h
  exact hk j

theorem State.SameToHost.slotOk_eq (h : s.SameToHost t) (x : Nat) : slotOk x t = slotOk x s := by
  obtain ⟨hv, -⟩ := h.slot x
  rw [slotOk, slotOk, h.nslot_eq, hv]

theorem State.SameToHost.ctxOk_eq (h : s.SameToHost t) (j : Nat) : ctxOk j t = ctxOk j s := by
  obtain ⟨hv, -⟩ := h.ctx j
  rw [ctxOk, ctxOk, h.nctx_eq, hv]

/-- A constructed slot is the same in both. -/
theorem State.SameToHost.slot_eq (h : s.SameToHost t) {x : Nat} (hx : slotOk x s = true) : t.slot x = s.slot x := by
  obtain ⟨-, hv⟩ := slotOk_iff.1 hx
  obtain ⟨-, hc⟩ := h.slot x
  exact (hc hv).symm

/-- A constructed context is the same in both. -/
theorem State.SameToHost.ctx_eq (h : s.SameToHost t) {j : Nat} (hj : ctxOk j s = true) : t.ctx j = s.ctx j := by
  obtain ⟨-, hv⟩ := ctxOk_iff.1 hj
  obtain ⟨-, hc⟩ := h.ctx j
  exact (hc hv).symm

/-- Setting one slot to the same contents keeps two states alike. -/
theorem State.SameToHost.setSlot (h : s.SameToHost t) (x : Nat) (c : Slot) :
    (s.setSlot x c).SameToHost (t.setSlot x c) := by
  obtain ⟨hn, hk, hcap, hcmds, hs, hc⟩ := h
  refine ⟨by rwa [setSlot_nslot, setSlot_nslot], hk, hcap, hcmds, fun y => ?_, hc⟩
  rw [slot_setSlot, slot_setSlot, hn]
  split
  · exact ⟨rfl, fun _ => rfl⟩
  · exact hs y

/-- Setting one context to the same contents keeps two states alike. -/
theorem State.SameToHost.setCtx (h : s.SameToHost t) (j : Nat) (k : Context) :
    (s.setCtx j k).SameToHost (t.setCtx j k) := by
  obtain ⟨hn, hk, hcap, hcmds, hs, hc⟩ := h
  refine ⟨hn, by rwa [setCtx_nctx, setCtx_nctx], hcap, hcmds, hs, fun i => ?_⟩
  rw [ctx_setCtx, ctx_setCtx, hk]
  split
  · exact ⟨rfl, fun _ => rfl⟩
  · exact hc i

/-- Taking the next packet keeps two states alike. -/
theorem State.SameToHost.takeCommand (h : s.SameToHost t) : s.takeCommand.SameToHost t.takeCommand := by
  obtain ⟨hn, hk, hcap, hcmds, hs, hc⟩ := h
  exact ⟨hn, hk, hcap, congrArg List.tail hcmds, hs, hc⟩

end

/-! ## Sub-steps on constructed slots -/

/-- Two states the host cannot tell apart, in which the listed slots pass `slotcheck`. -/
def AlikeOn (xs : List Nat) (s t : State) : Prop := s.SameToHost t ∧ ∀ x ∈ xs, slotOk x s = true

/-- Two sub-steps end alike: in the same way, with the same value or status, and in states alike on the listed slots. -/
inductive SubStep.AlikeOn {α : Type} (xs : List Nat) : SubStep α → SubStep α → Prop
  | done (v : α) {s t : State} (h : Machine.AlikeOn xs s t) : SubStep.AlikeOn xs (.done v s) (.done v t)
  | raised (e : Status) {s t : State} (h : Machine.AlikeOn xs s t) : SubStep.AlikeOn xs (.raised e s) (.raised e t)

section
variable {xs : List Nat} {x : Nat} {s t : State}

/-- What passes `slotcheck` still does after a slot is set to constructed contents. -/
theorem slotOk_setSlot {c : Slot} (hc : c.valid = true) {y : Nat} (hy : slotOk y s = true) :
    slotOk y (s.setSlot x c) = true := by
  obtain ⟨hn, hv⟩ := slotOk_iff.1 hy
  refine slotOk_iff.2 ⟨by rwa [setSlot_nslot], ?_⟩
  rw [slot_setSlot]
  split
  · exact hc
  · exact hv

theorem AlikeOn.setSlot (h : AlikeOn xs s t) {c : Slot} (hc : c.valid = true) :
    AlikeOn xs (s.setSlot x c) (t.setSlot x c) := by
  obtain ⟨hsame, hok⟩ := h
  exact ⟨hsame.setSlot x c, fun y hy => slotOk_setSlot hc (hok y hy)⟩

/-- A listed slot is the same in both states, and constructed. -/
theorem AlikeOn.slot (h : AlikeOn xs s t) (hx : x ∈ xs) : t.slot x = s.slot x ∧ (s.slot x).valid = true := by
  obtain ⟨hsame, hok⟩ := h
  obtain ⟨-, hv⟩ := slotOk_iff.1 (hok x hx)
  exact ⟨hsame.slot_eq (hok x hx), hv⟩

/-- Sub-steps in a row end alike when each does. -/
theorem andThen_alike {α β : Type} {r r' : SubStep α} {f : α → State → SubStep β}
    (hr : SubStep.AlikeOn xs r r') (hf : ∀ v {s t}, AlikeOn xs s t → SubStep.AlikeOn xs (f v s) (f v t)) :
    SubStep.AlikeOn xs (r.andThen f) (r'.andThen f) := by
  cases hr with
  | done v h => exact hf v h
  | raised e h => exact .raised e h

theorem readBits_alike (hx : x ∈ xs) (n : Nat) (h : AlikeOn xs s t) :
    SubStep.AlikeOn xs (readBits x n s) (readBits x n t) := by
  obtain ⟨heq, hv⟩ := h.slot hx
  rcases readBits_eq x n s with ⟨hc, e⟩ | ⟨err, hc, e⟩ <;> rw [e]
  · rw [readBits_ok (heq.symm ▸ hc), heq]
    exact .done _ (h.setSlot hv)
  · rw [readBits_bad (heq.symm ▸ hc)]
    exact .raised err h

theorem writeBits_alike (hx : x ∈ xs) (v n : Nat) (h : AlikeOn xs s t) :
    SubStep.AlikeOn xs (writeBits x v n s) (writeBits x v n t) := by
  obtain ⟨heq, hv⟩ := h.slot hx
  rcases writeBits_eq x v n s with ⟨hc, e⟩ | ⟨err, hc, e⟩ <;> rw [e]
  · rw [writeBits_ok (heq.symm ▸ hc), heq]
    exact .done () (h.setSlot hv)
  · rw [writeBits_bad (heq.symm ▸ hc)]
    exact .raised err h

theorem readChunks_alike (hx : x ∈ xs) (k i v : Nat) (h : AlikeOn xs s t) :
    SubStep.AlikeOn xs (readChunks x k i v s) (readChunks x k i v t) := by
  induction k generalizing i v s t with
  | zero => exact .done v h
  | succ k ih => exact andThen_alike (readBits_alike hx 32 h) fun _ _ _ h' => ih _ _ h'

theorem writeChunks_alike (hx : x ∈ xs) (v k i : Nat) (h : AlikeOn xs s t) :
    SubStep.AlikeOn xs (writeChunks x v k i s) (writeChunks x v k i t) := by
  induction k generalizing i s t with
  | zero => exact .done () h
  | succ k ih => exact andThen_alike (writeBits_alike hx _ 32 h) fun _ _ _ h' => ih _ h'

/-- The copy loop of WRBS ends alike when both its slots are constructed (R250). -/
theorem copyLoop_alike {d src : Nat} (hd : d ∈ xs) (hsrc : src ∈ xs) (fuel rem : Nat) (h : AlikeOn xs s t) :
    SubStep.AlikeOn xs (copyLoop d src fuel rem s) (copyLoop d src fuel rem t) := by
  induction fuel generalizing rem s t with
  | zero => exact .done () h
  | succ fuel ih =>
    by_cases h0 : rem = 0
    · rw [h0, copyLoop_zero, copyLoop_zero]
      exact .done () h
    · rw [copyLoop_chunk s h0, copyLoop_chunk t h0]
      have hchunk : SubStep.AlikeOn xs (copyChunk d src (min 32 rem) s) (copyChunk d src (min 32 rem) t) :=
        andThen_alike (readBits_alike hsrc _ h) fun v _ _ h' => writeBits_alike hd v _ h'
      exact andThen_alike hchunk fun _ _ _ h' => ih _ h'

end

/-! ## Commands answer alike -/

/-- Two commands are answered alike: by next states the host cannot tell apart, with the same response. -/
def AnswersAlike (out out' : Result) : Prop :=
  ∃ s t, out = .next s ∧ out' = .next t ∧ s.SameToHost t ∧ s.resp = t.resp

section
variable {s t : State}

theorem answersAlike_withResp (h : s.SameToHost t) (r : Option Response) :
    AnswersAlike (.next (s.withResp r)) (.next (t.withResp r)) :=
  ⟨_, _, rfl, rfl, h, rfl⟩

theorem answersAlike_respond (h : s.SameToHost t) (v : Operand) : AnswersAlike (respond v s) (respond v t) :=
  answersAlike_withResp h _

theorem answersAlike_raise (h : s.SameToHost t) (e : Status) : AnswersAlike (raise e s) (raise e t) :=
  answersAlike_withResp h _

/-- Sub-steps that end alike are answered alike. -/
theorem answersAlike_answer {α : Type} {xs : List Nat} {r r' : SubStep α} (h : SubStep.AlikeOn xs r r')
    (f : α → Operand) : AnswersAlike (r.answer f) (r'.answer f) := by
  cases h with
  | done v hs =>
    obtain ⟨hsame, -⟩ := hs
    exact answersAlike_respond hsame _
  | raised e hs =>
    obtain ⟨hsame, -⟩ := hs
    exact answersAlike_raise hsame e

/-- A test on what both states share is answered alike when both its outcomes are. -/
theorem answersAlike_ite {c : Prop} [Decidable c] {a a' b b' : Result} (ha : c → AnswersAlike a a')
    (hb : ¬c → AnswersAlike b b') : AnswersAlike (if c then a else b) (if c then a' else b') := by
  by_cases hc : c
  · simpa only [if_pos hc] using ha hc
  · simpa only [if_neg hc] using hb hc

/-- `slotcheck` is answered alike when the body is on a constructed slot, the same in both states. -/
theorem answersAlike_withSlot (h : s.SameToHost t) {x : Nat} {body body' : Result}
    (hbody : slotOk x s = true → t.slot x = s.slot x → AnswersAlike body body') :
    AnswersAlike (withSlot x s body) (withSlot x t body') := by
  unfold withSlot
  rw [h.slotOk_eq]
  exact answersAlike_ite (fun hx => hbody hx (h.slot_eq hx)) fun _ => answersAlike_raise h _

/-- A command that runs a sub-step on its slot is answered alike when the sub-step ends alike. -/
theorem answersAlike_substep (h : s.SameToHost t) {α : Type} {x : Nat} {sub : State → SubStep α}
    (f : α → Operand) (hsub : AlikeOn [x] s t → SubStep.AlikeOn [x] (sub s) (sub t)) :
    AnswersAlike (withSlot x s ((sub s).answer f)) (withSlot x t ((sub t).answer f)) := by
  refine answersAlike_withSlot h fun hx _ => answersAlike_answer (hsub ⟨h, fun y hy => ?_⟩) f
  rwa [List.mem_singleton.1 hy]

theorem execNew_alike (h : s.SameToHost t) (x : Nat) (len : BitVec 64) :
    AnswersAlike (execNew x len s) (execNew x len t) := by
  unfold execNew
  rw [h.nslot_eq, h.cap_eq]
  refine answersAlike_ite (fun _ => answersAlike_raise h _) fun _ => ?_
  exact answersAlike_ite (fun _ => answersAlike_raise h _) fun _ =>
    answersAlike_respond (h.setSlot x _) 0

theorem execSetidx_alike (h : s.SameToHost t) (x : Nat) (bits : BitVec 64) :
    AnswersAlike (execSetidx x bits s) (execSetidx x bits t) := by
  refine answersAlike_withSlot h fun _ heq => ?_
  rw [heq]
  exact answersAlike_ite (fun _ => answersAlike_raise h _) fun _ =>
    answersAlike_respond (h.setSlot x _) 0

theorem execSetend_alike (h : s.SameToHost t) (x : Nat) (big : Bool) :
    AnswersAlike (execSetend x big s) (execSetend x big t) := by
  refine answersAlike_withSlot h fun _ heq => ?_
  rw [heq]
  exact answersAlike_respond (h.setSlot x _) 0

theorem execAlign_alike (h : s.SameToHost t) (x : Nat) : AnswersAlike (execAlign x s) (execAlign x t) := by
  refine answersAlike_withSlot h fun _ heq => ?_
  rw [heq]
  exact answersAlike_respond (h.setSlot x _) 0

theorem execSlice_alike (h : s.SameToHost t) (d src : Nat) (start stop : BitVec 64) :
    AnswersAlike (execSlice d src start stop s) (execSlice d src start stop t) := by
  unfold execSlice
  rw [h.nslot_eq]
  refine answersAlike_ite (fun _ => answersAlike_raise h _) fun _ => answersAlike_withSlot h fun _ heq => ?_
  rw [heq]
  refine answersAlike_ite (fun _ => answersAlike_raise h _) fun _ => ?_
  exact answersAlike_ite (fun _ => answersAlike_raise h _) fun _ =>
    answersAlike_respond (h.setSlot d _) 0

theorem execWrbs_alike (h : s.SameToHost t) (d src : Nat) (nbits : BitVec 64) :
    AnswersAlike (execWrbs d src nbits s) (execWrbs d src nbits t) := by
  refine answersAlike_withSlot h fun hd _ => answersAlike_withSlot h fun hsrc _ => ?_
  refine answersAlike_ite (fun _ => answersAlike_raise h _) fun _ => ?_
  have hboth : AlikeOn [d, src] s t := ⟨h, by simp [hd, hsrc]⟩
  exact answersAlike_answer (copyLoop_alike (by simp) (by simp) _ _ hboth) _

theorem execCnew_alike (h : s.SameToHost t) (j : Nat) (bits ebits : BitVec 8) (signed : Bool) :
    AnswersAlike (execCnew j bits ebits signed s) (execCnew j bits ebits signed t) := by
  unfold execCnew
  rw [h.nctx_eq]
  refine answersAlike_ite (fun _ => answersAlike_raise h _) fun _ => ?_
  exact answersAlike_ite (fun _ => answersAlike_raise h _) fun _ =>
    answersAlike_respond (h.setCtx j _) 0

/-- ENC and DEC look at a context only after it has passed the context check (R312). -/
theorem answersAlike_codec (h : s.SameToHost t) (j : Nat) (f : Context → Operand) :
    AnswersAlike (if ctxOk j s then respond (f (s.ctx j)) s else raise .ctx s)
      (if ctxOk j t then respond (f (t.ctx j)) t else raise .ctx t) := by
  rw [h.ctxOk_eq]
  refine answersAlike_ite (fun hj => ?_) fun _ => answersAlike_raise h _
  rw [h.ctx_eq hj]
  exact answersAlike_respond h _

/-- Every command is answered alike in states the host cannot tell apart. -/
theorem exec_alike (i : Instr) (h : s.SameToHost t) : AnswersAlike (exec i s) (exec i t) := by
  cases shape i with
  | accessor x f run =>
    rw [run, run]
    refine answersAlike_withSlot h fun _ heq => ?_
    rw [heq]
    exact answersAlike_respond h _
  | narrowRead n f _ run =>
    rw [run, run]
    exact answersAlike_substep h f (readBits_alike List.mem_cons_self n)
  | wideRead w f _ run =>
    rw [run, run]
    exact answersAlike_substep h f (readChunks_alike List.mem_cons_self _ _ _)
  | narrowWrite v n _ _ run =>
    rw [run, run]
    exact answersAlike_substep h _ (writeBits_alike List.mem_cons_self v n)
  | wideWrite v w _ _ run =>
    rw [run, run]
    exact answersAlike_substep h _ (writeChunks_alike List.mem_cons_self v _ _)
  | codec j f run =>
    rw [run, run]
    exact answersAlike_codec h j f
  | new x len => exact execNew_alike h x len
  | setidx x bits => exact execSetidx_alike h x bits
  | setend x big => exact execSetend_alike h x big
  | align x => exact execAlign_alike h x
  | slice d src start stop => exact execSlice_alike h d src start stop
  | wrbs d src nbits => exact execWrbs_alike h d src nbits
  | cnew j bits ebits signed => exact execCnew_alike h j bits ebits signed

/-- Every step is answered alike in states the host cannot tell apart: both take the same packet. -/
theorem step_alike (h : s.SameToHost t) : AnswersAlike (step s) (step t) := by
  rcases step_cases s with ⟨h0, e⟩ | ⟨p, rest, err, hp, hd, e⟩ | ⟨p, rest, i, hp, hd, e⟩ <;> rw [e]
  · rw [step_idle (h.cmds_eq.trans h0)]
    exact answersAlike_withResp h none
  · rw [step_illegal (h.cmds_eq.trans hp) hd]
    exact answersAlike_withResp h.takeCommand _
  · rw [step_command (h.cmds_eq.trans hp) hd]
    exact exec_alike i h.takeCommand

end

end Sys2Proof.Machine

namespace Sys2Proof.Proofs

open Sys2Proof Sys2Proof.Machine

/-! ## The obligations on the registers -/

/-- Settles O15: every sub-step runs on slots that have passed `slotcheck`, which are the same in both states. -/
theorem unconstructedContentsAreUnobservable : Obligations.UnconstructedContentsAreUnobservable :=
  fun _ _ h => step_alike h

/-- Settles O13: no edit of a command writes a register that is not the command's to write. -/
theorem registersAreWrittenOnlyByTheirCommands : Obligations.RegistersAreWrittenOnlyByTheirCommands := by
  intro i s t h
  obtain ⟨t', r, rfl, he⟩ := exec_effect h
  obtain ⟨hvalid, hlen, hbig, hctxs⟩ := effect_registersKept he
  exact ⟨fun x hx => ⟨hvalid x hx, hlen x hx⟩, hbig, hctxs⟩

end Sys2Proof.Proofs

/-! # Raw access: where the bits of a value lie

One turn of `MemRead` or `MemWrite` moves one chunk within one byte; the loops append chunks. The commands of several
chunks append whole raw accesses in the same way. -/

namespace Sys2Proof.Machine

/-! ## Bits of joined numbers and of bytes -/

/-- Bits of a number put together from a low part of `n` bits and a high part. -/
theorem testBit_or_shiftLeft {low n : Nat} (h : low < 2 ^ n) (high j : Nat) :
    (low ||| (high <<< n)).testBit j = if j < n then low.testBit j else high.testBit (j - n) := by
  rw [Nat.lor_comm, ← Nat.shiftLeft_add_eq_or_of_lt h, Nat.shiftLeft_eq, Nat.mul_comm,
    Nat.testBit_two_pow_mul_add _ h]

theorem or_shiftLeft_lt {low high n k : Nat} (hl : low < 2 ^ n) (hh : high < 2 ^ k) :
    low ||| (high <<< n) < 2 ^ (n + k) := by
  refine Nat.or_lt_two_pow (hl.trans_le (Nat.pow_le_pow_right (by omega) (by omega))) ?_
  rw [Nat.shiftLeft_eq, Nat.add_comm, Nat.pow_add]
  exact Nat.mul_lt_mul_of_pos_right hh (Nat.two_pow_pos n)

/-- The first bit position within its byte of a chunk of `c` bits at offset `off` (R51). -/
def chunkPos (big : Bool) (off c : Nat) : Nat := if big then 8 - off - c else off

theorem testBit_chunkOf (big : Bool) (byte : Byte) (off c j : Nat) :
    (chunkOf big byte off c).testBit j = (decide (j < c) && byte.getLsbD (chunkPos big off c + j)) := by
  rw [chunkOf, Nat.testBit_and, Nat.testBit_shiftRight, Nat.testBit_two_pow_sub_one, Bool.and_comm]
  rfl

theorem chunkOf_lt (big : Bool) (byte : Byte) (off c : Nat) : chunkOf big byte off c < 2 ^ c :=
  Nat.and_lt_two_pow _ (Nat.sub_lt (Nat.two_pow_pos c) Nat.one_pos)

/-- Merging replaces the `c` bits from position `sh` on and keeps the others (R53). -/
theorem getLsbD_mergeByte (old : Byte) {sh c src : Nat} (h : src < 2 ^ c) {i : Nat} (hi : i < 8) :
    (mergeByte old sh c src).getLsbD i =
      if sh ≤ i ∧ i < sh + c then src.testBit (i - sh) else old.getLsbD i := by
  have hmask : (mergeByte old sh c src).getLsbD i =
      ((old.getLsbD i && !(decide (sh ≤ i) && decide (i - sh < c))) ||
        (decide (sh ≤ i) && src.testBit (i - sh))) := by
    simp only [mergeByte, BitVec.getLsbD_or, BitVec.getLsbD_and, BitVec.getLsbD_not, BitVec.getLsbD_ofNat, hi,
      decide_true, Bool.true_and, Nat.testBit_shiftLeft, Nat.testBit_two_pow_sub_one, ge_iff_le]
  rw [hmask]
  by_cases hs : sh ≤ i
  · by_cases hc : i < sh + c
    · simp [hs, hc, show i - sh < c by omega]
    · have hsrc : src.testBit (i - sh) = false :=
        Nat.testBit_lt_two_pow (h.trans_le (Nat.pow_le_pow_right (by omega) (by omega)))
      simp [hs, hc, hsrc, show ¬i - sh < c by omega]
  · simp [hs]

/-! ## The raw read -/

/-- The `n` bits at bit address `a`, moved in one raw access, hold the value `v` (R54). -/
def Memory.HoldsAt (m : Memory) (big : Bool) (a n v : Nat) : Prop :=
  v < 2 ^ n ∧ ∀ j < n, v.testBit j = Memory.bitAt m big (bitAddress big a n j)

theorem holdsAt_zero (m : Memory) (big : Bool) (a : Nat) : Memory.HoldsAt m big a 0 0 :=
  ⟨Nat.one_pos, fun _ hj => absurd hj (Nat.not_lt_zero _)⟩

/-- A chunk within one byte holds its bits (R51, R52). -/
theorem holdsAt_chunkOf (m : Memory) (big : Bool) {p c : Nat} (h : p % 8 + c ≤ 8) :
    Memory.HoldsAt m big p c (chunkOf big (Memory.read m (p / 8)) (p % 8) c) := by
  refine ⟨chunkOf_lt .., fun j hj => ?_⟩
  have hbyte : bitAddress big p c j / 8 = p / 8 := by
    unfold bitAddress
    split <;> omega
  have hpos : (if big then 7 - bitAddress big p c j % 8 else bitAddress big p c j % 8) =
      chunkPos big (p % 8) c + j := by
    unfold bitAddress chunkPos
    split <;> omega
  rw [testBit_chunkOf, Memory.bitAt, hbyte, hpos, decide_eq_true hj, Bool.true_and]

/-- The value of two adjacent accesses: under Little the first gives the low bits, under Big the high bits (R52). -/
def joinBits (big : Bool) (n1 n2 v1 v2 : Nat) : Nat := if big then (v1 <<< n2) ||| v2 else v1 ||| (v2 <<< n1)

/-- Adjacent accesses join to one of their combined width (R52, R127). -/
theorem holdsAt_joinBits {m : Memory} {big : Bool} {a n1 n2 v1 v2 : Nat} (h1 : Memory.HoldsAt m big a n1 v1)
    (h2 : Memory.HoldsAt m big (a + n1) n2 v2) :
    Memory.HoldsAt m big a (n1 + n2) (joinBits big n1 n2 v1 v2) := by
  obtain ⟨hv1, hb1⟩ := h1
  obtain ⟨hv2, hb2⟩ := h2
  cases big with
  | false =>
    refine ⟨or_shiftLeft_lt hv1 hv2, fun j hj => ?_⟩
    rw [joinBits, if_neg (by decide), testBit_or_shiftLeft hv1]
    split
    · next hlow => exact hb1 j hlow
    · next hhigh =>
      rw [hb2 (j - n1) (by omega)]
      simp only [bitAddress, Bool.false_eq_true, if_false]
      congr 1
      omega
  | true =>
    rw [joinBits, if_pos rfl, Nat.lor_comm]
    refine ⟨Nat.add_comm n1 n2 ▸ or_shiftLeft_lt hv2 hv1, fun j hj => ?_⟩
    rw [testBit_or_shiftLeft hv2]
    split
    · next hlow =>
      rw [hb2 j hlow]
      simp only [bitAddress, if_true]
      congr 1
      omega
    · next hhigh =>
      rw [hb1 (j - n2) (by omega)]
      simp only [bitAddress, if_true]
      congr 1
      omega

/-- The loop of `MemRead` extends what it has read so far to the whole access (R52). -/
theorem memReadLoop_holdsAt {m : Memory} {big : Bool} {a fuel res got rem : Nat} (hf : rem ≤ fuel)
    (h : Memory.HoldsAt m big a got res) :
    Memory.HoldsAt m big a (got + rem) (memReadLoop m big fuel res got rem (a + got)) := by
  induction fuel generalizing res got rem with
  | zero =>
    obtain rfl : rem = 0 := by omega
    exact h
  | succ fuel ih =>
    unfold memReadLoop
    split
    · next h0 => exact h0 ▸ h
    · have hchunk := holdsAt_chunkOf m big (p := a + got) (c := min rem (8 - (a + got) % 8)) (by omega)
      have hrest := ih (rem := rem - min rem (8 - (a + got) % 8)) (by omega) (holdsAt_joinBits h hchunk)
      rwa [Nat.add_assoc got, Nat.add_sub_cancel' (Nat.min_le_left ..), ← Nat.add_assoc a] at hrest

theorem memRead_holdsAt (m : Memory) (big : Bool) (a n : Nat) : Memory.HoldsAt m big a n (memRead m big a n) := by
  have := memReadLoop_holdsAt (le_refl n) (holdsAt_zero m big a)
  rwa [Nat.zero_add] at this

/-! ## The raw write -/

/-- Which bit of an n-bit value at address `a` lies at bit address `b`: the inverse of `bitAddress` (R54). -/
def bitIndex (big : Bool) (a n b : Nat) : Nat := if big then a + n - 1 - b else b - a

theorem bitIndex_bitAddress (big : Bool) (a : Nat) {n j : Nat} (h : j < n) :
    bitIndex big a n (bitAddress big a n j) = j := by
  unfold bitIndex bitAddress
  split <;> omega

/-- The bits of an access lie within it. -/
theorem bitAddress_mem (big : Bool) (a : Nat) {n j : Nat} (h : j < n) :
    a ≤ bitAddress big a n j ∧ bitAddress big a n j < a + n := by
  unfold bitAddress
  split <;> omega

/-- The buffer `m'` is `m` with the low `n` bits of `v` at bit address `a`, moved in one raw access (R53, R54). -/
def Memory.StoresAt (m m' : Memory) (big : Bool) (a n v : Nat) : Prop :=
  ∀ b, Memory.bitAt m' big b =
    if a ≤ b ∧ b < a + n then v.testBit (bitIndex big a n b) else Memory.bitAt m big b

/-- Storing a chunk within one byte (R51, R53). -/
theorem storesAt_mergeByte {m : Memory} (hm : Memory.wf m) (big : Bool) {p c src : Nat} (h : p % 8 + c ≤ 8)
    (hsrc : src < 2 ^ c) :
    Memory.StoresAt m (Memory.write m (p / 8)
      (mergeByte (Memory.read m (p / 8)) (chunkPos big (p % 8) c) c src)) big p c src := by
  intro b
  unfold Memory.bitAt
  rw [read_write hm]
  by_cases hb : p / 8 = b / 8
  · have hpos : (if big then 7 - b % 8 else b % 8) < 8 := by split <;> omega
    rw [if_pos hb, getLsbD_mergeByte _ hsrc hpos, hb]
    cases big with
    | false =>
      simp only [chunkPos, bitIndex, Bool.false_eq_true, if_false]
      refine if_congr (by omega) ?_ rfl
      congr 1
      omega
    | true =>
      simp only [chunkPos, bitIndex, if_true]
      by_cases hin : p ≤ b ∧ b < p + c
      · rw [if_pos hin, if_pos (by omega)]
        congr 1
        omega
      · rw [if_neg hin, if_neg (by omega)]
  · have hout : ¬(p ≤ b ∧ b < p + c) := by omega
    rw [if_neg hb, if_neg hout]

/-- The bits of the value that a turn of `MemWrite` stores after `done` bits (R53): the low end of what is left under
Little, the high end of the value under Big. -/
def chunkSource (big : Bool) (n v done c w : Nat) : Nat :=
  if big then (v >>> (n - done - c)) &&& (2 ^ c - 1) else w &&& (2 ^ c - 1)

/-- What is left of the value under Little after `done` bits; under Big it stays whole (R53). -/
def unstored (big : Bool) (v done : Nat) : Nat := if big then v else v >>> done

/-- One turn of `MemWrite` (R53). -/
theorem memWriteLoop_succ {big : Bool} {n v fuel done rem p w : Nat} (m : Memory) (h : rem ≠ 0) :
    memWriteLoop big n v (fuel + 1) m done rem p w =
      memWriteLoop big n v fuel
        (Memory.write m (p / 8) (mergeByte (Memory.read m (p / 8))
          (chunkPos big (p % 8) (min rem (8 - p % 8))) (min rem (8 - p % 8))
          (chunkSource big n v done (min rem (8 - p % 8)) w)))
        (done + min rem (8 - p % 8)) (rem - min rem (8 - p % 8)) (p + min rem (8 - p % 8))
        (if big then w else w >>> min rem (8 - p % 8)) := by
  rw [memWriteLoop, if_neg h]
  rfl

theorem memWriteLoop_done (big : Bool) (n v fuel : Nat) (m : Memory) (done p w : Nat) :
    memWriteLoop big n v fuel m done 0 p w = m := by
  cases fuel <;> rfl

theorem chunkSource_lt (big : Bool) (n v done c w : Nat) : chunkSource big n v done c w < 2 ^ c := by
  have hmask : 2 ^ c - 1 < 2 ^ c := Nat.sub_lt (Nat.two_pow_pos c) Nat.one_pos
  unfold chunkSource
  split <;> exact Nat.and_lt_two_pow _ hmask

/-- A turn's chunk puts at each of its addresses the bit that the whole value has there (R53, R54). -/
theorem testBit_chunkSource (big : Bool) (v a : Nat) {n done c b : Nat} (hc : done + c ≤ n)
    (hb : a + done ≤ b ∧ b < a + done + c) :
    (chunkSource big n v done c (unstored big v done)).testBit (bitIndex big (a + done) c b) =
      v.testBit (bitIndex big a n b) := by
  cases big with
  | false =>
    have hlt : b - (a + done) < c := by omega
    simp only [chunkSource, unstored, bitIndex, Bool.false_eq_true, if_false, Nat.testBit_and,
      Nat.testBit_shiftRight, Nat.testBit_two_pow_sub_one, decide_eq_true hlt, Bool.and_true]
    congr 1
    omega
  | true =>
    have hlt : a + done + c - 1 - b < c := by omega
    simp only [chunkSource, bitIndex, if_true, Nat.testBit_and,
      Nat.testBit_shiftRight, Nat.testBit_two_pow_sub_one, decide_eq_true hlt, Bool.and_true]
    congr 1
    omega

theorem unstored_add (big : Bool) (v done c : Nat) :
    (if big then unstored big v done else unstored big v done >>> c) = unstored big v (done + c) := by
  cases big with
  | false => exact (Nat.shiftRight_add v done c).symm
  | true => rfl

/-- The loop of `MemWrite` stores the part of the value that is left where the whole value has it (R53). -/
theorem bitAt_memWriteLoop {m : Memory} (hm : Memory.wf m) (big : Bool) (v a b : Nat) {n fuel done rem : Nat}
    (hf : rem ≤ fuel) (hn : done + rem = n) :
    Memory.bitAt (memWriteLoop big n v fuel m done rem (a + done) (unstored big v done)) big b =
      if a + done ≤ b ∧ b < a + n then v.testBit (bitIndex big a n b) else Memory.bitAt m big b := by
  induction fuel generalizing m done rem with
  | zero =>
    obtain rfl : rem = 0 := by omega
    rw [memWriteLoop_done, if_neg (by omega)]
  | succ fuel ih =>
    by_cases h0 : rem = 0
    · subst h0
      rw [memWriteLoop_done, if_neg (by omega)]
    · rw [memWriteLoop_succ m h0, unstored_add]
      generalize hc : min rem (8 - (a + done) % 8) = c
      have hchunk := storesAt_mergeByte hm big (p := a + done) (c := c) (by omega)
        (chunkSource_lt big n v done c (unstored big v done)) b
      rw [Nat.add_assoc a done c, ih (write_wf hm ..) (by omega) (by omega), hchunk]
      by_cases hin : a + done ≤ b ∧ b < a + done + c
      · rw [if_neg (by omega), if_pos hin, if_pos (by omega), testBit_chunkSource big v a (by omega) hin]
      · rw [if_neg hin]
        exact if_congr (by omega) rfl rfl

theorem memWrite_storesAt {m : Memory} (hm : Memory.wf m) (big : Bool) (a n v : Nat) :
    Memory.StoresAt m (memWrite m big a n v) big a n v := by
  intro b
  have := bitAt_memWriteLoop hm big v a b (le_refl n) (Nat.zero_add n)
  rwa [unstored, Nat.shiftRight_zero, ite_self] at this

theorem Memory.StoresAt.inside {m m' : Memory} {big : Bool} {a n v : Nat} (h : Memory.StoresAt m m' big a n v)
    {j : Nat} (hj : j < n) : Memory.bitAt m' big (bitAddress big a n j) = v.testBit j := by
  rw [h, if_pos (bitAddress_mem big a hj), bitIndex_bitAddress big a hj]

theorem Memory.StoresAt.outside {m m' : Memory} {big : Bool} {a n v : Nat} (h : Memory.StoresAt m m' big a n v)
    {b : Nat} (hb : b < a ∨ a + n ≤ b) : Memory.bitAt m' big b = Memory.bitAt m big b := by
  rw [h, if_neg (by omega)]

end Sys2Proof.Machine

namespace Sys2Proof.Proofs

open Sys2Proof Sys2Proof.Machine

/-- Settles O28: every turn of `MemRead` joins the bits of one byte to those before. -/
theorem rawReadTakesTheAddressedBits : Obligations.RawReadTakesTheAddressedBits :=
  fun m big a n => memRead_holdsAt m big a n

/-- Settles O29: every turn of `MemWrite` stores its part of the value within one byte. -/
theorem rawWriteChangesExactlyTheAddressedBits : Obligations.RawWriteChangesExactlyTheAddressedBits := by
  intro m big a n v hm
  have hstored := memWrite_storesAt hm big a n v
  exact ⟨memWrite_wf hm .., fun j hj => hstored.inside hj, fun b hb => hstored.outside hb⟩

end Sys2Proof.Proofs

/-! # Accesses of several chunks

The 64- and 128-bit integers move as chunks of 32 bits, low chunk first, whatever the endianness (R55, R142). -/

namespace Sys2Proof.Machine

/-! ## Chunks of a value -/

/-- Bit r of chunk i lies where a raw access at the chunk's own address has it (R55). -/
theorem chunkedBitAddress_chunk (big : Bool) (a i : Nat) {c r : Nat} (h : r < c) :
    chunkedBitAddress big a c (c * i + r) = bitAddress big (a + c * i) c r := by
  have hc : 0 < c := by omega
  rw [chunkedBitAddress, Nat.mul_add_div hc, Nat.div_eq_of_lt h, Nat.mul_add_mod, Nat.mod_eq_of_lt h, Nat.add_zero]

/-- The bits of the first `k` chunks lie below the next one. -/
theorem chunkedBitAddress_mem (big : Bool) (a : Nat) {c k j : Nat} (h : j < c * k) :
    a ≤ chunkedBitAddress big a c j ∧ chunkedBitAddress big a c j < a + c * k := by
  have hc : 0 < c := Nat.pos_of_ne_zero fun h0 => by simp [h0] at h
  have hchunk : c * (j / c) + c ≤ c * k := by
    rw [← Nat.mul_succ]
    exact Nat.mul_le_mul_left c (Nat.div_lt_of_lt_mul h)
  have hbit := bitAddress_mem big (a + c * (j / c)) (Nat.mod_lt j hc)
  unfold chunkedBitAddress
  omega

/-- A bit of the first `i + 1` chunks is one of the first `i`, or one of chunk `i`. -/
theorem chunk_cases {c i j : Nat} (h : j < c * (i + 1)) : j < c * i ∨ ∃ r < c, j = c * i + r := by
  rw [Nat.mul_succ] at h
  rcases Nat.lt_or_ge j (c * i) with hlt | hge
  · exact .inl hlt
  · exact .inr ⟨j - c * i, by omega, by omega⟩

/-! ## Wide reads -/

theorem holds_zero (m : Memory) (big : Bool) (a c : Nat) : Memory.Holds m big a 0 c 0 :=
  ⟨Nat.one_pos, fun _ hj => absurd hj (Nat.not_lt_zero _)⟩

/-- One more chunk above those read so far (R142). -/
theorem holds_chunk {m : Memory} {big : Bool} {a c i v u : Nat} (h : Memory.Holds m big a (c * i) c v)
    (hu : Memory.HoldsAt m big (a + c * i) c u) :
    Memory.Holds m big a (c * (i + 1)) c (v ||| (u <<< (c * i))) := by
  obtain ⟨hv, hbits⟩ := h
  obtain ⟨hult, hubits⟩ := hu
  refine ⟨Nat.mul_succ c i ▸ or_shiftLeft_lt hv hult, fun j hj => ?_⟩
  rw [testBit_or_shiftLeft hv]
  rcases chunk_cases hj with hlow | ⟨r, hr, rfl⟩
  · rw [if_pos hlow, hbits j hlow]
  · rw [if_neg (by omega), Nat.add_sub_cancel_left, hubits r hr, chunkedBitAddress_chunk big a i hr]

/-- The value of `k` more chunks after the first `i` (R142). -/
theorem chunkValue_holds {m : Memory} {big : Bool} {a k i v : Nat} (h : Memory.Holds m big a (32 * i) 32 v) :
    Memory.Holds m big a (32 * (i + k)) 32 (chunkValue m big (a + 32 * i) k i v) := by
  induction k generalizing i v with
  | zero => exact h
  | succ k ih =>
    have hrest := ih (holds_chunk h (memRead_holdsAt m big (a + 32 * i) 32))
    rw [Nat.mul_succ, ← Nat.add_assoc a, Nat.add_assoc i, Nat.add_comm 1 k] at hrest
    exact hrest

/-- A command that reads `k` chunks, when all of them are there (R142). -/
theorem readCommand_wide {s : State} {x k w : Nat} (hx : slotOk x s = true) (hw : w = 32 * k)
    (h : w ≤ (s.slot x).bitsLeft) :
    ∃ v, Memory.Holds (s.slot x).buf (s.slot x).big (s.slot x).idx w 32 v ∧
      ∀ f, readCommand x (readWide x w) f s =
        .next ((s.setSlot x { s.slot x with idx := (s.slot x).idx + w }).withResp (some ⟨.ok, f v⟩)) := by
  subst hw
  obtain ⟨hn, -⟩ := slotOk_iff.1 hx
  have hvalue : Memory.Holds (s.slot x).buf (s.slot x).big (s.slot x).idx (32 * (0 + k)) 32
      (chunkValue (s.slot x).buf (s.slot x).big (s.slot x).idx k 0 0) := chunkValue_holds (holds_zero ..)
  rw [Nat.zero_add] at hvalue
  refine ⟨_, hvalue, fun f => ?_⟩
  rw [readCommand, withSlot_ok hx, readWide, Nat.mul_div_cancel_left k (by decide), readChunks_ok hn h]
  rfl

/-! ## The result field -/

/-- A zero-extended value as an integer (R16). -/
theorem zext128_eq_ofInt (v w : Nat) :
    zext128 v = BitVec.ofInt 128 (if false = true ∧ 2 ^ w ≤ 2 * v then (v : Int) - 2 ^ w else v) := by
  rw [if_neg (by simp), BitVec.ofInt_natCast]
  rfl

/-- The top bit of a w-bit value says whether it is at least half of 2^w. -/
theorem testBit_top {v w : Nat} (hw : 0 < w) (h : v < 2 ^ w) : v.testBit (w - 1) = true ↔ 2 ^ w ≤ 2 * v := by
  obtain ⟨k, rfl⟩ : ∃ k, w = k + 1 := ⟨w - 1, by omega⟩
  rw [Nat.add_sub_cancel, Nat.pow_succ]
  rcases Nat.lt_or_ge v (2 ^ k) with hlow | hhigh
  · rw [Nat.testBit_lt_two_pow hlow]
    exact iff_of_false Bool.false_ne_true (by omega)
  · exact iff_of_true (Nat.testBit_of_two_pow_le_and_two_pow_add_one_gt hhigh h) (by omega)

/-- A sign-extended value as an integer (R16). -/
theorem sext128_eq_ofInt {v w : Nat} (hw : 0 < w) (hmax : w ≤ 128) (h : v < 2 ^ w) :
    sext128 v w = BitVec.ofInt 128 (if true = true ∧ 2 ^ w ≤ 2 * v then (v : Int) - 2 ^ w else v) := by
  have hpow : 2 ^ w ≤ 2 ^ 128 := Nat.pow_le_pow_right (by decide) hmax
  rw [sext128, ← BitVec.ofInt_natCast]
  by_cases hneg : 2 ^ w ≤ 2 * v
  · rw [if_pos ((testBit_top hw h).2 hneg), if_pos ⟨rfl, hneg⟩]
    have hcast : ((v + 2 ^ 128 - 2 ^ w : Nat) : Int) = (v : Int) - 2 ^ w + (2 ^ 128 : Nat) := by
      rw [Nat.cast_sub (Nat.le_add_left_of_le hpow)]
      push_cast
      ring
    refine BitVec.eq_of_toInt_eq ?_
    rw [BitVec.toInt_ofInt, BitVec.toInt_ofInt, hcast, Int.add_bmod_right]
  · rw [if_neg (mt (testBit_top hw h).1 hneg), if_neg fun hand => hneg hand.2]

/-- A command that reads `k` chunks answers their value as `f` extends it: with the sign if `signed`, else with
zeros (R142). -/
theorem wideRead_returns {i : Instr} {s : State} {x w : Nat} (k : Nat) {signed : Bool} {f : Nat → Operand}
    (run : exec i s = readCommand x (readWide x w) f s)
    (hf : ∀ v < 2 ^ w, f v = BitVec.ofInt 128 (if signed = true ∧ 2 ^ w ≤ 2 * v then (v : Int) - 2 ^ w else v))
    (hx : slotOk x s = true) (hw : w = 32 * k) (h : w ≤ (s.slot x).bitsLeft) :
    ∃ v, Memory.Holds (s.slot x).buf (s.slot x).big (s.slot x).idx w 32 v ∧
      exec i s = .next ((s.setSlot x { s.slot x with idx := (s.slot x).idx + w }).withResp
        (some ⟨.ok, BitVec.ofInt 128 (if signed = true ∧ 2 ^ w ≤ 2 * v then (v : Int) - 2 ^ w else v)⟩)) := by
  obtain ⟨v, ⟨hlt, hbits⟩, hread⟩ := readCommand_wide hx hw h
  exact ⟨v, ⟨hlt, hbits⟩, by rw [run, hread, hf v hlt]⟩

/-! ## Wide writes -/

/-- No chunk stored yet. -/
theorem stores_zero {m : Memory} (hm : Memory.wf m) (big : Bool) (a c v : Nat) : Memory.Stores m m big a 0 c v :=
  ⟨hm, fun _ hj => absurd hj (Nat.not_lt_zero _), fun _ _ => rfl⟩

/-- Chunk i of a value: its bits from c·i on. -/
theorem testBit_chunk (v i : Nat) {c r : Nat} (h : r < c) :
    ((v >>> (c * i)) % 2 ^ c).testBit r = v.testBit (c * i + r) := by
  rw [Nat.testBit_mod_two_pow, decide_eq_true h, Bool.true_and, Nat.testBit_shiftRight]

/-- One more chunk above those stored so far (R142). -/
theorem stores_chunk {m m' : Memory} {big : Bool} {a c i v : Nat} (h : Memory.Stores m m' big a (c * i) c v) :
    Memory.Stores m (memWrite m' big (a + c * i) c ((v >>> (c * i)) % 2 ^ c)) big a (c * (i + 1)) c v := by
  obtain ⟨hwf, hbits, hout⟩ := h
  have hchunk := memWrite_storesAt hwf big (a + c * i) c ((v >>> (c * i)) % 2 ^ c)
  refine ⟨memWrite_wf hwf .., fun j hj => ?_, fun b hb => ?_⟩
  · rcases chunk_cases hj with hlow | ⟨r, hr, rfl⟩
    · obtain ⟨-, hbelow⟩ := chunkedBitAddress_mem big a hlow
      rw [hchunk.outside (.inl hbelow), hbits j hlow]
    · rw [chunkedBitAddress_chunk big a i hr, hchunk.inside hr, testBit_chunk v i hr]
  · rw [Nat.mul_succ] at hb
    rw [hchunk.outside (by omega), hout b (by omega)]

/-- The buffer after `k` more chunks than the first `i` (R142). -/
theorem chunkStore_stores {m m' : Memory} {big : Bool} {a k i v : Nat}
    (h : Memory.Stores m m' big a (32 * i) 32 v) :
    Memory.Stores m (chunkStore m' big (a + 32 * i) k i v) big a (32 * (i + k)) 32 v := by
  induction k generalizing m' i with
  | zero => exact h
  | succ k ih =>
    have hrest := ih (stores_chunk h)
    rw [Nat.mul_succ, ← Nat.add_assoc a, Nat.add_assoc i, Nat.add_comm 1 k] at hrest
    exact hrest

/-- A command that writes `k` chunks, when there is room for all of them (R142). -/
theorem writeCommand_wide {s : State} {x k w : Nat} (v : Nat) (hx : slotOk x s = true)
    (hm : Memory.wf (s.slot x).buf) (hw : w = 32 * k) (h : w ≤ (s.slot x).bitsLeft) :
    ∃ m, Memory.Stores (s.slot x).buf m (s.slot x).big (s.slot x).idx w 32 v ∧
      writeCommand x (writeWide x v w) s =
        .next ((s.setSlot x { s.slot x with buf := m, idx := (s.slot x).idx + w }).withResp (some ⟨.ok, 0⟩)) := by
  subst hw
  obtain ⟨hn, -⟩ := slotOk_iff.1 hx
  have hstored : Memory.Stores (s.slot x).buf
      (chunkStore (s.slot x).buf (s.slot x).big (s.slot x).idx k 0 v) (s.slot x).big (s.slot x).idx
      (32 * (0 + k)) 32 v := chunkStore_stores (i := 0) (stores_zero hm ..)
  rw [Nat.zero_add] at hstored
  refine ⟨_, hstored, ?_⟩
  rw [writeCommand, withSlot_ok hx, writeWide, Nat.mul_div_cancel_left k (by decide), writeChunks_ok hn h]
  rfl

end Sys2Proof.Machine

namespace Sys2Proof.Proofs

open Sys2Proof Sys2Proof.Machine

/-- Settles O35: two or four chunks are read, and the value extended as the command says. -/
theorem wideReadCommandsReturnTheirBits : Obligations.WideReadCommandsReturnTheirBits := by
  intro s x hx p hp hfits
  simp only [List.mem_cons, List.not_mem_nil, or_false] at hp
  rcases hp with rfl | rfl | rfl | rfl
  · exact wideRead_returns 2 rfl (fun v _ => zext128_eq_ofInt v 64) hx rfl hfits
  · exact wideRead_returns 4 rfl (fun v _ => zext128_eq_ofInt v 128) hx rfl hfits
  · exact wideRead_returns 2 rfl (fun _ => sext128_eq_ofInt (w := 64) (by decide) (by decide)) hx rfl hfits
  · exact wideRead_returns 4 rfl (fun _ => sext128_eq_ofInt (w := 128) (by decide) (by decide)) hx rfl hfits

/-- Settles O37: two or four chunks of the operand are written. -/
theorem wideWriteCommandsStoreTheirBits : Obligations.WideWriteCommandsStoreTheirBits := by
  intro s x v u hx hm p hp hfits
  simp only [List.mem_cons, List.not_mem_nil, or_false] at hp
  rcases hp with rfl | rfl | rfl | rfl
  · exact writeCommand_wide (k := 2) v.toNat hx hm rfl hfits
  · exact writeCommand_wide (k := 2) v.toNat hx hm rfl hfits
  · exact writeCommand_wide (k := 4) u.toNat hx hm rfl hfits
  · exact writeCommand_wide (k := 4) u.toNat hx hm rfl hfits

end Sys2Proof.Proofs

/-! # What commands leave in the buffers, and errors that change nothing

Which bytes a command can change is read off its edits. That an error changes nothing holds of a single raw access and
of every command that checks everything first. -/

namespace Sys2Proof.Machine

/-! ## The buffers -/

/-- A command that leaves the buffers constructs no cursor. -/
theorem constructs_of_leavesBuffers {i : Instr} (h : i.leavesBuffers = true) : i.constructs = false := by
  cases i with
  | new | slice => exact Bool.noConfusion h
  | _ => rfl

/-- No edit of a command that leaves the buffers changes a byte (R60). -/
theorem Edit.buf_kept {i : Instr} {s t : State} (e : Edit i s t) (h : i.leavesBuffers = true) (x : Nat) :
    (t.slot x).buf = (s.slot x).buf := by
  have hc : i.constructs = false := constructs_of_leavesBuffers h
  cases e with
  | move => exact setSlot_keeps Slot.buf (by rfl) x
  | orient => exact setSlot_keeps Slot.buf (by rfl) x
  | store _ _ writes => exact absurd (h.symm.trans writes) (by decide)
  | create _ _ constructs => exact absurd (constructs.symm.trans hc) (by decide)
  | excerpt _ _ constructs => exact absurd (constructs.symm.trans hc) (by decide)
  | configure => rfl

theorem effect_buf_kept {i : Instr} {s t : State} (e : Effect i s t) (h : i.leavesBuffers = true) (x : Nat) :
    (t.slot x).buf = (s.slot x).buf := by
  induction e with
  | refl => rfl
  | tail _ e ih => exact (e.buf_kept h x).trans ih

/-- The slot differs from what it was at most in `IDX`. -/
def OnlyIdxMoved (c c' : Slot) : Prop := c' = { c with idx := c'.idx }

theorem OnlyIdxMoved.refl (c : Slot) : OnlyIdxMoved c c := rfl

theorem OnlyIdxMoved.trans {a b c : Slot} (h : OnlyIdxMoved a b) (h' : OnlyIdxMoved b c) : OnlyIdxMoved a c := by
  unfold OnlyIdxMoved at *
  rw [h', h]

/-- In a slot other than the destination an edit can only move `IDX`: the source of WRBS is read (R250). -/
theorem Edit.onlyIdxMoved {i : Instr} {s t : State} (e : Edit i s t) {x : Nat} (hx : x ≠ i.primary) :
    OnlyIdxMoved (s.slot x) (t.slot x) := by
  have hother {y : Nat} (c : Slot) (dest : y = i.primary) : OnlyIdxMoved (s.slot x) ((s.setSlot y c).slot x) := by
    rw [slot_setSlot_ne s c (dest.trans_ne hx.symm)]
    exact .refl _
  cases e with
  | @move y =>
    rw [slot_setSlot]
    split
    · next hxy =>
      obtain ⟨rfl, -⟩ := hxy
      rfl
    · exact .refl _
  | orient _ dest => exact hother _ dest
  | store _ dest => exact hother _ dest
  | create _ dest => exact hother _ dest
  | excerpt _ dest => exact hother _ dest
  | configure => exact .refl _

theorem effect_onlyIdxMoved {i : Instr} {s t : State} (e : Effect i s t) {x : Nat} (hx : x ≠ i.primary) :
    OnlyIdxMoved (s.slot x) (t.slot x) := by
  induction e with
  | refl => exact .refl _
  | tail _ e ih => exact ih.trans (e.onlyIdxMoved hx)

/-! ## Commands that check everything first -/

/-- The outcome is an error that changes nothing else, or a success in a state that meets `post` (R306 (a)). -/
def ErrorsChangeNothing (s : State) (out : Result) (post : State → Prop) : Prop :=
  (∃ e, out = .next (s.withResp (some ⟨e, 0⟩))) ∨ ∃ t v, out = .next (t.withResp (some ⟨.ok, v⟩)) ∧ post t

section
variable {s : State} {post : State → Prop}

theorem errorsChangeNothing_raise (e : Status) : ErrorsChangeNothing s (raise e s) post := .inl ⟨e, rfl⟩

theorem errorsChangeNothing_respond {t : State} (h : post t) (v : Operand) :
    ErrorsChangeNothing s (respond v t) post := .inr ⟨t, v, rfl, h⟩

theorem errorsChangeNothing_ite {c : Prop} [Decidable c] {out out' : Result}
    (h : c → ErrorsChangeNothing s out post) (h' : ¬c → ErrorsChangeNothing s out' post) :
    ErrorsChangeNothing s (if c then out else out') post := by
  split
  · next hc => exact h hc
  · next hc => exact h' hc

theorem ErrorsChangeNothing.mono {out : Result} {post' : State → Prop} (h : ErrorsChangeNothing s out post)
    (hpost : ∀ t, post t → post' t) : ErrorsChangeNothing s out post' := by
  rcases h with herr | ⟨t, v, e, ht⟩
  · exact .inl herr
  · exact .inr ⟨t, v, e, hpost t ht⟩

theorem errorsChangeNothing_withSlot {x : Nat} {body : Result} (h : ErrorsChangeNothing s body post) :
    ErrorsChangeNothing s (withSlot x s body) post :=
  errorsChangeNothing_ite (fun _ => h) fun _ => errorsChangeNothing_raise _

end

/-- SLICE sets its destination or nothing (R108). -/
theorem execSlice_outcome (d t : Nat) (start stop : BitVec 64) (s : State) :
    ErrorsChangeNothing s (execSlice d t start stop s) fun s' => ∃ c, s' = s.setSlot d c := by
  unfold execSlice
  refine errorsChangeNothing_ite (fun _ => errorsChangeNothing_raise _) fun _ => errorsChangeNothing_withSlot ?_
  refine errorsChangeNothing_ite (fun _ => errorsChangeNothing_raise _) fun _ => ?_
  exact errorsChangeNothing_ite (fun _ => errorsChangeNothing_raise _) fun _ =>
    errorsChangeNothing_respond ⟨_, rfl⟩ _

/-- One raw access checks its bounds before anything moves (R121). -/
theorem errorsChangeNothing_readBits (x n : Nat) (f : Nat → Operand) (s : State) :
    ErrorsChangeNothing s ((readBits x n s).answer f) fun _ => True := by
  rcases readBits_eq x n s with ⟨-, e⟩ | ⟨err, -, e⟩ <;> rw [e]
  · exact errorsChangeNothing_respond trivial _
  · exact errorsChangeNothing_raise err

theorem errorsChangeNothing_writeBits (x v n : Nat) (s : State) :
    ErrorsChangeNothing s ((writeBits x v n s).answer fun _ => 0) fun _ => True := by
  rcases writeBits_eq x v n s with ⟨-, e⟩ | ⟨err, -, e⟩ <;> rw [e]
  · exact errorsChangeNothing_respond trivial _
  · exact errorsChangeNothing_raise err

/-- A slot command that cannot fail once its slot has passed `slotcheck`. -/
theorem errorsChangeNothing_slotRespond (x : Nat) (s t : State) (v : Operand) :
    ErrorsChangeNothing s (withSlot x s (respond v t)) fun _ => True :=
  errorsChangeNothing_withSlot (errorsChangeNothing_respond trivial v)

theorem errorsChangeNothing_codec (j : Nat) (s : State) (v : Operand) :
    ErrorsChangeNothing s (if ctxOk j s then respond v s else raise .ctx s) fun _ => True :=
  errorsChangeNothing_ite (fun _ => errorsChangeNothing_respond trivial v) fun _ => errorsChangeNothing_raise _

/-- Two checks before the action: NEW and CNEW (R100, R200). -/
theorem errorsChangeNothing_twoChecks {c c' : Prop} [Decidable c] [Decidable c'] (e e' : Status) (s t : State)
    (v : Operand) :
    ErrorsChangeNothing s (if c then raise e s else if c' then raise e' s else respond v t) fun _ => True :=
  errorsChangeNothing_ite (fun _ => errorsChangeNothing_raise e) fun _ =>
    errorsChangeNothing_ite (fun _ => errorsChangeNothing_raise e') fun _ => errorsChangeNothing_respond trivial v

/-- Every command that is not composite checks everything first, or makes one raw access (R306 (a)). -/
theorem exec_errorsChangeNothing {i : Instr} (h : i.composite = false) (s : State) :
    ErrorsChangeNothing s (exec i s) fun _ => True := by
  cases i with
  | new | cnew => exact errorsChangeNothing_twoChecks ..
  | setidx =>
    exact errorsChangeNothing_withSlot <| errorsChangeNothing_ite (fun _ => errorsChangeNothing_raise _) fun _ =>
      errorsChangeNothing_respond trivial _
  | getidx | setend | getend | bitsleft | getlen | align => exact errorsChangeNothing_slotRespond ..
  | slice d t start stop => exact (execSlice_outcome d t start stop s).mono fun _ _ => trivial
  | rdb | rdbs | rdbool | rdu4 | rdu8 | rdu16 | rdu32 | rdi4 | rdi8 | rdi16 | rdi32 | rdf8 | rdf16 | rdf32
  | rduf8 | rduf16 | rduf32 => exact errorsChangeNothing_withSlot (errorsChangeNothing_readBits ..)
  | wrbu | wrb | wrbool | wru4 | wru8 | wru16 | wru32 | wri4 | wri8 | wri16 | wri32 | wrf8 | wrf16 | wrf32
  | wruf8 | wruf16 | wruf32 => exact errorsChangeNothing_withSlot (errorsChangeNothing_writeBits ..)
  | enc | dec => exact errorsChangeNothing_codec ..
  | rdu64 | rdi64 | wru64 | wri64 | rdu128 | rdi128 | wru128 | wri128 | rdf64 | rduf64 | wrf64 | wruf64
  | wrbs => exact Bool.noConfusion h

end Sys2Proof.Machine

namespace Sys2Proof.Proofs

open Sys2Proof Sys2Proof.Machine

/-- Settles O14: the edits of a command leave the buffers it only reads, SLICE sets its destination only, and WRBS
only moves the index of its source. -/
theorem readsLeaveTheBuffers : Obligations.ReadsLeaveTheBuffers := by
  refine ⟨fun i s t h hi x => ?_, fun d src a b s t h hne => ?_, fun d src nbits s t h hne => ?_⟩
  · obtain ⟨t', r, rfl, he⟩ := exec_effect h
    exact effect_buf_kept he hi x
  · rcases execSlice_outcome d src a b s with ⟨err, e⟩ | ⟨t', v, e, c, rfl⟩
    · cases h.symm.trans e
      rfl
    · cases h.symm.trans e
      exact slot_setSlot_ne s c hne
  · obtain ⟨t', r, rfl, he⟩ := exec_effect h
    exact effect_onlyIdxMoved he hne.symm

/-- Settles O16: a command that is not composite has changed nothing when it ends in an error. -/
theorem failureAtomicCommandsChangeNothing : Obligations.FailureAtomicCommandsChangeNothing := by
  intro i s t r hi h hr herr
  rcases exec_errorsChangeNothing hi s with ⟨err, e⟩ | ⟨t', v, e, -⟩
  · cases h.symm.trans e
    cases hr
    rfl
  · cases h.symm.trans e
    cases hr
    exact absurd rfl herr

end Sys2Proof.Proofs

/-! # The command word

A legal word is an opcode of the map and the fields of its format, with zeros elsewhere, so encoding undoes decoding on
words and decoding undoes encoding. The rows of the map are gone through twice: once for what each row reads, and once
for the row of each command. -/

namespace Sys2Proof

open Sys2Proof.Laws

/-! ## Words under a mask -/

/-- A mask that clears the bits `lo` to `hi − 1` keeps what is below and above them. -/
theorem toNat_and_clear (w : Word) {m : Word} {lo hi : Nat} (hle : lo ≤ hi)
    (hm : ∀ i < 32, m.getLsbD i = (decide (i < lo) || decide (hi ≤ i))) :
    (w &&& m).toNat = 2 ^ hi * (w.toNat / 2 ^ hi) + w.toNat % 2 ^ lo := by
  have hlow : w.toNat % 2 ^ lo < 2 ^ hi :=
    (Nat.mod_lt _ (Nat.two_pow_pos lo)).trans_le (Nat.pow_le_pow_right (by decide) hle)
  refine Nat.eq_of_testBit_eq fun i => ?_
  rw [Nat.testBit_two_pow_mul_add _ hlow, ← BitVec.getLsbD, BitVec.getLsbD_and]
  by_cases hi32 : i < 32
  · rw [hm i hi32]
    split
    · next h => simp [BitVec.getLsbD, Nat.testBit_mod_two_pow, Nat.not_le.2 h, Bool.and_comm]
    · next h =>
      have hhi : hi ≤ i := Nat.le_of_not_lt h
      simp [BitVec.getLsbD, Nat.testBit_div_two_pow, hhi]
  · have hw : w.toNat.testBit i = false := BitVec.getLsbD_of_ge w i (Nat.le_of_not_lt hi32)
    split
    · simp [BitVec.getLsbD, Nat.testBit_mod_two_pow, hw]
    · next h => simp [BitVec.getLsbD, Nat.testBit_div_two_pow, Nat.le_of_not_lt h, hw]

/-- The source field a format reads, 0 where it has none (R72). -/
def Format.sourceOf (f : Format) (p : Packet) : Nat :=
  match f with
  | .cc => p.fieldT
  | .c | .cn | .k => 0

/-- The count field a format reads, 0 where it has none (R72). -/
def Format.countOf (f : Format) (p : Packet) : Nat :=
  match f with
  | .cn => p.fieldN
  | .c | .cc | .k => 0

theorem sourceOf_lt (f : Format) (p : Packet) : f.sourceOf p < 16 := by
  cases f with
  | cc => exact Nat.mod_lt _ (by decide)
  | c | cn | k => exact Nat.zero_lt_succ _

theorem countOf_lt (f : Format) (p : Packet) : f.countOf p < 64 := by
  cases f with
  | cn => exact Nat.mod_lt _ (by decide)
  | c | cc | k => exact Nat.zero_lt_succ _

/-- What is left of a word under the mask of its format is the word without the format's fields (R72). -/
theorem toNat_word_eq (p : Packet) (f : Format) :
    p.word.toNat = (p.word &&& f.mask).toNat + p.fieldS * 2 ^ 8 + f.sourceOf p * 2 ^ 12 + f.countOf p * 2 ^ 16 := by
  have clear_s (w : Word) : (w &&& 0xFFFFF0FF).toNat = 2 ^ 12 * (w.toNat / 2 ^ 12) + w.toNat % 2 ^ 8 :=
    toNat_and_clear w (by decide) (by decide)
  have clear_n (w : Word) : (w &&& 0xFFC0FFFF).toNat = 2 ^ 22 * (w.toNat / 2 ^ 22) + w.toNat % 2 ^ 16 :=
    toNat_and_clear w (by decide) (by decide)
  have clear_st (w : Word) : (w &&& 0xFFFF00FF).toNat = 2 ^ 16 * (w.toNat / 2 ^ 16) + w.toNat % 2 ^ 8 :=
    toNat_and_clear w (by decide) (by decide)
  cases f with
  | c | k =>
    simp only [Format.mask, Format.sourceOf, Format.countOf, Packet.fieldS, clear_s]
    omega
  | cn =>
    have hmask : p.word &&& Format.cn.mask = p.word &&& 0xFFFFF0FF &&& 0xFFC0FFFF := by
      rw [BitVec.and_assoc]
      rfl
    simp only [hmask, Format.sourceOf, Format.countOf, Packet.fieldS, Packet.fieldN, clear_n, clear_s]
    omega
  | cc =>
    simp only [Format.mask, Format.sourceOf, Format.countOf, Packet.fieldS, Packet.fieldT, clear_st]
    omega

/-- A word that matches an opcode under the mask of a format is composed of the opcode and the format's fields
(R71, R72). -/
theorem word_eq_composeWord {p : Packet} {f : Format} {op : Nat} (hop : op < 256)
    (h : p.word &&& f.mask = BitVec.ofNat 32 op) :
    p.word = composeWord op p.fieldS (f.sourceOf p) (f.countOf p) := by
  have hmask : (p.word &&& f.mask).toNat = op := by
    rw [h, BitVec.toNat_ofNat]
    omega
  have hword := toNat_word_eq p f
  rw [hmask] at hword
  rw [composeWord, ← hword, BitVec.ofNat_toNat, BitVec.setWidth_eq]

/-- Such a word holds the opcode in its opcode field. -/
theorem fieldOp_of_mask {p : Packet} {f : Format} {op : Nat} (hop : op < 256)
    (h : p.word &&& f.mask = BitVec.ofNat 32 op) : p.fieldOp = op := by
  have hs : p.fieldS < 16 := Nat.mod_lt _ (by decide)
  obtain ⟨hfield, -, -, -⟩ :=
    composeWord_fields op p.fieldS (f.sourceOf p) (f.countOf p) p.opa p.opb hop hs (sourceOf_lt f p) (countOf_lt f p)
  rwa [← word_eq_composeWord hop h] at hfield

/-! ## The rows of the opcode map -/

/-- No two rows have the same opcode (R75). -/
theorem opcodeMap_nodup : (opcodeMap.map Row.op).Nodup := by decide

theorem op_lt {r : Row} (hr : r ∈ opcodeMap) : r.op < 256 := by
  have h : ∀ op ∈ opcodeMap.map Row.op, op < 256 := by decide
  exact h r.op (List.mem_map_of_mem hr)

/-- A row is the one that looking up its opcode finds. -/
theorem find_row_iff {n : Nat} {r : Row} :
    opcodeMap.find? (fun r => r.op == n) = some r ↔ r ∈ opcodeMap ∧ r.op = n := by
  constructor
  · intro h
    exact ⟨List.mem_of_find?_eq_some h, by simpa using List.find?_some h⟩
  · rintro ⟨hr, rfl⟩
    obtain ⟨r', h⟩ : ∃ r', opcodeMap.find? (fun x => x.op == r.op) = some r' :=
      Option.isSome_iff_exists.1 (List.find?_isSome.2 ⟨r, hr, by simp⟩)
    have hop : r'.op = r.op := by simpa using List.find?_some h
    rw [h, List.inj_on_of_nodup_map opcodeMap_nodup (List.mem_of_find?_eq_some h) hr hop]

/-- The opcodes without a row: those R77 lists. The 256 opcodes are gone through one by one. -/
theorem no_row_iff (n : Nat) (hn : n < 256) :
    (∀ r ∈ opcodeMap, r.op ≠ n) ↔
      n = 0x00 ∨ (0x0A ≤ n ∧ n ≤ 0x0F) ∨ (0x16 ≤ n ∧ n ≤ 0x1F) ∨ n = 0x26 ∨ n = 0x27 ∨ n = 0x2E ∨ n = 0x2F ∨
      n = 0x36 ∨ n = 0x37 ∨ n = 0x3E ∨ n = 0x3F ∨ (0x51 ≤ n ∧ n ≤ 0x5F) ∨ 0x63 ≤ n := by
  rw [← List.forall_mem_map (P := (· ≠ n))]
  revert n
  decide +kernel

/-- A row reads a command with its own opcode, and takes the numbers from its format's fields (R71, R75). -/
def Row.Faithful (r : Row) : Prop :=
  ∀ p, (r.read p).opcode = r.op ∧ (r.read p).primary = p.fieldS ∧ (r.read p).secondary = r.fmt.sourceOf p ∧
    (r.read p).count = r.fmt.countOf p

/-- Every row of the map is faithful: `List.Forall` is the conjunction over the rows, each of which holds by the row's
own reading function. -/
theorem row_faithful {r : Row} (hr : r ∈ opcodeMap) : r.Faithful := by
  have h : opcodeMap.Forall Row.Faithful := by
    repeat' apply And.intro
    all_goals exact fun _ => ⟨rfl, rfl, rfl, rfl⟩
  exact List.forall_iff_forall_mem.1 h r hr

/-! ## Decoding by rows -/

/-- A word that matches a row decodes to what the row reads. -/
theorem decode_of_row {p : Packet} {r : Row} (hr : r ∈ opcodeMap)
    (hm : p.word &&& r.fmt.mask = BitVec.ofNat 32 r.op) : decode p = .ok (r.read p) := by
  have hfind := find_row_iff.2 ⟨hr, (fieldOp_of_mask (op_lt hr) hm).symm⟩
  simp only [decode, hfind, if_pos hm]

/-- Everything `decode` can do: find no row, find one the word does not match, or read the command (R77). -/
theorem decode_cases (p : Packet) :
    ((∀ r ∈ opcodeMap, r.op ≠ p.fieldOp) ∧ decode p = .error .unknownOpcode) ∨
    ∃ r ∈ opcodeMap, r.op = p.fieldOp ∧
      ((p.word &&& r.fmt.mask ≠ BitVec.ofNat 32 r.op ∧ decode p = .error .reservedBits) ∨
        (p.word &&& r.fmt.mask = BitVec.ofNat 32 r.op ∧ decode p = .ok (r.read p))) := by
  cases hfind : opcodeMap.find? (fun r => r.op == p.fieldOp) with
  | none =>
    refine .inl ⟨by simpa using hfind, ?_⟩
    simp only [decode, hfind]
  | some r =>
    obtain ⟨hr, hop⟩ := find_row_iff.1 hfind
    refine .inr ⟨r, hr, hop, ?_⟩
    by_cases hm : p.word &&& r.fmt.mask = BitVec.ofNat 32 r.op
    · exact .inr ⟨hm, decode_of_row hr hm⟩
    · refine .inl ⟨hm, ?_⟩
      simp only [decode, hfind, if_neg hm]

/-- The row behind a decoded command. -/
theorem decode_ok_iff {p : Packet} {i : Instr} :
    decode p = .ok i ↔ ∃ r ∈ opcodeMap, p.word &&& r.fmt.mask = BitVec.ofNat 32 r.op ∧ r.read p = i := by
  constructor
  · intro h
    rcases decode_cases p with ⟨-, e⟩ | ⟨r, hr, -, ⟨-, e⟩ | ⟨hm, e⟩⟩
    · cases h.symm.trans e
    · cases h.symm.trans e
    · exact ⟨r, hr, hm, Except.ok.inj (e.symm.trans h)⟩
  · rintro ⟨r, hr, hm, rfl⟩
    exact decode_of_row hr hm

theorem decode_unknownOpcode_iff {p : Packet} :
    decode p = .error .unknownOpcode ↔ ∀ r ∈ opcodeMap, r.op ≠ p.fieldOp := by
  rcases decode_cases p with ⟨hno, e⟩ | ⟨r, hr, hop, ⟨-, e⟩ | ⟨-, e⟩⟩
  · exact iff_of_true e hno
  · exact iff_of_false (by simp [e]) fun hno => hno r hr hop
  · exact iff_of_false (by simp [e]) fun hno => hno r hr hop

theorem decode_reservedBits_iff {p : Packet} :
    decode p = .error .reservedBits ↔
      ∃ r ∈ opcodeMap, r.op = p.fieldOp ∧ p.word &&& r.fmt.mask ≠ BitVec.ofNat 32 r.op := by
  constructor
  · intro h
    rcases decode_cases p with ⟨-, e⟩ | ⟨r, hr, hop, ⟨hm, -⟩ | ⟨-, e⟩⟩
    · cases h.symm.trans e
    · exact ⟨r, hr, hop, hm⟩
    · cases h.symm.trans e
  · rintro ⟨r, hr, hop, hm⟩
    simp only [decode, find_row_iff.2 ⟨hr, hop⟩, if_neg hm]

/-! ## The row of a command -/

/-- The packet holds the numbers and the operands of the command where R71 and R74 put them. -/
structure Packet.Carries (p : Packet) (i : Instr) : Prop where
  s : p.fieldS = i.primary
  t : p.fieldT = i.secondary
  n : p.fieldN = i.count
  opa : p.opa = encodeOpa i
  opb : p.opb = encodeOpb i

/-- An operand placed in the low bits of a 128-bit field reads back (R74). -/
theorem setWidth_operand {n : Nat} (hn : n ≤ 128) (v : BitVec n) : (v.setWidth 128).setWidth n = v := by
  rw [BitVec.setWidth_setWidth_of_le v hn, BitVec.setWidth_eq]

/-- A boolean operand in bit 0 reads back (R74). -/
theorem getLsbD_boolOperand (b : Bool) : ((BitVec.ofBool b).setWidth 128).getLsbD 0 = b := by
  cases b <;> rfl

/-- The three fields of CNEW's operand read back (R74). -/
theorem cnewOperand_fields (bits ebits : BitVec 8) (signed : Bool) :
    ((BitVec.ofBool signed ++ ebits ++ bits).setWidth 128).extractLsb' 0 8 = bits ∧
    ((BitVec.ofBool signed ++ ebits ++ bits).setWidth 128).extractLsb' 8 8 = ebits ∧
    ((BitVec.ofBool signed ++ ebits ++ bits).setWidth 128).getLsbD 16 = signed := by
  refine ⟨BitVec.eq_of_getLsbD_eq fun j hj => ?_, BitVec.eq_of_getLsbD_eq fun j hj => ?_, ?_⟩
  · have h : j < 128 := by omega
    rw [BitVec.getLsbD_extractLsb', BitVec.getLsbD_setWidth, BitVec.getLsbD_append, Nat.zero_add]
    simp [hj, h]
  · have h : 8 + j < 128 := by omega
    rw [BitVec.getLsbD_extractLsb', BitVec.getLsbD_setWidth, BitVec.getLsbD_append, BitVec.getLsbD_append]
    simp [hj, h]
  · rw [BitVec.getLsbD_setWidth, BitVec.getLsbD_append, BitVec.getLsbD_append]
    simp

/-- The map has a row with the opcode and the format of each command, which reads the command back from any packet that
carries it (R74, R75). -/
theorem find_row_reads (i : Instr) : ∃ r, opcodeMap.find? (fun r => r.op == i.opcode) = some r ∧ r.fmt = formatOf i ∧
    ∀ p : Packet, p.Carries i → r.read p = i := by
  cases i with
  | getidx | getend | bitsleft | getlen | align | rdbool | rdu4 | rdu8 | rdu16 | rdu32 | rdu64 | rdu128 | rdi4 | rdi8
  | rdi16 | rdi32 | rdi64 | rdi128 | rdf8 | rdf16 | rdf32 | rdf64 | rduf8 | rduf16 | rduf32 | rduf64 =>
    exact ⟨_, rfl, rfl, fun p h => by simp only [h.s, Instr.primary]⟩
  | new | setidx | wru4 | wru8 | wru16 | wru32 | wru64 | wri4 | wri8 | wri16 | wri32 | wri64 | wrf8 | wrf16 | wrf32
  | wrf64 | wruf8 | wruf16 | wruf32 | wruf64 | enc =>
    exact ⟨_, rfl, rfl, fun p h => by simp only [h.s, h.opa, Instr.primary, encodeOpa, setWidth_operand, Nat.reduceLeDiff]⟩
  | wru128 | wri128 | dec =>
    exact ⟨_, rfl, rfl, fun p h => by simp only [h.s, h.opa, Instr.primary, encodeOpa]⟩
  | setend | wrbool =>
    exact ⟨_, rfl, rfl, fun p h => by simp only [h.s, h.opa, Instr.primary, encodeOpa, getLsbD_boolOperand]⟩
  | rdb | rdbs =>
    exact ⟨_, rfl, rfl, fun p h => by simp only [h.s, h.n, Instr.primary, Instr.count]⟩
  | wrbu | wrb =>
    exact ⟨_, rfl, rfl, fun p h => by
      simp only [h.s, h.n, h.opa, Instr.primary, Instr.count, encodeOpa, setWidth_operand, Nat.reduceLeDiff]⟩
  | slice =>
    exact ⟨_, rfl, rfl, fun p h => by
      simp only [h.s, h.t, h.opa, h.opb, Instr.primary, Instr.secondary, encodeOpa, encodeOpb,
        setWidth_operand, Nat.reduceLeDiff]⟩
  | wrbs =>
    exact ⟨_, rfl, rfl, fun p h => by
      simp only [h.s, h.t, h.opa, Instr.primary, Instr.secondary, encodeOpa, setWidth_operand, Nat.reduceLeDiff]⟩
  | cnew k bits ebits signed =>
    obtain ⟨hbits, hebits, hsigned⟩ := cnewOperand_fields bits ebits signed
    exact ⟨_, rfl, rfl, fun p h => by simp only [h.s, h.opa, Instr.primary, encodeOpa, hbits, hebits, hsigned]⟩

/-- The word of every well-formed command is its opcode under the mask of its format, and holds its numbers. -/
theorem encodedWord (i : Instr) : EncodedWord.Statement i := by
  cases i with
  | new => exact EncodedWord.new _ _
  | setidx => exact EncodedWord.setidx _ _
  | getidx => exact EncodedWord.getidx _
  | setend => exact EncodedWord.setend _ _
  | getend => exact EncodedWord.getend _
  | bitsleft => exact EncodedWord.bitsleft _
  | getlen => exact EncodedWord.getlen _
  | align => exact EncodedWord.align _
  | slice => exact EncodedWord.slice _ _ _ _
  | rdb => exact EncodedWord.rdb _ _
  | rdbs => exact EncodedWord.rdbs _ _
  | wrbu => exact EncodedWord.wrbu _ _ _
  | wrb => exact EncodedWord.wrb _ _ _
  | rdbool => exact EncodedWord.rdbool _
  | wrbool => exact EncodedWord.wrbool _ _
  | rdu4 => exact EncodedWord.rdu4 _
  | rdu8 => exact EncodedWord.rdu8 _
  | rdu16 => exact EncodedWord.rdu16 _
  | rdu32 => exact EncodedWord.rdu32 _
  | rdu64 => exact EncodedWord.rdu64 _
  | rdu128 => exact EncodedWord.rdu128 _
  | rdi4 => exact EncodedWord.rdi4 _
  | rdi8 => exact EncodedWord.rdi8 _
  | rdi16 => exact EncodedWord.rdi16 _
  | rdi32 => exact EncodedWord.rdi32 _
  | rdi64 => exact EncodedWord.rdi64 _
  | rdi128 => exact EncodedWord.rdi128 _
  | wru4 => exact EncodedWord.wru4 _ _
  | wru8 => exact EncodedWord.wru8 _ _
  | wru16 => exact EncodedWord.wru16 _ _
  | wru32 => exact EncodedWord.wru32 _ _
  | wru64 => exact EncodedWord.wru64 _ _
  | wru128 => exact EncodedWord.wru128 _ _
  | wri4 => exact EncodedWord.wri4 _ _
  | wri8 => exact EncodedWord.wri8 _ _
  | wri16 => exact EncodedWord.wri16 _ _
  | wri32 => exact EncodedWord.wri32 _ _
  | wri64 => exact EncodedWord.wri64 _ _
  | wri128 => exact EncodedWord.wri128 _ _
  | rdf8 => exact EncodedWord.rdf8 _
  | rdf16 => exact EncodedWord.rdf16 _
  | rdf32 => exact EncodedWord.rdf32 _
  | rdf64 => exact EncodedWord.rdf64 _
  | rduf8 => exact EncodedWord.rduf8 _
  | rduf16 => exact EncodedWord.rduf16 _
  | rduf32 => exact EncodedWord.rduf32 _
  | rduf64 => exact EncodedWord.rduf64 _
  | wrf8 => exact EncodedWord.wrf8 _ _
  | wrf16 => exact EncodedWord.wrf16 _ _
  | wrf32 => exact EncodedWord.wrf32 _ _
  | wrf64 => exact EncodedWord.wrf64 _ _
  | wruf8 => exact EncodedWord.wruf8 _ _
  | wruf16 => exact EncodedWord.wruf16 _ _
  | wruf32 => exact EncodedWord.wruf32 _ _
  | wruf64 => exact EncodedWord.wruf64 _ _
  | wrbs => exact EncodedWord.wrbs _ _ _
  | cnew => exact EncodedWord.cnew _ _ _ _
  | enc => exact EncodedWord.enc _ _
  | dec => exact EncodedWord.dec _ _

/-- The packet of a well-formed command carries it. -/
theorem encode_carries {i : Instr} (h : i.WellFormed) : (encode i).Carries i := by
  obtain ⟨-, -, hs, ht, hn⟩ := encodedWord i h
  exact ⟨hs, ht, hn, rfl, rfl⟩

theorem decode_encode {i : Instr} (h : i.WellFormed) : decode (encode i) = .ok i := by
  obtain ⟨r, hfind, hfmt, hread⟩ := find_row_reads i
  obtain ⟨hr, hop⟩ := find_row_iff.1 hfind
  obtain ⟨hmask, -⟩ := encodedWord i h
  rw [← hfmt, ← hop] at hmask
  rw [decode_of_row hr hmask, hread _ (encode_carries h)]

/-- What a row reads is well-formed: its numbers are fields of a word (R71). -/
theorem wellFormed_read {r : Row} (hr : r ∈ opcodeMap) (p : Packet) : (r.read p).WellFormed := by
  obtain ⟨-, hs, ht, hn⟩ := row_faithful hr p
  refine ⟨?_, ?_, ?_⟩
  · rw [hs]
    exact Nat.mod_lt _ (by decide)
  · rw [ht]
    exact sourceOf_lt _ p
  · rw [hn]
    exact countOf_lt _ p

/-- What a row reads from a word that matches it has that word. -/
theorem encodeWord_read {r : Row} (hr : r ∈ opcodeMap) {p : Packet}
    (hm : p.word &&& r.fmt.mask = BitVec.ofNat 32 r.op) : encodeWord (r.read p) = p.word := by
  obtain ⟨hop, hs, ht, hn⟩ := row_faithful hr p
  rw [word_eq_composeWord (op_lt hr) hm, encodeWord, hop, hs, ht, hn, composeWord]

end Sys2Proof

/-! # The statuses a command can raise

Each sub-step raises only what its bounds check answers, and each command adds the statuses of its own checks: the rows
of R307. -/

namespace Sys2Proof.Machine

/-! ## The statuses of sub-steps -/

/-- The sub-step raises no status outside the list. -/
def SubStep.RaisesIn {α : Type} (es : List Status) (r : SubStep α) : Prop :=
  match r with
  | .done _ _ => True
  | .raised e _ => e ∈ es

section
variable {es : List Status}

theorem raisesIn_done {α : Type} (v : α) (s : State) : (SubStep.done v s).RaisesIn es := trivial

theorem raisesIn_raised {α : Type} {e : Status} (h : e ∈ es) (s : State) :
    (SubStep.raised e s : SubStep α).RaisesIn es := h

theorem raisesIn_andThen {α β : Type} {r : SubStep α} {f : α → State → SubStep β} (hr : r.RaisesIn es)
    (hf : ∀ v t, (f v t).RaisesIn es) : (r.andThen f).RaisesIn es := by
  cases r with
  | done v t => exact hf v t
  | raised e t => exact raisesIn_raised hr t

/-- The bounds check of `n` bits answers no status outside the list, whatever the slot. -/
def CheckIn (es : List Status) (n : Nat) : Prop := ∀ c e, check c n = some e → e ∈ es

/-- The check answers one of its two statuses (R121). -/
theorem checkIn_any (n : Nat) : CheckIn [.slot, .width, .exhausted] n := by
  intro c e h
  rcases check_some.1 h with ⟨-, rfl⟩ | ⟨-, -, -, rfl⟩ <;> decide

/-- A legal width is never ERR_WIDTH (R121). -/
theorem checkIn_width {n : Nat} (h1 : 1 ≤ n) (h32 : n ≤ 32) : CheckIn [.slot, .exhausted] n := by
  intro c e h
  rcases check_some.1 h with ⟨hn, -⟩ | ⟨-, -, -, rfl⟩
  · omega
  · decide

theorem readBits_raisesIn {n : Nat} (h : CheckIn es n) (x : Nat) (s : State) : (readBits x n s).RaisesIn es := by
  rcases readBits_eq x n s with ⟨-, e⟩ | ⟨err, hc, e⟩ <;> rw [e]
  · exact raisesIn_done ..
  · exact raisesIn_raised (h _ _ hc) s

theorem writeBits_raisesIn {n : Nat} (h : CheckIn es n) (x v : Nat) (s : State) : (writeBits x v n s).RaisesIn es := by
  rcases writeBits_eq x v n s with ⟨-, e⟩ | ⟨err, hc, e⟩ <;> rw [e]
  · exact raisesIn_done ..
  · exact raisesIn_raised (h _ _ hc) s

end

theorem readChunks_raisesIn (x k j v : Nat) (s : State) : (readChunks x k j v s).RaisesIn [.slot, .exhausted] := by
  induction k generalizing j v s with
  | zero => exact raisesIn_done ..
  | succ k ih =>
    exact raisesIn_andThen (readBits_raisesIn (checkIn_width (by decide) (by decide)) x s) fun _ t => ih _ _ t

theorem writeChunks_raisesIn (x v k j : Nat) (s : State) : (writeChunks x v k j s).RaisesIn [.slot, .exhausted] := by
  induction k generalizing j s with
  | zero => exact raisesIn_done ..
  | succ k ih =>
    exact raisesIn_andThen (writeBits_raisesIn (checkIn_width (by decide) (by decide)) x _ s) fun _ t => ih _ t

/-- A chunk of the copy has 1 to 32 bits (R250). -/
theorem copyLoop_raisesIn (d t fuel rem : Nat) (s : State) :
    (copyLoop d t fuel rem s).RaisesIn [.slot, .exhausted] := by
  induction fuel generalizing rem s with
  | zero => exact raisesIn_done ..
  | succ fuel ih =>
    by_cases h0 : rem = 0
    · rw [h0, copyLoop_zero]
      exact raisesIn_done ..
    · rw [copyLoop_chunk s h0]
      have hwidth : CheckIn [.slot, .exhausted] (min 32 rem) := checkIn_width (by omega) (by omega)
      have hchunk : (copyChunk d t (min 32 rem) s).RaisesIn [.slot, .exhausted] :=
        raisesIn_andThen (readBits_raisesIn hwidth t s) fun v s' => writeBits_raisesIn hwidth d v s'
      exact raisesIn_andThen hchunk fun _ s' => ih _ s'

/-! ## The statuses of commands -/

/-- The outcome is a success, or an error with result 0 and a status of the list (R73, R307). -/
def ErrorsIn (es : List Status) (out : Result) : Prop :=
  ∃ (t : State) (r : Response), out = .next (t.withResp (some r)) ∧ (r.status ≠ .ok → r.res = 0 ∧ r.status ∈ es)

section
variable {es : List Status} {s : State}

theorem errorsIn_respond (v : Operand) (s : State) : ErrorsIn es (respond v s) :=
  ⟨s, _, rfl, fun h => absurd rfl h⟩

theorem errorsIn_raise {e : Status} (h : e ∈ es) (s : State) : ErrorsIn es (raise e s) := ⟨s, _, rfl, fun _ => ⟨rfl, h⟩⟩

theorem errorsIn_answer {α : Type} {r : SubStep α} (h : r.RaisesIn es) (f : α → Operand) :
    ErrorsIn es (r.answer f) := by
  cases r with
  | done v t => exact errorsIn_respond _ t
  | raised e t => exact errorsIn_raise h t

theorem errorsIn_ite {c : Prop} [Decidable c] {out out' : Result} (h : ErrorsIn es out) (h' : ErrorsIn es out') :
    ErrorsIn es (if c then out else out') := by
  split
  · exact h
  · exact h'

theorem errorsIn_withSlot {x : Nat} {body : Result} (h : ErrorsIn (.slot :: es) body) :
    ErrorsIn (.slot :: es) (withSlot x s body) :=
  errorsIn_ite h (errorsIn_raise List.mem_cons_self s)

end

/-- Two checks before the action: NEW and CNEW (R100, R200). -/
theorem errorsIn_twoChecks {c c' : Prop} [Decidable c] [Decidable c'] (e e' : Status) (s t : State) (v : Operand) :
    ErrorsIn [e, e'] (if c then raise e s else if c' then raise e' s else respond v t) :=
  errorsIn_ite (errorsIn_raise (by simp) s) (errorsIn_ite (errorsIn_raise (by simp) s) (errorsIn_respond v t))

theorem execSlice_errorsIn (d t : Nat) (start stop : BitVec 64) (s : State) :
    ErrorsIn [.slot, .slice] (execSlice d t start stop s) := by
  have hslot : ErrorsIn [.slot, .slice] (raise .slot s) := errorsIn_raise (by decide) s
  have hslice : ErrorsIn [.slot, .slice] (raise .slice s) := errorsIn_raise (by decide) s
  unfold execSlice
  exact errorsIn_ite hslot (errorsIn_withSlot (errorsIn_ite hslot (errorsIn_ite hslice (errorsIn_respond ..))))

theorem execWrbs_errorsIn (d t : Nat) (nbits : BitVec 64) (s : State) :
    ErrorsIn [.slot, .exhausted] (execWrbs d t nbits s) :=
  errorsIn_withSlot <| errorsIn_withSlot <| errorsIn_ite (errorsIn_raise (by decide) s) <|
    errorsIn_answer (copyLoop_raisesIn ..) _

/-- Every command raises only the statuses of its row of R307. -/
theorem exec_errorsIn (i : Instr) (s : State) : ErrorsIn i.mayRaise (exec i s) := by
  cases i with
  | new | cnew => exact errorsIn_twoChecks ..
  | setidx =>
    exact errorsIn_withSlot (errorsIn_ite (errorsIn_raise (by decide) s) (errorsIn_respond ..))
  | getidx | setend | getend | bitsleft | getlen | align => exact errorsIn_withSlot (errorsIn_respond ..)
  | slice => exact execSlice_errorsIn ..
  | rdb | rdbs => exact errorsIn_withSlot (errorsIn_answer (readBits_raisesIn (checkIn_any _) _ s) _)
  | wrbu | wrb => exact errorsIn_withSlot (errorsIn_answer (writeBits_raisesIn (checkIn_any _) _ _ s) _)
  | rdbool | rdu4 | rdu8 | rdu16 | rdu32 | rdi4 | rdi8 | rdi16 | rdi32 | rdf8 | rdf16 | rdf32 | rduf8 | rduf16
  | rduf32 =>
    exact errorsIn_withSlot (errorsIn_answer (readBits_raisesIn (checkIn_width (by decide) (by decide)) _ s) _)
  | wrbool | wru4 | wru8 | wru16 | wru32 | wri4 | wri8 | wri16 | wri32 | wrf8 | wrf16 | wrf32 | wruf8 | wruf16
  | wruf32 =>
    exact errorsIn_withSlot (errorsIn_answer (writeBits_raisesIn (checkIn_width (by decide) (by decide)) _ _ s) _)
  | rdu64 | rdu128 | rdi64 | rdi128 | rdf64 | rduf64 =>
    exact errorsIn_withSlot (errorsIn_answer (readChunks_raisesIn ..) _)
  | wru64 | wru128 | wri64 | wri128 | wrf64 | wruf64 =>
    exact errorsIn_withSlot (errorsIn_answer (writeChunks_raisesIn ..) _)
  | wrbs => exact execWrbs_errorsIn ..
  | enc | dec => exact errorsIn_ite (errorsIn_respond ..) (errorsIn_raise List.mem_cons_self s)

/-- ERR_ILLEGAL is no command's: it is in no row of R307. -/
theorem illegal_notMem_mayRaise (i : Instr) : Status.illegal ∉ i.mayRaise := by
  unfold Instr.mayRaise
  split <;> decide

end Sys2Proof.Machine

namespace Sys2Proof.Proofs

open Sys2Proof Sys2Proof.Machine

/-! ## The obligations on encoding and error responses -/

/-- Settles O2: the command's word matches its row, and the row reads back each field and operand. -/
theorem decodeOfEncodeIsTheCommand : Obligations.DecodeOfEncodeIsTheCommand := fun _ h => decode_encode h

/-- Settles O3: a word that matches a row is the row's opcode and the fields the row reads. -/
theorem encodeOfDecodeKeepsTheWord : Obligations.EncodeOfDecodeKeepsTheWord := by
  intro p i h
  obtain ⟨r, hr, hm, rfl⟩ := decode_ok_iff.1 h
  exact ⟨wellFormed_read hr p, encodeWord_read hr hm⟩

/-- Settles O7: by the checks each command makes. -/
theorem errorResponsesObeyTheTables : Obligations.ErrorResponsesObeyTheTables := by
  intro i s t r h hr herr
  obtain ⟨t', r', e, hr'⟩ := exec_errorsIn i s
  cases h.symm.trans e
  cases hr
  exact hr' herr

/-- Settles O4: by the three outcomes of the row lookup, the step on an illegal word, and O7 for a legal one. -/
theorem illegalWordsAreThoseOfRuleR77 : Obligations.IllegalWordsAreThoseOfRuleR77 := by
  refine ⟨fun p => ⟨?_, ?_⟩, fun p => decode_unknownOpcode_iff, fun p => decode_reservedBits_iff, fun p => ?_,
    fun s p rest e hs hd => ?_, fun s p rest i t r hs hd hstep hr hill => ?_⟩
  · rintro ⟨i, h⟩
    obtain ⟨r, hr, hm, -⟩ := decode_ok_iff.1 h
    exact ⟨r, hr, hm⟩
  · rintro ⟨r, hr, hm⟩
    exact ⟨_, decode_of_row hr hm⟩
  · exact decode_unknownOpcode_iff.trans (no_row_iff _ (Nat.mod_lt _ (by decide)))
  · rw [step_illegal hs hd, State.takeCommand, hs]
    rfl
  · rw [step_command hs hd] at hstep
    obtain ⟨-, hmem⟩ := errorResponsesObeyTheTables i s.takeCommand t r hstep hr (by simp [hill])
    rw [hill] at hmem
    exact illegal_notMem_mayRaise i hmem

/-- Settles O1: the four encodings are computed, and decoding undoes them by O2. -/
theorem specWordsDecodeToTheirCommands : Obligations.SpecWordsDecodeToTheirCommands := by
  have hwrbu : encode (.wrbu 2 5 0x16) = ⟨0x00050212, 0x16, 0⟩ := by decide
  have hslice : encode (.slice 1 0 0 0xFFFFFFFFFFFFFFFF) = ⟨0x00000109, 0, 0xFFFFFFFFFFFFFFFF⟩ := by decide
  have hcnew : encode (.cnew 0 8 3 true) = ⟨0x00000060, 0x00010308, 0⟩ := by decide
  have hrdf : encode (.rdf16 3) = ⟨0x00000341, 0, 0⟩ := by decide
  refine ⟨?_, ?_, ?_, ?_, hwrbu, hslice, hcnew, hrdf⟩
  · exact hwrbu ▸ decode_encode (by decide)
  · exact hslice ▸ decode_encode (by decide)
  · exact hcnew ▸ decode_encode (by decide)
  · exact hrdf ▸ decode_encode (by decide)

end Sys2Proof.Proofs

/-! # Cursor control

What each cursor command does once its checks have passed, and with which status it ends where one fails. -/

namespace Sys2Proof.Machine

/-- A command that constructs a cursor ends in a state that differs in that slot and the response only. -/
theorem respond_setSlot_next {s : State} {x : Nat} (h : x < s.nslot) (c : Slot) (v : Operand) :
    ∃ t, respond v (s.setSlot x c) = .next t ∧ t.resp = some ⟨.ok, v⟩ ∧
      t = (s.setSlot x (t.slot x)).withResp t.resp ∧ t.slot x = c := by
  have hslot : ((s.setSlot x c).withResp (some ⟨.ok, v⟩)).slot x = c := slot_setSlot_same h c
  refine ⟨_, respond_eq .., rfl, ?_, hslot⟩
  rw [hslot, withResp_resp]

/-! ## NEW -/

section
variable {s : State} {x : Nat} {len : BitVec 64}

theorem execNew_badSlot (hx : s.nslot ≤ x) : execNew x len s = .next (s.withResp (some ⟨.slot, 0⟩)) := if_pos hx

theorem execNew_tooLong (hx : x < s.nslot) (hlen : s.cap < len.toNat) :
    execNew x len s = .next (s.withResp (some ⟨.capacity, 0⟩)) :=
  (if_neg (Nat.not_le.2 hx)).trans (if_pos hlen)

theorem execNew_ok (hx : x < s.nslot) (hlen : len.toNat ≤ s.cap) :
    execNew x len s =
      respond 0 (s.setSlot x { valid := true, len := len.toNat, idx := 0, big := false, buf := [] }) :=
  (if_neg (Nat.not_le.2 hx)).trans (if_neg (Nat.not_lt.2 hlen))

end

/-! ## The results of the accessors -/

theorem zext128_bigCode (big : Bool) : zext128 (bigCode big) = if big then 1 else 0 := by
  cases big <;> rfl

/-- BITSLEFT and GETIDX together give the end of the buffer (R105). -/
theorem zext128_bitsLeft_add_idx {c : Slot} (h : c.idx ≤ 8 * c.len) :
    zext128 c.bitsLeft + BitVec.ofNat 128 c.idx = BitVec.ofNat 128 (8 * c.len) := by
  rw [zext128, ← BitVec.ofNat_add, Slot.bitsLeft, Nat.sub_add_cancel h]

/-! ## ALIGN -/

theorem dvd_alignedIndex (idx : Nat) : 8 ∣ alignedIndex idx := by
  unfold alignedIndex
  omega

theorem le_alignedIndex (idx : Nat) : idx ≤ alignedIndex idx := Nat.le_add_right ..

theorem alignedIndex_le_add (idx : Nat) : alignedIndex idx ≤ idx + 7 := by
  unfold alignedIndex
  omega

/-! ## SLICE -/

/-- The model's reading of a signed offset is two's complement (R16, R74). -/
theorem signed64_eq_toInt (v : BitVec 64) : signed64 v = v.toInt := by
  have htop : v.toNat.testBit (64 - 1) = true ↔ 2 ^ 64 ≤ 2 * v.toNat := testBit_top (by decide) v.isLt
  rw [signed64, signedValue, BitVec.toInt_eq_toNat_cond]
  by_cases hneg : 2 ^ 64 ≤ 2 * v.toNat
  · rw [if_pos (htop.2 hneg), if_neg (Nat.not_lt.2 hneg)]
    rfl
  · rw [if_neg (mt htop.1 hneg), if_pos (Nat.lt_of_not_le hneg)]

theorem sliceOffset_eq (v : BitVec 64) (len : Nat) :
    sliceOffset v len = if v.toInt < 0 then v.toInt + len else v.toInt := by
  rw [sliceOffset, signed64_eq_toInt]

section
variable {s : State} {d src : Nat} {start stop : BitVec 64} {a b : Int}

/-- SLICE past its slot checks tests the normalised offsets, and either refuses them or constructs the cursor (R108). -/
theorem execSlice_checked (hd : d < s.nslot) (hsrc : slotOk src s = true) (hne : d ≠ src)
    (ha : sliceOffset start (s.slot src).len = a) (hb : sliceOffset stop (s.slot src).len = b) :
    execSlice d src start stop s =
      if 0 ≤ a ∧ a ≤ b ∧ b ≤ (s.slot src).len then
        respond 0 (s.setSlot d { valid := true, len := b.toNat - a.toNat, idx := 0, big := (s.slot src).big,
                                 buf := Memory.slice (s.slot src).buf a.toNat b.toNat })
      else raise .slice s := by
  subst ha hb
  rw [execSlice, if_neg (Nat.not_le.2 hd), withSlot_ok hsrc, if_neg hne]
  dsimp only
  split
  · next hout => rw [if_neg (by omega)]
  · next hin => rw [if_pos (by omega)]

end

end Sys2Proof.Machine

namespace Sys2Proof.Proofs

open Sys2Proof Sys2Proof.Machine

/-! ## The obligations on cursor control -/

/-- Settles O22: the two checks of NEW in order, then the constructed slot read back. -/
theorem newConstructsAZeroedCursor : Obligations.NewConstructsAZeroedCursor := by
  refine fun s x len => ⟨execNew_badSlot, execNew_tooLong, fun hx hlen => ?_⟩
  obtain ⟨t, hnext, hresp, hframe, hslot⟩ := respond_setSlot_next hx _ 0
  refine ⟨t, (execNew_ok hx hlen).trans hnext, hresp, hframe, ?_⟩
  rw [hslot]
  exact ⟨rfl, rfl, rfl, rfl, read_nil⟩

/-- Settles O23: `slotcheck`, then the comparison with the end of the buffer. -/
theorem setidxMovesTheIndexOrFails : Obligations.SetidxMovesTheIndexOrFails := by
  refine fun s x bits => ⟨fun hx => withSlot_bad hx _, fun hx hend => ?_, fun hx hin => ?_⟩
  · exact (withSlot_ok hx _).trans (if_pos hend)
  · exact (withSlot_ok hx _).trans (if_neg (Nat.not_le.2 hin))

/-- Settles O24: an accessor is `slotcheck` and a response that leaves the state. -/
theorem accessorsReportTheRegisters : Obligations.AccessorsReportTheRegisters := by
  refine fun s x => ⟨fun hx i hi => ?_, fun hx => ⟨withSlot_ok hx _, ?_, withSlot_ok hx _, fun hend => ?_⟩⟩
  · simp only [List.mem_cons, List.not_mem_nil, or_false] at hi
    rcases hi with rfl | rfl | rfl | rfl <;> exact withSlot_bad hx _
  · rw [← zext128_bigCode]
    exact withSlot_ok hx _
  · exact ⟨_, withSlot_ok hx _, zext128_bitsLeft_add_idx hend⟩

/-- Settles O25: SETEND has no check of its own after `slotcheck`. -/
theorem setendSetsOnlyTheFlag : Obligations.SetendSetsOnlyTheFlag :=
  fun _ _ _ => ⟨fun hx => withSlot_bad hx _, fun hx => withSlot_ok hx _⟩

/-- Settles O26: the new index is the model's aligned one, a multiple of 8 within 7 bits and not past the end. -/
theorem alignMovesToTheNextByte : Obligations.AlignMovesToTheNextByte :=
  fun _ _ => ⟨fun hx => withSlot_bad hx _, fun hx => ⟨_, withSlot_ok hx _, dvd_alignedIndex _, le_alignedIndex _,
    alignedIndex_le_add _, alignedIndex_le⟩⟩

/-- Settles O27: the bounds test on the normalised offsets decides; a byte of the slice is the byte of the source that
many places after the start. -/
theorem sliceCopiesTheByteRange : Obligations.SliceCopiesTheByteRange := by
  intro s d src start stop a b hd hsrc hne _ ha hb
  have hexec := execSlice_checked hd hsrc hne ((sliceOffset_eq ..).trans ha.symm) ((sliceOffset_eq ..).trans hb.symm)
  refine ⟨fun hin => ?_, fun hout => hexec.trans (if_neg hout)⟩
  obtain ⟨t, hnext, hresp, hframe, hslot⟩ := respond_setSlot_next hd _ 0
  refine ⟨t, (hexec.trans (if_pos hin)).trans hnext, hresp, hframe, ?_⟩
  rw [hslot]
  refine ⟨rfl, ?_, rfl, rfl, fun i (hi : i < b.toNat - a.toNat) => ?_⟩
  · show ((b.toNat - a.toNat : Nat) : Int) = b - a
    omega
  · show Memory.read (Memory.slice _ _ _) i = _
    rw [read_slice, if_pos (by omega)]

end Sys2Proof.Proofs

/-! # Raw bits

What one raw access of a command reads, stores, or refuses, and how accesses to the same buffer follow one another. -/

namespace Sys2Proof.Machine

/-! ## Raw accesses one after another -/

/-- The bits of an access determine the value it holds. -/
theorem Memory.HoldsAt.unique {m : Memory} {big : Bool} {a n v v' : Nat} (h : Memory.HoldsAt m big a n v)
    (h' : Memory.HoldsAt m big a n v') : v = v' := by
  obtain ⟨hlt, hbits⟩ := h
  obtain ⟨hlt', hbits'⟩ := h'
  refine Nat.eq_of_testBit_eq fun j => ?_
  rcases Nat.lt_or_ge j n with hj | hj
  · rw [hbits j hj, hbits' j hj]
  · have hpow : 2 ^ n ≤ 2 ^ j := Nat.pow_le_pow_right (by decide) hj
    rw [Nat.testBit_lt_two_pow (hlt.trans_le hpow), Nat.testBit_lt_two_pow (hlt'.trans_le hpow)]

/-- A stored value is held where it was stored. -/
theorem Memory.StoresAt.holdsAt {m m' : Memory} {big : Bool} {a n v : Nat} (h : Memory.StoresAt m m' big a n v)
    (hv : v < 2 ^ n) : Memory.HoldsAt m' big a n v :=
  ⟨hv, fun _ hj => (h.inside hj).symm⟩

theorem memRead_memWrite {m : Memory} (hm : Memory.wf m) (big : Bool) (a : Nat) {n v : Nat} (hv : v < 2 ^ n) :
    memRead (memWrite m big a n v) big a n = v :=
  (memRead_holdsAt ..).unique ((memWrite_storesAt hm big a n v).holdsAt hv)

/-- Two consecutive reads are one of the combined width (R127). -/
theorem memRead_add (m : Memory) (big : Bool) (a n1 n2 : Nat) :
    memRead m big a (n1 + n2) = joinBits big n1 n2 (memRead m big a n1) (memRead m big (a + n1) n2) :=
  (memRead_holdsAt ..).unique (holdsAt_joinBits (memRead_holdsAt ..) (memRead_holdsAt ..))

/-- Every bit address of an access is that of one of its bits. -/
theorem bitAddress_bitIndex (big : Bool) {a n b : Nat} (h : a ≤ b ∧ b < a + n) :
    bitIndex big a n b < n ∧ bitAddress big a n (bitIndex big a n b) = b := by
  unfold bitIndex bitAddress
  split <;> omega

/-- A buffer that holds a value and is otherwise another is that other with the value stored. -/
theorem Memory.HoldsAt.storesAt {m m' : Memory} {big : Bool} {a n v : Nat} (h : Memory.HoldsAt m' big a n v)
    (hout : ∀ b, b < a ∨ a + n ≤ b → Memory.bitAt m' big b = Memory.bitAt m big b) :
    Memory.StoresAt m m' big a n v := by
  intro b
  obtain ⟨-, hbits⟩ := h
  by_cases hin : a ≤ b ∧ b < a + n
  · obtain ⟨hlt, haddr⟩ := bitAddress_bitIndex big hin
    rw [if_pos hin, hbits _ hlt, haddr]
  · rw [if_neg hin, hout b (by omega)]

/-- Storing beside an access keeps what it holds. -/
theorem Memory.HoldsAt.of_storesAt {m m' : Memory} {big : Bool} {a n v a' n' v' : Nat}
    (h : Memory.HoldsAt m big a n v) (hs : Memory.StoresAt m m' big a' n' v') (hout : a + n ≤ a' ∨ a' + n' ≤ a) :
    Memory.HoldsAt m' big a n v := by
  obtain ⟨hlt, hbits⟩ := h
  refine ⟨hlt, fun j hj => ?_⟩
  have hmem := bitAddress_mem big a hj
  rw [hbits j hj, hs.outside (by omega)]

/-- Adjacent stores join to one of their combined width (R53, R127). -/
theorem storesAt_joinBits {m m' m'' : Memory} {big : Bool} {a n1 n2 v1 v2 : Nat}
    (h1 : Memory.StoresAt m m' big a n1 v1) (h2 : Memory.StoresAt m' m'' big (a + n1) n2 v2) (hv1 : v1 < 2 ^ n1)
    (hv2 : v2 < 2 ^ n2) : Memory.StoresAt m m'' big a (n1 + n2) (joinBits big n1 n2 v1 v2) := by
  have hfirst : Memory.HoldsAt m'' big a n1 v1 := (h1.holdsAt hv1).of_storesAt h2 (.inl (le_refl _))
  refine (holdsAt_joinBits hfirst (h2.holdsAt hv2)).storesAt fun b hb => ?_
  rw [h2.outside (by omega), h1.outside (by omega)]

/-- Every bit of every byte has a bit address (R51). -/
theorem exists_bit_address (big : Bool) (k : Nat) {i : Nat} (hi : i < 8) :
    ∃ b, b / 8 = k ∧ (if big then 7 - b % 8 else b % 8) = i := by
  cases big with
  | false => exact ⟨8 * k + i, by omega, by simp only [Bool.false_eq_true, if_false]; omega⟩
  | true => exact ⟨8 * k + (7 - i), by omega, by simp only [if_true]; omega⟩

/-- Two canonical buffers with the same bits are equal. -/
theorem bitAt_ext {m m' : Memory} {big : Bool} (h : Memory.wf m) (h' : Memory.wf m')
    (hbits : ∀ b, Memory.bitAt m big b = Memory.bitAt m' big b) : m = m' := by
  refine wf_ext h h' fun k => BitVec.eq_of_getLsbD_eq fun i hi => ?_
  obtain ⟨b, hbyte, hpos⟩ := exists_bit_address big k hi
  have hbit := hbits b
  rwa [Memory.bitAt, Memory.bitAt, hbyte, hpos] at hbit

/-- Two consecutive writes leave the buffer of one of the combined width (R127). -/
theorem memWrite_memWrite {m : Memory} (hm : Memory.wf m) (big : Bool) (a : Nat) {n1 n2 v1 v2 : Nat}
    (hv1 : v1 < 2 ^ n1) (hv2 : v2 < 2 ^ n2) :
    memWrite (memWrite m big a n1 v1) big (a + n1) n2 v2 = memWrite m big a (n1 + n2) (joinBits big n1 n2 v1 v2) := by
  have hm1 : Memory.wf (memWrite m big a n1 v1) := memWrite_wf hm ..
  have htwo := storesAt_joinBits (memWrite_storesAt hm big a n1 v1) (memWrite_storesAt hm1 big (a + n1) n2 v2) hv1 hv2
  have hone := memWrite_storesAt hm big a (n1 + n2) (joinBits big n1 n2 v1 v2)
  exact bitAt_ext (memWrite_wf hm1 ..) (memWrite_wf hm ..) fun b => (htwo b).trans (hone b).symm

/-! ## Commands of one raw access -/

/-- A raw read, as one chunk (R54). -/
theorem memRead_holds (m : Memory) (big : Bool) (a n : Nat) : Memory.Holds m big a n n (memRead m big a n) := by
  have hone := holds_chunk (i := 0) (holds_zero m big a n) (memRead_holdsAt m big a n)
  rwa [Nat.mul_zero, Nat.shiftLeft_zero, Nat.zero_or, Nat.zero_add, Nat.mul_one] at hone

/-- A raw write of the low bits of a value, as one chunk (R53, R54). -/
theorem memWrite_stores {m : Memory} (hm : Memory.wf m) (big : Bool) (a n v : Nat) :
    Memory.Stores m (memWrite m big a n (v % 2 ^ n)) big a n n v := by
  have hone := stores_chunk (i := 0) (stores_zero hm big a n v)
  rwa [Nat.mul_zero, Nat.shiftRight_zero, Nat.add_zero, Nat.zero_add, Nat.mul_one] at hone

section
variable {s : State} {x n : Nat}

/-- A command that reads `n` bits, when they are there (R120). -/
theorem readCommand_raw (hx : slotOk x s = true) (h : check (s.slot x) n = none) (f : Nat → Operand) :
    readCommand x (readBits x n) f s =
      .next ((s.setSlot x { s.slot x with idx := (s.slot x).idx + n }).withResp
        (some ⟨.ok, f (memRead (s.slot x).buf (s.slot x).big (s.slot x).idx n)⟩)) := by
  rw [readCommand, withSlot_ok hx, readBits_ok h]
  rfl

/-- A command that reads `n` bits, when the bounds check fails (R121). -/
theorem readCommand_refused {e : Status} (hx : slotOk x s = true) (h : check (s.slot x) n = some e)
    (f : Nat → Operand) : readCommand x (readBits x n) f s = .next (s.withResp (some ⟨e, 0⟩)) := by
  rw [readCommand, withSlot_ok hx, readBits_bad h]
  rfl

/-- A command that writes `n` bits, when there is room for them (R120). -/
theorem writeCommand_raw (hx : slotOk x s = true) (h : check (s.slot x) n = none) (v : Nat) :
    writeCommand x (writeBits x v n) s =
      .next ((s.setSlot x { s.slot x with
        buf := memWrite (s.slot x).buf (s.slot x).big (s.slot x).idx n (v % 2 ^ n)
        idx := (s.slot x).idx + n }).withResp (some ⟨.ok, 0⟩)) := by
  rw [writeCommand, withSlot_ok hx, writeBits_ok h]
  rfl

/-- A command that writes `n` bits, when the bounds check fails (R121). -/
theorem writeCommand_refused {e : Status} (hx : slotOk x s = true) (h : check (s.slot x) n = some e) (v : Nat) :
    writeCommand x (writeBits x v n) s = .next (s.withResp (some ⟨e, 0⟩)) := by
  rw [writeCommand, withSlot_ok hx, writeBits_bad h]
  rfl

/-- The four raw commands when the bounds check fails: its status, and nothing else changed (R121, R306 (a)). -/
theorem exec_raw_refused {v : BitVec 32} {i : Instr} {e : Status} (hx : slotOk x s = true)
    (hi : i ∈ [Instr.rdb x n, .rdbs x n, .wrbu x n v, .wrb x n v]) (h : check (s.slot x) n = some e) :
    exec i s = .next (s.withResp (some ⟨e, 0⟩)) := by
  simp only [List.mem_cons, List.not_mem_nil, or_false] at hi
  rcases hi with rfl | rfl | rfl | rfl
  · exact readCommand_refused hx h _
  · exact readCommand_refused hx h _
  · exact writeCommand_refused hx h _
  · exact writeCommand_refused hx h _

end

/-! ## The result of RDBS -/

/-- Bits 31 to n set above an n-bit value add 2^32 − 2^n to it (R123). -/
theorem or_ones_above {v n : Nat} (hn : n ≤ 32) (hv : v < 2 ^ n) : v ||| (2 ^ 32 - 2 ^ n) = v + (2 ^ 32 - 2 ^ n) := by
  have hones : 2 ^ 32 - 2 ^ n = (2 ^ (32 - n) - 1) <<< n := by
    rw [Nat.shiftLeft_eq, Nat.sub_mul, ← Nat.pow_add, Nat.sub_add_cancel hn, Nat.one_mul]
  rw [hones, Nat.lor_comm, ← Nat.shiftLeft_add_eq_or_of_lt hv, Nat.add_comm]

/-- The extension to 32 bits adds 2^32 − 2^n to a value with its top bit set; for n = 32 that is 0 (R123). -/
theorem extendBits32_eq {v n : Nat} (h1 : 1 ≤ n) (hn : n ≤ 32) (hv : v < 2 ^ n) :
    extendBits32 v n = if 2 * v < 2 ^ n then v else v + (2 ^ 32 - 2 ^ n) := by
  have htop := testBit_top h1 hv
  unfold extendBits32
  by_cases hlow : 2 * v < 2 ^ n
  · rw [if_pos hlow, if_neg fun hand => Nat.not_le.2 hlow (htop.1 hand.2)]
  · rw [if_neg hlow]
    by_cases h32 : n = 32
    · subst h32
      simp
    · rw [if_pos ⟨h32, htop.2 (Nat.not_lt.1 hlow)⟩, or_ones_above hn hv]

/-- Both extensions of RDBS together give the n-bit two's complement number (R123). -/
theorem sext128_extendBits32 {v n : Nat} (h1 : 1 ≤ n) (hn : n ≤ 32) (hv : v < 2 ^ n) :
    sext128 (extendBits32 v n) 32 = BitVec.ofInt 128 (if 2 * v < 2 ^ n then (v : Int) else (v : Int) - 2 ^ n) := by
  have hpow : 2 ^ n ≤ 2 ^ 32 := Nat.pow_le_pow_right (by decide) hn
  rw [extendBits32_eq h1 hn hv]
  split
  · next hlow => rw [sext128_eq_ofInt (by decide) (by decide) (by omega), if_neg (by omega)]
  · next hhigh =>
    rw [sext128_eq_ofInt (by decide) (by decide) (by omega), if_pos ⟨rfl, by omega⟩, Nat.cast_add,
      Nat.cast_sub hpow]
    congr 1
    push_cast
    ring

/-! ## Commands issued one after another -/

/-- A command that sets its slot and answers OK gives the host its result, and the slot stands for the next command. -/
theorem issue_setSlot {i : Instr} {s : State} {x : Nat} {c : Slot} {r : Operand} (hx : slotOk x s = true)
    (hc : c.valid = true) (h : exec i s = .next ((s.setSlot x c).withResp (some ⟨.ok, r⟩))) :
    ∃ t, issue i s = .done r t ∧ slotOk x t = true ∧ t.slot x = c := by
  obtain ⟨hn, -⟩ := slotOk_iff.1 hx
  refine ⟨(s.setSlot x c).withResp (some ⟨.ok, r⟩), ?_, slotOk_setSlot hc hx, slot_setSlot_same hn c⟩
  rw [issue, h]
  rfl

section
variable {s : State} {x n : Nat} {c : Slot}

theorem issue_setidx {a : BitVec 64} (hx : slotOk x s = true) (hs : s.slot x = c) (h : a.toNat < 8 * c.len) :
    ∃ t, issue (.setidx x a) s = .done 0 t ∧ slotOk x t = true ∧ t.slot x = { c with idx := a.toNat } := by
  subst hs
  obtain ⟨-, hvalid⟩ := slotOk_iff.1 hx
  obtain ⟨-, -, hmove⟩ := Proofs.setidxMovesTheIndexOrFails s x a
  exact issue_setSlot (c := { s.slot x with idx := a.toNat }) hx hvalid (hmove hx h)

theorem issue_wrbu (v : BitVec 32) (hx : slotOk x s = true) (hs : s.slot x = c) (h : check c n = none) :
    ∃ t, issue (.wrbu x n v) s = .done 0 t ∧ slotOk x t = true ∧
      t.slot x = { c with buf := memWrite c.buf c.big c.idx n (v.toNat % 2 ^ n), idx := c.idx + n } := by
  subst hs
  obtain ⟨-, hvalid⟩ := slotOk_iff.1 hx
  exact issue_setSlot (i := .wrbu x n v) (c := { s.slot x with buf := _, idx := _ }) hx hvalid
    (writeCommand_raw hx h v.toNat)

theorem issue_rdb (hx : slotOk x s = true) (hs : s.slot x = c) (h : check c n = none) :
    ∃ t, issue (.rdb x n) s = .done (zext128 (memRead c.buf c.big c.idx n)) t ∧ slotOk x t = true ∧
      t.slot x = { c with idx := c.idx + n } := by
  subst hs
  obtain ⟨-, hvalid⟩ := slotOk_iff.1 hx
  exact issue_setSlot (i := .rdb x n) (c := { s.slot x with idx := _ }) hx hvalid (readCommand_raw hx h zext128)

end

end Sys2Proof.Machine

namespace Sys2Proof.Proofs

open Sys2Proof Sys2Proof.Machine

/-! ## The obligations on raw bits -/

/-- Settles O30: the four commands answer OK in turn, and the read finds the bits the write stored. -/
theorem rawRoundTrip : Obligations.RawRoundTrip := by
  intro s x n a v hx hm h1 hn hfits hv
  have hin : a.toNat < 8 * (s.slot x).len := by omega
  have hroom : ∀ m, check { s.slot x with buf := m, idx := a.toNat } n = none := fun m =>
    check_none.2 ⟨h1, hn, Nat.le_sub_of_add_le' hfits⟩
  obtain ⟨s1, e1, hx1, hs1⟩ := issue_setidx hx rfl hin
  obtain ⟨s2, e2, hx2, hs2⟩ := issue_wrbu v hx1 hs1 (hroom _)
  obtain ⟨s3, e3, hx3, hs3⟩ := issue_setidx hx2 hs2 hin
  obtain ⟨s4, e4, -, -⟩ := issue_rdb hx3 hs3 (hroom _)
  dsimp only at e4
  rw [Nat.mod_eq_of_lt hv, memRead_memWrite hm _ _ hv] at e4
  refine ⟨s4, ?_⟩
  simp only [e1, e2, e3, SubStep.andThen]
  exact e4

/-- Settles O31: adjacent raw accesses join, low part first under Little and high part first under Big. -/
theorem consecutiveRawAccessesCompose : Obligations.ConsecutiveRawAccessesCompose :=
  fun m a n1 n2 _ _ hm _ _ _ hv1 hv2 => ⟨memWrite_memWrite hm false a hv1 hv2, memWrite_memWrite hm true a hv1 hv2,
    memRead_add m false a n1 n2, memRead_add m true a n1 n2⟩

/-- Settles O32: both commands make the same raw read and differ in how they extend its value. -/
theorem rawReadCommandsReturnTheirBits : Obligations.RawReadCommandsReturnTheirBits := by
  intro s x n hx h1 hn hleft
  have hcheck : check (s.slot x) n = none := check_none.2 ⟨h1, hn, hleft⟩
  obtain ⟨hlt, hbits⟩ := memRead_holds (s.slot x).buf (s.slot x).big (s.slot x).idx n
  refine ⟨_, ⟨hlt, hbits⟩, readCommand_raw hx hcheck zext128, ?_⟩
  rw [← sext128_extendBits32 h1 hn hlt]
  exact readCommand_raw hx hcheck fun v => sext128 (extendBits32 v n) 32

/-- Settles O33: both commands write the operand's pattern as it stands. -/
theorem rawWriteCommandsStoreTheirBits : Obligations.RawWriteCommandsStoreTheirBits := by
  intro s x n v hx hm h1 hn hleft
  have hcheck : check (s.slot x) n = none := check_none.2 ⟨h1, hn, hleft⟩
  refine ⟨_, memWrite_stores hm .., fun i hi => ?_⟩
  simp only [List.mem_cons, List.not_mem_nil, or_false] at hi
  rcases hi with rfl | rfl
  · exact writeCommand_raw hx hcheck v.toNat
  · exact writeCommand_raw hx hcheck v.toNat

/-- Settles O19: the bounds check fails, with the status of the width test first. -/
theorem rawAccessErrorsChangeNothing : Obligations.RawAccessErrorsChangeNothing := by
  refine fun s x n v hx i hi => ⟨fun hwidth => ?_, fun ⟨h1, hn, hleft⟩ => ?_⟩
  · exact exec_raw_refused hx hi (check_some.2 (.inl ⟨by omega, rfl⟩))
  · exact exec_raw_refused hx hi (check_some.2 (.inr ⟨h1, hn, hleft, rfl⟩))

end Sys2Proof.Proofs

/-! # Booleans and integers

A narrow command is one raw access, which fits or is refused whole; a wide one that does not fit keeps the chunks that
fit (R141, R142). -/

namespace Sys2Proof.Machine

/-! ## Narrow commands -/

section
variable {i : Instr} {s : State} {x w : Nat}

/-- A narrow reading command: refused whole when bits are missing, else the value as `f` extends it (R141, R306 (a)). -/
theorem narrowRead_answers {signed : Bool} {f : Nat → Operand}
    (run : exec i s = readCommand x (readNarrow x w) f s)
    (hf : ∀ v < 2 ^ w, f v = BitVec.ofInt 128 (if signed = true ∧ 2 ^ w ≤ 2 * v then (v : Int) - 2 ^ w else v))
    (hx : slotOk x s = true) (hw : 1 ≤ w ∧ w ≤ 32) :
    ((s.slot x).bitsLeft < w → exec i s = .next (s.withResp (some ⟨.exhausted, 0⟩))) ∧
    (w ≤ (s.slot x).bitsLeft →
      ∃ v, Memory.Holds (s.slot x).buf (s.slot x).big (s.slot x).idx w w v ∧
        exec i s = .next ((s.setSlot x { s.slot x with idx := (s.slot x).idx + w }).withResp
          (some ⟨.ok, BitVec.ofInt 128 (if signed = true ∧ 2 ^ w ≤ 2 * v then (v : Int) - 2 ^ w else v)⟩))) := by
  obtain ⟨h1, h32⟩ := hw
  refine ⟨fun hshort => ?_, fun hfits => ?_⟩
  · exact run.trans (readCommand_refused hx (check_some.2 (.inr ⟨h1, h32, hshort, rfl⟩)) f)
  · obtain ⟨hlt, hbits⟩ := memRead_holds (s.slot x).buf (s.slot x).big (s.slot x).idx w
    refine ⟨_, ⟨hlt, hbits⟩, ?_⟩
    rw [← hf _ hlt]
    exact run.trans (readCommand_raw hx (check_none.2 ⟨h1, h32, hfits⟩) f)

/-- A narrow writing command: refused whole when there is no room, else the value stored (R141, R306 (a)). -/
theorem narrowWrite_stores {v : Nat} (run : exec i s = writeCommand x (writeNarrow x v w) s)
    (hx : slotOk x s = true) (hm : Memory.wf (s.slot x).buf) (hw : 1 ≤ w ∧ w ≤ 32) :
    ((s.slot x).bitsLeft < w → exec i s = .next (s.withResp (some ⟨.exhausted, 0⟩))) ∧
    (w ≤ (s.slot x).bitsLeft →
      ∃ m, Memory.Stores (s.slot x).buf m (s.slot x).big (s.slot x).idx w w v ∧
        exec i s = .next ((s.setSlot x { s.slot x with buf := m, idx := (s.slot x).idx + w }).withResp
          (some ⟨.ok, 0⟩))) := by
  obtain ⟨h1, h32⟩ := hw
  rw [funext (writeNarrow_eq x v w)] at run
  refine ⟨fun hshort => ?_, fun hfits => ⟨_, memWrite_stores hm .., ?_⟩⟩
  · exact run.trans (writeCommand_refused hx (check_some.2 (.inr ⟨h1, h32, hshort, rfl⟩)) v)
  · exact run.trans (writeCommand_raw hx (check_none.2 ⟨h1, h32, hfits⟩) v)

end

theorem boolBit_eq_toNat (b : Bool) : boolBit b = b.toNat := by
  cases b <;> rfl

/-! ## Wide commands without room for every chunk -/

section
variable {s : State} {x k w : Nat}

/-- A command that reads `k` chunks, when some are missing: those that are there are consumed (R142, R306 (b)). -/
theorem readCommand_wide_short (hx : slotOk x s = true) (hw : w = 32 * k) (h : (s.slot x).bitsLeft < w)
    (f : Nat → Operand) :
    readCommand x (readWide x w) f s = .next ((s.setSlot x { s.slot x with
      idx := (s.slot x).idx + 32 * ((s.slot x).bitsLeft / 32) }).withResp (some ⟨.exhausted, 0⟩)) := by
  subst hw
  obtain ⟨hn, -⟩ := slotOk_iff.1 hx
  rw [readCommand, withSlot_ok hx, readWide, Nat.mul_div_cancel_left k (by decide), readChunks_bad hn h]
  rfl

/-- A command that writes `k` chunks, when there is no room for some: the low ones that fit stay stored (R142,
R306 (b)). -/
theorem writeCommand_wide_short (v : Nat) (hx : slotOk x s = true) (hm : Memory.wf (s.slot x).buf)
    (hw : w = 32 * k) (h : (s.slot x).bitsLeft < w) :
    ∃ m, Memory.Stores (s.slot x).buf m (s.slot x).big (s.slot x).idx (32 * ((s.slot x).bitsLeft / 32)) 32 v ∧
      writeCommand x (writeWide x v w) s = .next ((s.setSlot x { s.slot x with
        buf := m, idx := (s.slot x).idx + 32 * ((s.slot x).bitsLeft / 32) }).withResp (some ⟨.exhausted, 0⟩)) := by
  subst hw
  obtain ⟨hn, -⟩ := slotOk_iff.1 hx
  have hstored := chunkStore_stores (i := 0) (k := (s.slot x).bitsLeft / 32)
    (stores_zero hm (s.slot x).big (s.slot x).idx 32 v)
  rw [Nat.zero_add] at hstored
  refine ⟨_, hstored, ?_⟩
  rw [writeCommand, withSlot_ok hx, writeWide, Nat.mul_div_cancel_left k (by decide), writeChunks_bad hn h]
  rfl

end

end Sys2Proof.Machine

namespace Sys2Proof.Proofs

open Sys2Proof Sys2Proof.Machine

/-! ## The obligations on booleans and integers -/

/-- Settles O20: every command listed reads two or four chunks. -/
theorem wideReadsConsumeTheChunksThatFit : Obligations.WideReadsConsumeTheChunksThatFit := by
  intro s x hx p hp hshort
  simp only [List.mem_cons, List.not_mem_nil, or_false] at hp
  rcases hp with rfl | rfl | rfl | rfl | rfl | rfl
  · exact readCommand_wide_short (k := 2) hx rfl hshort _
  · exact readCommand_wide_short (k := 2) hx rfl hshort _
  · exact readCommand_wide_short (k := 2) hx rfl hshort _
  · exact readCommand_wide_short (k := 2) hx rfl hshort _
  · exact readCommand_wide_short (k := 4) hx rfl hshort _
  · exact readCommand_wide_short (k := 4) hx rfl hshort _

/-- Settles O21: every command listed writes two or four chunks, of its operand or of the operand's encoding. -/
theorem wideWritesKeepTheChunksThatFit : Obligations.WideWritesKeepTheChunksThatFit := by
  intro s x v u hx hm p hp hshort
  simp only [List.mem_cons, List.not_mem_nil, or_false] at hp
  rcases hp with rfl | rfl | rfl | rfl | rfl | rfl
  · exact writeCommand_wide_short (k := 2) v.toNat hx hm rfl hshort
  · exact writeCommand_wide_short (k := 2) v.toNat hx hm rfl hshort
  · exact writeCommand_wide_short (k := 2) (encodeFloat numerics presetF64S v) hx hm rfl hshort
  · exact writeCommand_wide_short (k := 2) (encodeFloat numerics presetF64U v) hx hm rfl hshort
  · exact writeCommand_wide_short (k := 4) u.toNat hx hm rfl hshort
  · exact writeCommand_wide_short (k := 4) u.toNat hx hm rfl hshort

/-- Settles O34: one raw read each, the value extended with zeros or with the sign as the command says. -/
theorem narrowReadCommandsReturnTheirBits : Obligations.NarrowReadCommandsReturnTheirBits := by
  intro s x hx p hp
  simp only [List.mem_cons, List.not_mem_nil, or_false] at hp
  rcases hp with rfl | rfl | rfl | rfl | rfl | rfl | rfl | rfl | rfl
  · exact narrowRead_answers (w := 1) rfl (fun v _ => zext128_eq_ofInt v _) hx (by decide)
  · exact narrowRead_answers (w := 4) rfl (fun v _ => zext128_eq_ofInt v _) hx (by decide)
  · exact narrowRead_answers (w := 8) rfl (fun v _ => zext128_eq_ofInt v _) hx (by decide)
  · exact narrowRead_answers (w := 16) rfl (fun v _ => zext128_eq_ofInt v _) hx (by decide)
  · exact narrowRead_answers (w := 32) rfl (fun v _ => zext128_eq_ofInt v _) hx (by decide)
  · exact narrowRead_answers (w := 4) rfl (fun _ => sext128_eq_ofInt (by decide) (by decide)) hx (by decide)
  · exact narrowRead_answers (w := 8) rfl (fun _ => sext128_eq_ofInt (by decide) (by decide)) hx (by decide)
  · exact narrowRead_answers (w := 16) rfl (fun _ => sext128_eq_ofInt (by decide) (by decide)) hx (by decide)
  · exact narrowRead_answers (w := 32) rfl (fun _ => sext128_eq_ofInt (by decide) (by decide)) hx (by decide)

/-- Settles O36: one raw write each, of the operand as it stands. -/
theorem narrowWriteCommandsStoreTheirBits : Obligations.NarrowWriteCommandsStoreTheirBits := by
  intro s x b v4 v8 v16 v32 hx hm p hp
  simp only [List.mem_cons, List.not_mem_nil, or_false] at hp
  rcases hp with rfl | rfl | rfl | rfl | rfl | rfl | rfl | rfl | rfl
  · rw [← boolBit_eq_toNat]
    exact narrowWrite_stores (w := 1) rfl hx hm (by decide)
  · exact narrowWrite_stores (w := 4) rfl hx hm (by decide)
  · exact narrowWrite_stores (w := 8) rfl hx hm (by decide)
  · exact narrowWrite_stores (w := 16) rfl hx hm (by decide)
  · exact narrowWrite_stores (w := 32) rfl hx hm (by decide)
  · exact narrowWrite_stores (w := 4) rfl hx hm (by decide)
  · exact narrowWrite_stores (w := 8) rfl hx hm (by decide)
  · exact narrowWrite_stores (w := 16) rfl hx hm (by decide)
  · exact narrowWrite_stores (w := 32) rfl hx hm (by decide)

end Sys2Proof.Proofs

/-! # The float codec

A pattern without its sign is the number `binaryValue` reads at the configuration's widths, so that the order of the
patterns is the order of their values. `encode` rounds the magnitude in units of its last place at two thirds; where it
does not carry out of the mantissa, the sign-less pattern stands for the rounded number of units. -/

namespace Sys2Proof.Machine

/-! ## `frac_to_bin` -/

/-- The loop extracts the quotient bit by bit and leaves the residue (R192). -/
theorem fracLoop_eq (k mw m : Nat) {r : Nat} (hr : r < 2 ^ k) :
    fracLoop k mw m r = (m * 2 ^ mw + r * 2 ^ mw / 2 ^ k, r * 2 ^ mw % 2 ^ k) := by
  have hP : 0 < 2 ^ k := Nat.two_pow_pos k
  induction mw generalizing m r with
  | zero => simp [fracLoop, Nat.div_eq_of_lt hr, Nat.mod_eq_of_lt hr]
  | succ mw ih =>
    have hsplit : r * 2 ^ (mw + 1) = 2 ^ k * (2 * r / 2 ^ k * 2 ^ mw) + 2 * r % 2 ^ k * 2 ^ mw := by
      rw [← Nat.mul_assoc, ← Nat.add_mul, Nat.div_add_mod, pow_succ]
      ring
    rw [fracLoop, ih _ (Nat.mod_lt _ hP), hsplit, Nat.mul_add_div hP, Nat.mul_add_mod, pow_succ]
    congr 1
    ring

/-- A residue in units of 2^−k is never two thirds (R192). -/
theorem three_mul_ne_two_mul_two_pow (r k : Nat) : 3 * r ≠ 2 * 2 ^ k := by
  intro h
  have hdvd : 3 ∣ 2 ^ (k + 1) := ⟨r, by rw [h, pow_succ, Nat.mul_comm]⟩
  exact absurd (Nat.prime_three.dvd_of_dvd_pow hdvd) (by decide)

section
variable {num k : Nat}

/-- `frac_to_bin` in integers: the quotient, one more when the residue is at least two thirds (R192). -/
theorem fracToBin_eq (mw : Nat) (h : num < 2 ^ k) :
    fracToBin num k mw =
      num * 2 ^ mw / 2 ^ k + if 2 * 2 ^ k ≤ 3 * (num * 2 ^ mw % 2 ^ k) then 1 else 0 := by
  rw [fracToBin, fracLoop_eq k mw 0 h]
  dsimp only
  rw [Nat.zero_mul, Nat.zero_add]
  split <;> rfl

theorem fracToBin_le (mw : Nat) (h : num < 2 ^ k) : fracToBin num k mw ≤ 2 ^ mw := by
  have hq : num * 2 ^ mw / 2 ^ k < 2 ^ mw := by
    rw [Nat.div_lt_iff_lt_mul (Nat.two_pow_pos k), Nat.mul_comm]
    exact Nat.mul_lt_mul_of_pos_left h (Nat.two_pow_pos mw)
  rw [fracToBin_eq mw h]
  split <;> omega

/-- Two thirds of the divisor, as a fraction and in integers. -/
theorem two_thirds_le_iff (r k : Nat) : (2 : ℚ) / 3 ≤ (r : ℚ) / 2 ^ k ↔ 2 * 2 ^ k ≤ 3 * r := by
  rw [div_le_div_iff₀ (by norm_num) (by positivity), mul_comm (r : ℚ)]
  exact_mod_cast Iff.rfl

theorem div_two_pow_ne_two_thirds (r k : Nat) : (r : ℚ) / 2 ^ k ≠ 2 / 3 := by
  intro h
  rw [div_eq_div_iff (by positivity) (by norm_num), mul_comm] at h
  exact three_mul_ne_two_mul_two_pow r k (by exact_mod_cast h)

/-- `frac_to_bin` rounds the fraction as step (e) of R191 says in exact arithmetic. -/
theorem fracToBin_eq_roundedMantissa (mw : Nat) (h : num < 2 ^ k) :
    fracToBin num k mw = roundedMantissa ((num : ℚ) / 2 ^ k) mw := by
  have hy : (num : ℚ) / 2 ^ k * 2 ^ mw = ((num * 2 ^ mw : Nat) : ℚ) / ((2 ^ k : Nat) : ℚ) := by
    push_cast
    ring
  rw [fracToBin_eq mw h, roundedMantissa, hy, Nat.floor_div_eq_div, Int.fract_div_natCast_eq_div_natCast_mod]
  congr 1
  refine if_congr ?_ rfl rfl
  rw [← two_thirds_le_iff, Nat.cast_pow, Nat.cast_ofNat]

end

/-- The rounded mantissa is within two thirds of a unit below the fraction and one third above (R192). -/
theorem roundedMantissa_bounds {f : ℚ} (hf : 0 ≤ f) (mw : Nat) :
    f * 2 ^ mw - roundedMantissa f mw < 2 / 3 ∧ (roundedMantissa f mw : ℚ) - f * 2 ^ mw ≤ 1 / 3 := by
  have hy : 0 ≤ f * 2 ^ mw := by positivity
  have hsplit : f * 2 ^ mw = (⌊f * 2 ^ mw⌋₊ : ℚ) + Int.fract (f * 2 ^ mw) := by
    rw [natCast_floor_eq_intCast_floor hy, Int.floor_add_fract]
  have h0 := Int.fract_nonneg (f * 2 ^ mw)
  have h1 := Int.fract_lt_one (f * 2 ^ mw)
  unfold roundedMantissa
  split
  · push_cast
    constructor <;> linarith
  · push_cast
    constructor <;> linarith

/-! ## The assembly of a pattern -/

/-- A sign bit above the other bits. -/
theorem sign_or_eq_add {sign low n : Nat} (hs : sign = 0 ∨ sign = 2 ^ n) (hl : low < 2 ^ n) :
    sign ||| low = sign + low := by
  rcases hs with rfl | rfl
  · simp
  · simpa using (Nat.two_pow_add_eq_or_of_lt hl 1).symm

/-- An exponent field above a mantissa. -/
theorem field_or_eq_add (field : Nat) {m mw : Nat} (hm : m < 2 ^ mw) : field * 2 ^ mw ||| m = field * 2 ^ mw + m := by
  rw [Nat.mul_comm, Nat.two_pow_add_eq_or_of_lt hm]

/-- Every part that fits leaves a pattern that fits. -/
theorem field_add_lt {field m mw e : Nat} (hf : field < 2 ^ e) (hm : m < 2 ^ mw) : field * 2 ^ mw + m < 2 ^ (e + mw) :=
  calc field * 2 ^ mw + m < (field + 1) * 2 ^ mw := by
        rw [Nat.succ_mul]
        omega
    _ ≤ 2 ^ e * 2 ^ mw := Nat.mul_le_mul_right _ hf
    _ = 2 ^ (e + mw) := (Nat.pow_add ..).symm

/-- Parts that fit add up (R193). -/
theorem parts_or_eq_add {sign field m mw e : Nat} (hs : sign = 0 ∨ sign = 2 ^ (e + mw)) (hf : field < 2 ^ e)
    (hm : m < 2 ^ mw) : sign ||| field * 2 ^ mw ||| m = sign + (field * 2 ^ mw + m) := by
  rw [Nat.or_assoc, field_or_eq_add field hm, sign_or_eq_add hs (field_add_lt hf hm)]

/-- A mantissa that has carried sets the lowest bit of the exponent field (R193). -/
theorem field_or_carry (field mw : Nat) : field * 2 ^ mw ||| 2 ^ mw = (field ||| 1) * 2 ^ mw := by
  simp only [← Nat.shiftLeft_eq, Nat.shiftLeft_or_distrib, Nat.one_shiftLeft]

/-- The field with its lowest bit set. -/
theorem or_one_eq (field : Nat) : field ||| 1 = if field % 2 = 0 then field + 1 else field := by
  have heven := Nat.two_pow_add_eq_or_of_lt (i := 1) (b := 1) (by decide) (field / 2)
  have hodd := Nat.two_pow_add_eq_or_of_lt (i := 1) (b := field % 2) (by omega) (field / 2)
  split
  · next h0 =>
    have hfield : field = 2 ^ 1 * (field / 2) := by omega
    rw [← hfield] at heven
    exact heven.symm
  · next h1 =>
    have hfield : field = 2 ^ 1 * (field / 2) ||| 1 := by
      rw [← heven]
      omega
    conv_lhs => rw [hfield, Nat.or_assoc, Nat.or_self]
    exact hfield.symm

theorem assemblePattern_carry {sign field mw e : Nat} (hs : sign = 0 ∨ sign = 2 ^ (e + mw))
    (hf : (field ||| 1) < 2 ^ e) : assemblePattern sign (field * 2 ^ mw) (2 ^ mw) = sign + (field ||| 1) * 2 ^ mw := by
  rw [assemblePattern, Nat.or_assoc, field_or_carry]
  exact sign_or_eq_add hs (by simpa using field_add_lt hf (Nat.two_pow_pos mw))

end Sys2Proof.Machine

namespace Sys2Proof.Proofs

open Sys2Proof Sys2Proof.Machine

/-! ## The obligation on the mantissa -/

/-- Settles O42: the loop of `frac_to_bin` is a division with remainder, and a carry sets the field's lowest bit. -/
theorem mantissaRoundsAtTwoThirdsAndItsCarryIsOred : Obligations.MantissaRoundsAtTwoThirdsAndItsCarryIsOred := by
  refine ⟨fun num k mw h => ⟨?_, div_two_pow_ne_two_thirds _ k, fracToBin_le mw h⟩, fun sign field m mw e hs hf => ?_⟩
  · rw [fracToBin_eq mw h]
    simp only [two_thirds_le_iff]
    split <;> rfl
  · refine ⟨fun hm => ?_, fun heven hlt => ?_, fun hodd => ?_⟩
    · rw [assemblePattern, parts_or_eq_add hs hf hm, Nat.add_assoc]
    · have hor : field ||| 1 = field + 1 := (or_one_eq field).trans (if_pos heven)
      rw [assemblePattern_carry hs (hor.symm ▸ hlt), hor]
    · have hor : field ||| 1 = field := (or_one_eq field).trans (if_neg (by omega))
      rw [assemblePattern_carry hs (hor.symm ▸ hf), hor]

end Sys2Proof.Proofs

namespace Sys2Proof.Machine

/-! ## The order of sign-less patterns -/

/-- The next pattern is one unit in the last place higher. -/
theorem binaryValue_succ (ew fw p : Nat) :
    binaryValue ew fw (p + 1) = binaryValue ew fw p + 2 ^ ((binaryScale fw p : Int) + binaryMin ew - fw) := by
  have hsum := binaryScale_add_binaryCoeff fw p
  have hlow : binaryScale fw p = 0 ∨ 2 ^ fw ≤ binaryCoeff fw p + 1 := by
    unfold binaryScale binaryCoeff
    split
    · next h0 => exact .inl (by rw [h0])
    · exact .inr (by omega)
  have hval := binaryValue_scale_add_coeff ew hlow (binaryCoeff_lt fw p)
  rw [← Nat.add_assoc, hsum] at hval
  rw [hval, binaryValue]
  push_cast
  ring

/-- Sign-less patterns are in the order of their values. -/
theorem binaryValue_strictMono (ew fw : Nat) : StrictMono (binaryValue ew fw) := by
  refine strictMono_nat_of_lt_succ fun p => ?_
  rw [binaryValue_succ]
  exact lt_add_of_pos_right _ (by positivity)

theorem binaryTop_add (ew fw : Nat) : binaryTop ew fw + 2 ^ fw = 2 ^ (ew + fw) := by
  rw [binaryTop, ← Nat.succ_mul, Nat.succ_eq_add_one, Nat.sub_add_cancel Nat.one_le_two_pow, Nat.pow_add]

theorem binaryTop_lt (ew fw : Nat) : binaryTop ew fw < 2 ^ (ew + fw) := by
  have := Nat.two_pow_pos fw
  have := binaryTop_add ew fw
  omega

theorem binaryTop_pos (fw : Nat) {ew : Nat} (hew : 1 ≤ ew) : 0 < binaryTop ew fw :=
  Nat.mul_pos (Nat.sub_pos_of_lt (Nat.one_lt_two_pow (by omega))) (Nat.two_pow_pos fw)

/-- The number of exponents of a format. -/
theorem two_mul_binaryBias {ew : Nat} (hew : 1 ≤ ew) : 2 * binaryBias ew = ((2 ^ ew : Nat) : Int) - 2 := by
  obtain ⟨e, rfl⟩ := Nat.exists_eq_add_of_le' hew
  rw [binaryBias, Nat.add_sub_cancel, pow_succ]
  push_cast
  ring

/-- Infinity's pattern, read as a number, is the first power of two above the format. -/
theorem binaryValue_top (fw : Nat) {ew : Nat} (hew : 1 ≤ ew) :
    binaryValue ew fw (binaryTop ew fw) = 2 ^ (binaryBias ew + 1) := by
  have h2 : 2 ≤ 2 ^ ew := by simpa using Nat.pow_le_pow_right (n := 2) (by decide) hew
  have hd : binaryTop ew fw / 2 ^ fw = 2 ^ ew - 1 := Nat.mul_div_cancel _ (Nat.two_pow_pos fw)
  have hm : binaryTop ew fw % 2 ^ fw = 0 := Nat.mul_mod_left _ _
  have hbias := two_mul_binaryBias hew
  rw [binaryValue, binaryCoeff, binaryScale, hd, hm, if_neg (by omega), Nat.add_zero, Nat.cast_pow, Nat.cast_ofNat,
    ← zpow_natCast, ← zpow_add₀ (by norm_num)]
  congr 1
  unfold binaryMin
  omega

/-! ## Exact rounding -/

/-- The binade of a magnitude is below `e` exactly when the magnitude is below 2^e. -/
theorem Mag.log2_lt_iff {a : Mag} (ha : a.coeff ≠ 0) (e : Int) : a.log2 < e ↔ a.value < (2 : ℚ) ^ e := by
  constructor
  · intro h
    exact a.lt_pow_log2_succ.trans_le (zpow_le_zpow_right₀ (by norm_num) (by omega))
  · intro h
    exact (zpow_lt_zpow_iff_right₀ (by norm_num : (1 : ℚ) < 2)).1 ((a.pow_log2_le ha).trans_lt h)

/-- A magnitude whose coefficient and exponent the format has room for is rounded to itself, and to no Infinity. -/
theorem roundToBinary_exact {ew fw : Nat} (hew : 2 ≤ ew) {a : Mag} (hc : a.coeff < 2 ^ (fw + 1))
    (he : binaryMin ew - fw ≤ a.expo) (hv : a.value < 2 ^ (binaryBias ew + 1)) :
    binaryValue ew fw (roundToBinary ew fw a) = a.value ∧ roundToBinary ew fw a < binaryTop ew fw := by
  by_cases ha : a.coeff = 0
  · have hr : roundToBinary ew fw a = 0 := by simp [roundToBinary, ha]
    rw [hr, binaryValue_zero, (Mag.value_eq_zero a).2 ha]
    exact ⟨rfl, binaryTop_pos fw (by omega)⟩
  · have hl : a.log2 ≤ binaryBias ew := Int.lt_add_one_iff.1 ((Mag.log2_lt_iff ha _).2 hv)
    have hunit : magUnit ew fw a ≤ a.expo := by
      have hlog : Nat.log2 a.coeff < fw + 1 := (Nat.log2_lt ha).2 hc
      have := magScale_add_min ew a
      unfold magUnit Mag.log2 at *
      omega
    have hval : binaryValue ew fw (roundToBinary ew fw a) = a.value := by
      rw [binaryValue_roundToBinary ha hl, roundedAt, if_pos hunit, ← Mag.value_eq_scaled a _ hunit]
    refine ⟨hval, (binaryValue_strictMono ew fw).lt_iff_lt.1 ?_⟩
    rwa [hval, binaryValue_top fw (by omega)]

/-! ## The layout of a configuration -/

section
variable {c : CodecCfg}

/-- The bits of a configuration are its sign, exponent and mantissa (R181, R182). -/
theorem CodecCfg.Valid.bits_eq (h : c.Valid) :
    c.bits = c.ebits + c.mantissaWidth + if c.signed then 1 else 0 := by
  obtain ⟨_, _, _⟩ := h
  unfold CodecCfg.mantissaWidth
  split <;> omega

/-- The sign bit of a pattern, in place: none in an unsigned configuration. -/
def signBits (c : CodecCfg) (sgn : Bool) : Nat := if c.signed = true ∧ sgn = true then c.signMask else 0

@[simp] theorem signBits_false (c : CodecCfg) : signBits c false = 0 := by simp [signBits]

/-- The sign lies above the exponent and the mantissa. -/
theorem CodecCfg.Valid.signBits_cases (h : c.Valid) (sgn : Bool) :
    signBits c sgn = 0 ∨ (signBits c sgn = 2 ^ (c.ebits + c.mantissaWidth) ∧ c.signed = true) := by
  have hbits := h.bits_eq
  unfold signBits
  split
  · next hs =>
    obtain ⟨hsigned, -⟩ := hs
    rw [hsigned, if_pos rfl] at hbits
    exact .inr ⟨by rw [CodecCfg.signMask, hsigned, if_pos rfl, hbits, Nat.add_sub_cancel], hsigned⟩
  · exact .inl rfl

theorem CodecCfg.Valid.signBits_eq (h : c.Valid) (sgn : Bool) :
    signBits c sgn = 0 ∨ signBits c sgn = 2 ^ (c.ebits + c.mantissaWidth) :=
  (h.signBits_cases sgn).imp_right And.left

/-- A sign and bits that fit below it fit the pattern. -/
theorem CodecCfg.Valid.signBits_add_lt (h : c.Valid) (sgn : Bool) {low : Nat}
    (hl : low < 2 ^ (c.ebits + c.mantissaWidth)) : signBits c sgn + low < 2 ^ c.bits := by
  have hbits := h.bits_eq
  rcases h.signBits_cases sgn with h0 | ⟨hs, hsigned⟩
  · rw [h0, Nat.zero_add]
    exact hl.trans_le (Nat.pow_le_pow_right (by decide) (by omega))
  · rw [hsigned, if_pos rfl] at hbits
    rw [hs, hbits, pow_succ]
    omega

/-- A pattern is its sign and its other bits. -/
theorem CodecCfg.Valid.pattern_eq (h : c.Valid) (p : Nat) :
    p % 2 ^ c.bits = signBits c (patternSign c p) + p % 2 ^ (c.ebits + c.mantissaWidth) := by
  have hbits := h.bits_eq
  rw [patternSign_eq, signBits, CodecCfg.signMask]
  cases hs : c.signed with
  | false =>
    rw [hs] at hbits
    simp [hbits]
  | true =>
    rw [hs, if_pos rfl] at hbits
    have hbit := Nat.mod_two_eq_zero_or_one (p / 2 ^ (c.ebits + c.mantissaWidth))
    rw [hbits, Nat.add_sub_cancel, Nat.mod_pow_succ, Nat.testBit_eq_decide_div_mod_eq, Nat.add_comm]
    rcases hbit with h0 | h1
    · simp [h0]
    · simp [h1]

/-- The parts of a pattern put together from a sign and the other bits. -/
theorem CodecCfg.Valid.pattern_parts (h : c.Valid) (sgn : Bool) {low : Nat}
    (hl : low < 2 ^ (c.ebits + c.mantissaWidth)) :
    patternSign c (signBits c sgn + low) = (c.signed && sgn) ∧
      (signBits c sgn + low) % 2 ^ (c.ebits + c.mantissaWidth) = low := by
  have hbits := h.bits_eq
  have hlow : (signBits c sgn + low) % 2 ^ (c.ebits + c.mantissaWidth) = low := by
    rcases h.signBits_eq sgn with h0 | hs
    · rw [h0, Nat.zero_add, Nat.mod_eq_of_lt hl]
    · rw [hs, Nat.add_mod_left, Nat.mod_eq_of_lt hl]
  refine ⟨?_, hlow⟩
  rw [patternSign_eq]
  cases hs : c.signed with
  | false => rfl
  | true =>
    rw [hs, if_pos rfl] at hbits
    rw [signBits, CodecCfg.signMask, hs, hbits, Nat.add_sub_cancel, Nat.testBit_eq_decide_div_mod_eq]
    cases sgn with
    | false => simp [Nat.div_eq_of_lt hl]
    | true => simp [Nat.add_div_left _ (Nat.two_pow_pos _), Nat.div_eq_of_lt hl]

/-- The exponent and mantissa fields are those of the bits below the sign. -/
theorem patternExp_low (c : CodecCfg) (p : Nat) :
    patternExp c p = p % 2 ^ (c.ebits + c.mantissaWidth) / 2 ^ c.mantissaWidth := by
  rw [patternExp_eq, Nat.add_comm, Nat.pow_add, Nat.mod_mul_right_div_self]

theorem patternMantissa_low (c : CodecCfg) (p : Nat) :
    patternMantissa c p = p % 2 ^ (c.ebits + c.mantissaWidth) % 2 ^ c.mantissaWidth := by
  rw [patternMantissa_eq, Nat.mod_mod_of_dvd _ (pow_dvd_pow 2 (Nat.le_add_left _ _))]

/-- The special patterns are those from Infinity's on (R184). -/
theorem patternExp_ne_special_iff (c : CodecCfg) (p : Nat) :
    patternExp c p ≠ c.specialExp ↔ p % 2 ^ (c.ebits + c.mantissaWidth) < binaryTop c.ebits c.mantissaWidth := by
  have hexp : patternExp c p < 2 ^ c.ebits := by
    rw [patternExp_eq]
    exact Nat.mod_lt _ (Nat.two_pow_pos _)
  rw [binaryTop, ← Nat.div_lt_iff_lt_mul (Nat.two_pow_pos _), ← patternExp_low, CodecCfg.specialExp]
  omega

theorem CodecCfg.binaryBias_eq (c : CodecCfg) : binaryBias c.ebits = c.bias := by
  have := Nat.one_le_two_pow (n := c.ebits - 1)
  unfold binaryBias CodecCfg.bias
  omega

theorem CodecCfg.binaryMin_eq (c : CodecCfg) : binaryMin c.ebits = 1 - (c.bias : Int) := by
  rw [binaryMin, c.binaryBias_eq]

/-- The magnitude of a pattern is the value of its bits below the sign (R196). -/
theorem patternMag_value (c : CodecCfg) (p : Nat) :
    (patternMag c p).value =
      binaryValue c.ebits c.mantissaWidth (p % 2 ^ (c.ebits + c.mantissaWidth)) := by
  unfold patternMag binaryValue binaryCoeff binaryScale
  rw [← patternExp_low, ← patternMantissa_low, c.binaryMin_eq]
  split
  · next h0 =>
    rw [h0]
    show (patternMantissa c p : ℚ) * 2 ^ (1 - (c.bias : Int) - c.mantissaWidth) = _
    congr 2
    omega
  · next h0 =>
    show ((2 ^ c.mantissaWidth + patternMantissa c p : Nat) : ℚ) *
      2 ^ ((patternExp c p : Int) - c.bias - c.mantissaWidth) = _
    congr 2
    omega

/-- The magnitude of a pattern that is not special is below Infinity's. -/
theorem CodecCfg.Valid.patternMag_lt (h : c.Valid) {p : Nat} (hp : patternExp c p ≠ c.specialExp) :
    (patternMag c p).value < 2 ^ ((c.bias : Int) + 1) := by
  obtain ⟨he, -⟩ := h
  rw [patternMag_value, ← c.binaryBias_eq, ← binaryValue_top c.mantissaWidth he]
  exact binaryValue_strictMono _ _ ((patternExp_ne_special_iff c p).1 hp)

/-- The coefficient and exponent of a pattern's magnitude. -/
theorem patternMag_bounds (c : CodecCfg) (p : Nat) :
    (patternMag c p).coeff < 2 ^ (c.mantissaWidth + 1) ∧
      1 - (c.bias : Int) - c.mantissaWidth ≤ (patternMag c p).expo := by
  have hm : patternMantissa c p < 2 ^ c.mantissaWidth := by
    rw [patternMantissa_eq]
    exact Nat.mod_lt _ (Nat.two_pow_pos _)
  rw [pow_succ]
  unfold patternMag
  split
  · exact ⟨by change patternMantissa c p < _; omega, le_refl _⟩
  · next h0 =>
    refine ⟨by change 2 ^ c.mantissaWidth + patternMantissa c p < _; omega, ?_⟩
    change _ ≤ (patternExp c p : Int) - c.bias - c.mantissaWidth
    omega

/-- The bounds of a configuration with at least two exponent bits, as R186 and R187 write them. -/
theorem codecBounds_eq {b m : Int} {low high : ℚ} (he : 2 ≤ c.ebits) (hb : (c.bias : Int) = b)
    (hm : (c.mantissaWidth : Int) = m) (hlow : (2 : ℚ) ^ (1 - b - m) = low) (hhigh : (2 : ℚ) ^ b * (2 - 2 ^ (-m)) = high) :
    (2 : ℚ) ^ subnormalUnitExpo c = low ∧ (codecMinValue c).value = low ∧ (codecMaxValue c).value = high := by
  subst hb hm hlow hhigh
  refine ⟨rfl, by simp [codecMinValue, Mag.value], ?_⟩
  have hexpo : ((2 ^ (c.ebits - 1) : Nat) : Int) - 1 - c.mantissaWidth = c.bias + -(c.mantissaWidth : Int) := by
    have := c.binaryBias_eq
    unfold binaryBias at this
    omega
  have hunit : (2 : ℚ) ^ c.mantissaWidth * 2 ^ (-(c.mantissaWidth : Int)) = 1 := by
    rw [← zpow_natCast, ← zpow_add₀ (by norm_num), add_neg_cancel, zpow_zero]
  rw [codecMaxValue, if_pos he, Mag.value, hexpo, zpow_add₀ (by norm_num), Nat.cast_sub Nat.one_le_two_pow, pow_succ]
  push_cast
  linear_combination 2 * (2 : ℚ) ^ (c.bias : Int) * hunit

/-! ## Decoding -/

/-- `decode` reads only the three fields. -/
theorem decodeFloat_congr {p q : Nat} (he : patternExp c p = patternExp c q)
    (hm : patternMantissa c p = patternMantissa c q) (hs : patternSign c p = patternSign c q) :
    decodeFloat numerics c p = decodeFloat numerics c q := by
  simp only [decodeFloat, subnormalMag, normalMag, he, hm, hs]

/-- Bits at and above `bits` are ignored (R195). -/
theorem CodecCfg.Valid.decodeFloat_mod (h : c.Valid) (p : Nat) :
    decodeFloat numerics c p = decodeFloat numerics c (p % 2 ^ c.bits) := by
  have hbits := h.bits_eq
  have hdvd : 2 ^ (c.ebits + c.mantissaWidth) ∣ 2 ^ c.bits := pow_dvd_pow 2 (by omega)
  have hpos : c.bits - 1 < c.bits := by
    obtain ⟨_, _, _⟩ := h
    omega
  refine decodeFloat_congr ?_ ?_ ?_
  · rw [patternExp_low, patternExp_low, Nat.mod_mod_of_dvd _ hdvd]
  · rw [patternMantissa_low, patternMantissa_low, Nat.mod_mod_of_dvd _ hdvd]
  · rw [patternSign_eq, patternSign_eq, Nat.testBit_mod_two_pow, decide_eq_true hpos, Bool.true_and]

/-- The special patterns (R196, R197). -/
theorem CodecCfg.Valid.decodeFloat_special (h : c.Valid) {p : Nat} (hp : patternExp c p = c.specialExp) :
    decodeFloat numerics c p =
      if patternMantissa c p = 0 then f64Pack (patternSign c p) (binaryTop 11 52) else canonicalNan := by
  obtain ⟨he, -⟩ := h
  have h0 : patternExp c p ≠ 0 := by
    have := Nat.one_lt_two_pow (n := c.ebits) (by omega)
    rw [hp, CodecCfg.specialExp]
    omega
  rw [decodeFloat, if_neg h0, if_pos hp]
  rfl

/-- A small enough pattern decodes exactly (R197). -/
theorem CodecCfg.Valid.decodeFloat_exact (h : c.Valid) (hE : c.ebits ≤ 11) (hM : c.mantissaWidth ≤ 52) {p : Nat}
    (hp : patternExp c p ≠ c.specialExp) :
    isFinite (decodeFloat numerics c p) = true ∧
      f64Sign (decodeFloat numerics c p) = patternSign c p ∧
      (f64Mag (decodeFloat numerics c p)).value = (patternMag c p).value := by
  have hb64 : binaryBias 11 = 1023 := by decide
  have hbias : (c.bias : Int) ≤ 1023 := by
    have : 2 ^ (c.ebits - 1) ≤ 2 ^ 10 := Nat.pow_le_pow_right (by decide) (by omega)
    unfold CodecCfg.bias
    omega
  obtain ⟨hcoeff, hexpo⟩ := patternMag_bounds c p
  obtain ⟨hval, htop⟩ := roundToBinary_exact (ew := 11) (fw := 52) (a := patternMag c p) (by decide)
    (hcoeff.trans_le (Nat.pow_le_pow_right (by decide) (by omega)))
    (by unfold binaryMin; omega)
    ((h.patternMag_lt hp).trans_le (zpow_le_zpow_right₀ (by norm_num) (by omega)))
  obtain ⟨hsign, hlow⟩ := f64Pack_parts (patternSign c p) (htop.trans (by decide))
  rw [decodeFloat_eq hp]
  refine ⟨(isFinite_iff _).2 ?_, hsign, ?_⟩
  · rw [rne64, hlow]
    exact htop
  · rw [f64Mag_value, rne64, hlow, hval]

end

/-- A binary64 pattern is determined by its sign and its magnitude. -/
theorem f64_ext_value {x y : F64} (hs : f64Sign x = f64Sign y) (hv : (f64Mag x).value = (f64Mag y).value) : x = y := by
  rw [f64Mag_value, f64Mag_value] at hv
  exact f64_ext hs ((binaryValue_strictMono 11 52).injective hv)

/-! ## ENC, DEC and CNEW -/

/-- CNEW's test is the negation of R180. -/
theorem badConfig_iff (bits ebits : Nat) :
    badConfig bits ebits = true ↔ ¬(1 ≤ ebits ∧ ebits < bits ∧ bits ≤ 128) := by
  have hmax : bitsMax = 128 := rfl
  simp only [badConfig, Bool.or_eq_true, decide_eq_true_eq, hmax]
  omega

end Sys2Proof.Machine

namespace Sys2Proof.Proofs

open Sys2Proof Sys2Proof.Machine

/-! ## The obligations on configurations, `decode` and the codec commands -/

/-- Settles O50: binary64 has room for the pattern's coefficient and exponent. -/
theorem decodeIsExact : Obligations.DecodeIsExact := by
  intro c p hc hE hM hp
  obtain ⟨hfin, hsign, hval⟩ := hc.decodeFloat_exact hE hM hp
  refine ⟨hfin, ?_, hsign⟩
  rw [f64Value, hsign, hval, patternValue_eq]
  rfl

/-- Settles O52: `decode` reads three fields, all of them below `bits`. -/
theorem decodeOfSpecialPatternsAndHighBits : Obligations.DecodeOfSpecialPatternsAndHighBits := by
  intro c p hc
  refine ⟨hc.decodeFloat_mod p, patternMantissa_eq c p, patternExp_eq c p, patternSign_eq c p, fun hp h0 => ?_,
    fun hp h0 => ?_⟩
  · rw [hc.decodeFloat_special hp, if_pos h0]
    cases patternSign c p with
    | false => rfl
    | true => rfl
  · rw [hc.decodeFloat_special hp, if_neg h0]
    rfl

/-- Settles O41, by evaluation. -/
theorem derivedConstantsAreThoseTabulated : Obligations.DerivedConstantsAreThoseTabulated := by
  refine ⟨by decide, fun p hp => ?_⟩
  simp only [List.mem_cons, List.not_mem_nil, or_false] at hp
  rcases hp with rfl | rfl | rfl | rfl | rfl | rfl | rfl | rfl | rfl | rfl
  · exact codecBounds_eq (b := 3) (m := 4) (by decide) rfl rfl (by norm_num) (by norm_num)
  · exact codecBounds_eq (b := 3) (m := 5) (by decide) rfl rfl (by norm_num) (by norm_num)
  · exact codecBounds_eq (b := 15) (m := 10) (by decide) rfl rfl (by norm_num) (by norm_num)
  · exact codecBounds_eq (b := 15) (m := 11) (by decide) rfl rfl (by norm_num) (by norm_num)
  · exact codecBounds_eq (b := 127) (m := 23) (by decide) rfl rfl (by norm_num) (by norm_num)
  · exact codecBounds_eq (b := 127) (m := 24) (by decide) rfl rfl (by norm_num) (by norm_num)
  · exact codecBounds_eq (b := 1023) (m := 52) (by decide) rfl rfl (by norm_num) (by norm_num)
  · exact codecBounds_eq (b := 1023) (m := 53) (by decide) rfl rfl (by norm_num) (by norm_num)
  · exact codecBounds_eq (b := 7) (m := 3) (by decide) rfl rfl (by norm_num) (by norm_num)
  · norm_num [subnormalUnitExpo, codecMinValue, codecMaxValue, Mag.value, CodecCfg.bias, CodecCfg.mantissaWidth]

/-- Settles O54: the three branches of CNEW. -/
theorem cnewReplacesTheConfiguration : Obligations.CnewReplacesTheConfiguration := by
  intro s j bits ebits signed
  change (_ → execCnew j bits ebits signed s = _) ∧ (_ → _ → execCnew j bits ebits signed s = _) ∧
    (_ → _ → execCnew j bits ebits signed s = _)
  unfold execCnew
  refine ⟨fun hj => ?_, fun hj hbad => ?_, fun hj hgood => ?_⟩
  · rw [if_pos hj]
    rfl
  · rw [if_neg (by omega), if_pos ((badConfig_iff _ _).2 hbad)]
    rfl
  · rw [if_neg (by omega), if_neg fun hbad => (badConfig_iff _ _).1 hbad hgood]
    rfl

/-- Settles O55: the context passes the check. -/
theorem encAndDecAnswerTheCodec : Obligations.EncAndDecAnswerTheCodec := by
  intro s j x p hj
  refine ⟨if_pos hj, (if_pos hj).trans ?_⟩
  rw [f64Result, zext128, BitVec.ofNat_toNat]
  rfl

end Sys2Proof.Proofs

namespace Sys2Proof.Machine

/-! ## The bounds of a configuration -/

theorem isFinite_parts {x : F64} (h : isFinite x = true) : isNan x = false ∧ isInf x = false := by
  simpa [isFinite] using h

theorem codecMinValue_value (c : CodecCfg) : (codecMinValue c).value = 2 ^ (1 - (c.bias : Int) - c.mantissaWidth) := by
  simp [codecMinValue, Mag.value]

theorem codecMinValue_pos (c : CodecCfg) : 0 < (codecMinValue c).value := by
  rw [codecMinValue_value]
  positivity

/-- `min_value` is the value of the least pattern that is not zero (R187). -/
theorem codecMinValue_eq_binaryValue (c : CodecCfg) :
    (codecMinValue c).value = binaryValue c.ebits c.mantissaWidth 1 := by
  have h := binaryValue_scale_add_coeff c.ebits (fw := c.mantissaWidth) (k := 0) (n := 1) (.inl rfl) Nat.one_le_two_pow
  rw [Nat.zero_mul, Nat.zero_add, c.binaryMin_eq] at h
  rw [h, codecMinValue_value]
  simp

/-- `max_value` is the value of the pattern below Infinity's, with one exponent bit too (R187). -/
theorem codecMaxValue_eq_binaryValue {c : CodecCfg} (he : 1 ≤ c.ebits) :
    (codecMaxValue c).value = binaryValue c.ebits c.mantissaWidth (binaryTop c.ebits c.mantissaWidth - 1) := by
  have hM := Nat.one_le_two_pow (n := c.mantissaWidth)
  by_cases h2 : 2 ≤ c.ebits
  · obtain ⟨-, htop⟩ := scale_add_coeff_top (fw := c.mantissaWidth) h2 (le_refl _) (le_refl _)
    obtain ⟨hscale, -⟩ := binaryTop_scale h2
    have hpred : binaryTop c.ebits c.mantissaWidth - 1 =
        (2 ^ c.ebits - 3) * 2 ^ c.mantissaWidth + (2 ^ (c.mantissaWidth + 1) - 1) := by
      rw [← htop rfl rfl, pow_succ]
      omega
    rw [hpred, binaryValue_scale_add_coeff _ (.inr (by rw [pow_succ]; omega)) (Nat.sub_le _ _), hscale, codecMaxValue,
      if_pos h2]
    rfl
  · have h1 : c.ebits = 1 := by omega
    have hval := binaryValue_scale_add_coeff 1 (fw := c.mantissaWidth) (k := 0) (n := 2 ^ c.mantissaWidth - 1) (.inl rfl)
      (by rw [pow_succ]; omega)
    have hmin : binaryMin 1 = 1 := by decide
    rw [Nat.zero_mul, Nat.zero_add, hmin] at hval
    have htop : binaryTop 1 c.mantissaWidth = 2 ^ c.mantissaWidth := Nat.one_mul _
    rw [codecMaxValue, if_neg h2, h1, htop, hval]
    simp [Mag.value]

theorem codecMaxValue_lt {c : CodecCfg} (he : 1 ≤ c.ebits) : (codecMaxValue c).value < 2 ^ ((c.bias : Int) + 1) := by
  have := binaryTop_pos c.mantissaWidth he
  rw [codecMaxValue_eq_binaryValue he, ← c.binaryBias_eq, ← binaryValue_top c.mantissaWidth he]
  exact binaryValue_strictMono _ _ (by omega)

/-- Every pattern that is neither zero nor special lies between the bounds. -/
theorem binaryValue_between {c : CodecCfg} (he : 1 ≤ c.ebits) {q : Nat} (h0 : 0 < q)
    (hq : q < binaryTop c.ebits c.mantissaWidth) :
    (codecMinValue c).value ≤ binaryValue c.ebits c.mantissaWidth q ∧
      binaryValue c.ebits c.mantissaWidth q ≤ (codecMaxValue c).value := by
  have hmono := (binaryValue_strictMono c.ebits c.mantissaWidth).monotone
  rw [codecMinValue_eq_binaryValue, codecMaxValue_eq_binaryValue he]
  exact ⟨hmono h0, hmono (by omega)⟩

/-! ## Binades and fractions -/

/-- The binade of a magnitude is the one its value lies in. -/
theorem Mag.log2_eq {a : Mag} {e : Int} (hlow : (2 : ℚ) ^ e ≤ a.value) (hhigh : a.value < 2 ^ (e + 1)) : a.log2 = e := by
  have ha : a.coeff ≠ 0 := by
    intro h0
    rw [(Mag.value_eq_zero a).2 h0] at hlow
    exact absurd hlow (not_le.2 (by positivity))
  have h1 := (Mag.log2_lt_iff ha _).2 hhigh
  have h2 := mt (Mag.log2_lt_iff ha e).1 (not_lt.2 hlow)
  omega

/-- A magnitude over a power of two that is no lower than its own. -/
theorem Mag.value_div_two_pow (a : Mag) {e : Int} (h : a.expo ≤ e) :
    a.value / 2 ^ e = (a.coeff : ℚ) / 2 ^ (e - a.expo).toNat := by
  have hsplit : e = ((e - a.expo).toNat : Int) + a.expo := by omega
  unfold Mag.value
  conv_lhs => rw [hsplit, zpow_add₀ (by norm_num), zpow_natCast]
  exact mul_div_mul_right _ _ (by positivity)

section
variable {c : CodecCfg} {x : F64} {a : Mag}

/-- `sub` is the comparison with 2^(1 − bias) (R189). -/
theorem encodeSub_iff (hfin : isFinite x = true) :
    encodeSub c x = true ↔ (f64Mag x).value < 2 ^ (1 - (c.bias : Int)) := by
  obtain ⟨hnan, hinf⟩ := isFinite_parts hfin
  by_cases ha : (f64Mag x).coeff = 0
  · have hpos : (0 : ℚ) < 2 ^ (1 - (c.bias : Int)) := by positivity
    simp [encodeSub, hnan, hinf, ha, (Mag.value_eq_zero _).2 ha, hpos]
  · rw [← Mag.log2_lt_iff ha]
    simp only [encodeSub, hnan, hinf, ha, Bool.not_false, Bool.true_and, decide_false, Bool.false_or, decide_eq_true_eq]
    omega

/-- The exponent field that steps (d) to (f) of R191 give a magnitude. -/
def encodedField (c : CodecCfg) (a : Mag) : Nat :=
  if a.value < 2 ^ (1 - (c.bias : Int)) then 0 else (a.log2 + c.bias).toNat

/-- The pattern that steps (d) to (f) of R191 give a sign and a magnitude. -/
def generalPattern (c : CodecCfg) (sgn : Bool) (a : Mag) : Nat :=
  signBits c sgn ||| encodedField c a * 2 ^ c.mantissaWidth |||
    roundedMantissa (mantissaFraction c a) c.mantissaWidth

/-- The binade of a magnitude that is not below 2^(1 − bias). -/
theorem Mag.le_log2 (h : ¬a.value < (2 : ℚ) ^ (1 - (c.bias : Int))) : a.coeff ≠ 0 ∧ 1 - (c.bias : Int) ≤ a.log2 := by
  have ha : a.coeff ≠ 0 := by
    intro h0
    exact h (by rw [(Mag.value_eq_zero a).2 h0]; positivity)
  exact ⟨ha, not_lt.1 (mt (Mag.log2_lt_iff ha _).1 h)⟩

/-- Below `max_value` the exponent field is not the special one. -/
theorem encodedField_lt (he : 1 ≤ c.ebits) (hv : a.value < 2 ^ ((c.bias : Int) + 1)) :
    encodedField c a + 1 < 2 ^ c.ebits := by
  have hbias := two_mul_binaryBias he
  rw [c.binaryBias_eq] at hbias
  unfold encodedField
  split
  · exact Nat.one_lt_two_pow (by omega)
  · next hge =>
    obtain ⟨ha, hlow⟩ := Mag.le_log2 hge
    have hhigh := (Mag.log2_lt_iff ha _).2 hv
    omega

/-- The fraction of step (d) of R191 is one. -/
theorem mantissaFraction_bounds (c : CodecCfg) (a : Mag) : 0 ≤ mantissaFraction c a ∧ mantissaFraction c a < 1 := by
  unfold mantissaFraction
  split
  · next hlt => exact ⟨div_nonneg a.value_nonneg (by positivity), (div_lt_one (by positivity)).2 hlt⟩
  · next hge =>
    obtain ⟨ha, -⟩ := Mag.le_log2 hge
    have hlow : 1 ≤ a.value / 2 ^ a.log2 := (one_le_div (by positivity)).2 (a.pow_log2_le ha)
    have hhigh : a.value / 2 ^ a.log2 < 2 := by
      rw [div_lt_iff₀ (by positivity), mul_comm, ← zpow_add_one₀ (by norm_num)]
      exact a.lt_pow_log2_succ
    constructor <;> linarith

theorem roundedMantissa_mantissaFraction_le (c : CodecCfg) (a : Mag) :
    roundedMantissa (mantissaFraction c a) c.mantissaWidth ≤ 2 ^ c.mantissaWidth := by
  obtain ⟨h0, h1⟩ := mantissaFraction_bounds c a
  obtain ⟨-, hround⟩ := roundedMantissa_bounds h0 c.mantissaWidth
  have hscaled : mantissaFraction c a * 2 ^ c.mantissaWidth < 2 ^ c.mantissaWidth :=
    mul_lt_of_lt_one_left (by positivity) h1
  refine Nat.lt_succ_iff.1 (Nat.cast_lt (α := ℚ).1 ?_)
  push_cast
  linarith

/-- The assembled parts fit the pattern, also when the mantissa has carried (R193). -/
theorem generalPattern_lt (h : c.Valid) (sgn : Bool) (hv : a.value < 2 ^ ((c.bias : Int) + 1)) :
    generalPattern c sgn a < 2 ^ c.bits := by
  have hbits := h.bits_eq
  have he : 1 ≤ c.ebits := h.1
  have hle : 2 ^ (c.ebits + c.mantissaWidth) ≤ 2 ^ c.bits := Nat.pow_le_pow_right (by decide) (by omega)
  have hfield : encodedField c a * 2 ^ c.mantissaWidth < 2 ^ (c.ebits + c.mantissaWidth) :=
    field_add_lt (by have := encodedField_lt he hv; omega) (Nat.two_pow_pos _)
  have hmantissa : 2 ^ c.mantissaWidth < 2 ^ (c.ebits + c.mantissaWidth) := Nat.pow_lt_pow_right (by decide) (by omega)
  refine Nat.or_lt_two_pow (Nat.or_lt_two_pow ?_ (hfield.trans_le hle)) ?_
  · exact h.signBits_add_lt sgn (low := 0) (Nat.two_pow_pos _)
  · exact ((roundedMantissa_mantissaFraction_le c a).trans_lt hmantissa).trans_le hle

/-! ## The general path without a carry -/

/-- Without a carry the parts add up (R193). -/
theorem generalPattern_eq_add (h : c.Valid) (sgn : Bool) (hv : a.value < 2 ^ ((c.bias : Int) + 1))
    (hm : roundedMantissa (mantissaFraction c a) c.mantissaWidth < 2 ^ c.mantissaWidth) :
    generalPattern c sgn a = signBits c sgn +
      (encodedField c a * 2 ^ c.mantissaWidth + roundedMantissa (mantissaFraction c a) c.mantissaWidth) :=
  parts_or_eq_add (h.signBits_eq sgn) (by have := encodedField_lt h.1 hv; omega) hm

/-- The field and the fraction are the magnitude's scale and its number of units in the last place, of which the hidden
bit of a normal pattern is counted in the field. -/
theorem encodedField_add_fraction (c : CodecCfg) (ha : a.coeff ≠ 0) :
    ∃ hidden : Nat, (hidden = 0 ∧ magScale c.ebits a = 0 ∨ hidden = 2 ^ c.mantissaWidth) ∧
      encodedField c a * 2 ^ c.mantissaWidth = magScale c.ebits a * 2 ^ c.mantissaWidth + hidden ∧
      a.value / 2 ^ magUnit c.ebits c.mantissaWidth a = hidden + mantissaFraction c a * 2 ^ c.mantissaWidth := by
  have hscale := magScale_add_min c.ebits a
  rw [c.binaryMin_eq] at hscale
  unfold encodedField mantissaFraction magUnit
  rw [c.binaryMin_eq, hscale]
  split
  · next hlt =>
    have hlog := (Mag.log2_lt_iff ha _).2 hlt
    have h0 : magScale c.ebits a = 0 := by omega
    refine ⟨0, .inl ⟨rfl, h0⟩, by rw [h0, Nat.add_zero], ?_⟩
    rw [max_eq_right hlog.le, zpow_sub₀ (by norm_num), zpow_natCast, Nat.cast_zero, zero_add, div_div_eq_mul_div,
      mul_div_right_comm]
  · next hge =>
    obtain ⟨-, hlog⟩ := Mag.le_log2 hge
    have hfield : (a.log2 + c.bias).toNat = magScale c.ebits a + 1 := by omega
    refine ⟨2 ^ c.mantissaWidth, .inr rfl, by rw [hfield, Nat.succ_mul], ?_⟩
    rw [max_eq_left hlog, zpow_sub₀ (by norm_num), zpow_natCast, div_div_eq_mul_div, mul_div_right_comm]
    push_cast
    ring

/-- Without a carry the encoded pattern is within two thirds of a unit below the magnitude and one third above
(R192, R196). -/
theorem encodedLow_value (c : CodecCfg) (ha : a.coeff ≠ 0)
    (hm : roundedMantissa (mantissaFraction c a) c.mantissaWidth < 2 ^ c.mantissaWidth) {v ulp : ℚ}
    (hv : v = binaryValue c.ebits c.mantissaWidth
      (encodedField c a * 2 ^ c.mantissaWidth + roundedMantissa (mantissaFraction c a) c.mantissaWidth))
    (hulp : ulp = 2 ^ magUnit c.ebits c.mantissaWidth a) :
    a.value - v < 2 / 3 * ulp ∧ v - a.value ≤ 1 / 3 * ulp := by
  obtain ⟨hidden, hcases, hfield, hunits⟩ := encodedField_add_fraction c ha
  obtain ⟨hbelow, habove⟩ := roundedMantissa_bounds (mantissaFraction_bounds c a).1 c.mantissaWidth
  have hpos : 0 < ulp := by
    rw [hulp]
    positivity
  rw [← hulp, div_eq_iff hpos.ne'] at hunits
  generalize roundedMantissa (mantissaFraction c a) c.mantissaWidth = m at *
  have hval : v = ((hidden + m : Nat) : ℚ) * ulp := by
    rw [hv, hfield, Nat.add_assoc, binaryValue_scale_add_coeff, hulp, magUnit]
    · rcases hcases with ⟨-, h0⟩ | hhidden
      · exact .inl h0
      · exact .inr (by omega)
    · rw [pow_succ]
      omega
  have hbelow' := mul_lt_mul_of_pos_right hbelow hpos
  have habove' := mul_le_mul_of_nonneg_right habove hpos.le
  rw [hval, hunits]
  push_cast
  constructor <;> linarith

/-- A fraction of whole units is kept. -/
theorem roundedMantissa_of_nat {f : ℚ} {m mw : Nat} (h : f * 2 ^ mw = m) : roundedMantissa f mw = m := by
  rw [roundedMantissa, h, Nat.floor_natCast, Int.fract_natCast, if_neg (by norm_num), Nat.add_zero]

/-- The field and the fraction of a magnitude that a pattern stands for are the pattern's own. -/
theorem encodedField_of_value {q : Nat} (hv : a.value = binaryValue c.ebits c.mantissaWidth q) :
    encodedField c a = q / 2 ^ c.mantissaWidth ∧
      mantissaFraction c a * 2 ^ c.mantissaWidth = (q % 2 ^ c.mantissaWidth : Nat) := by
  have hM : (0 : ℚ) < 2 ^ c.mantissaWidth := by positivity
  have hr : ((q % 2 ^ c.mantissaWidth : Nat) : ℚ) < 2 ^ c.mantissaWidth := by
    exact_mod_cast Nat.mod_lt q (Nat.two_pow_pos c.mantissaWidth)
  have hr0 : (0 : ℚ) ≤ (q % 2 ^ c.mantissaWidth : Nat) := Nat.cast_nonneg _
  unfold binaryValue binaryCoeff binaryScale at hv
  rw [zpow_sub₀ (by norm_num), zpow_natCast, c.binaryMin_eq, ← mul_div_assoc] at hv
  unfold encodedField mantissaFraction
  generalize q % 2 ^ c.mantissaWidth = r at *
  generalize q / 2 ^ c.mantissaWidth = e at *
  by_cases h0 : e = 0
  · subst h0
    rw [if_pos rfl, Nat.zero_sub, Nat.cast_zero, zero_add] at hv
    have hu : (0 : ℚ) < 2 ^ (1 - (c.bias : Int)) := by positivity
    have hlt : a.value < 2 ^ (1 - (c.bias : Int)) := by
      rw [hv, div_lt_iff₀ hM, mul_comm]
      exact mul_lt_mul_of_pos_left hr hu
    rw [if_pos hlt, if_pos hlt, hv]
    exact ⟨rfl, by field_simp⟩
  · rw [if_neg h0, show ((e - 1 : Nat) : Int) + (1 - (c.bias : Int)) = e - c.bias by omega] at hv
    push_cast at hv
    have hu : (0 : ℚ) < 2 ^ ((e : Int) - c.bias) := by positivity
    have hlow : (2 : ℚ) ^ ((e : Int) - c.bias) ≤ a.value := by
      rw [hv, le_div_iff₀ hM, mul_comm]
      exact mul_le_mul_of_nonneg_right (by linarith) hu.le
    have hhigh : a.value < 2 ^ ((e : Int) - c.bias + 1) := by
      rw [hv, div_lt_iff₀ hM, zpow_add_one₀ (by norm_num), mul_assoc, mul_comm]
      exact mul_lt_mul_of_pos_left (by linarith) hu
    have hge : ¬a.value < 2 ^ (1 - (c.bias : Int)) :=
      not_lt.2 (le_trans (zpow_le_zpow_right₀ (by norm_num) (by omega)) hlow)
    rw [if_neg hge, if_neg hge, Mag.log2_eq hlow hhigh, hv]
    refine ⟨by omega, ?_⟩
    field_simp
    ring

/-- Steps (d) to (f) of R191 give back the pattern that stands for the magnitude. -/
theorem generalPattern_of_value (h : c.Valid) (sgn : Bool) {q : Nat} (hq : q < binaryTop c.ebits c.mantissaWidth)
    (hv : a.value = binaryValue c.ebits c.mantissaWidth q) : generalPattern c sgn a = signBits c sgn + q := by
  obtain ⟨hfield, hfrac⟩ := encodedField_of_value hv
  have hr : q % 2 ^ c.mantissaWidth < 2 ^ c.mantissaWidth := Nat.mod_lt _ (Nat.two_pow_pos _)
  have hd : q / 2 ^ c.mantissaWidth < 2 ^ c.ebits := by
    rw [Nat.div_lt_iff_lt_mul (Nat.two_pow_pos _), ← Nat.pow_add]
    exact hq.trans (binaryTop_lt _ _)
  rw [generalPattern, hfield, roundedMantissa_of_nat hfrac, parts_or_eq_add (h.signBits_eq sgn) hd hr,
    Nat.div_add_mod']

/-! ## The cases of `encode` -/

/-- "value < 0" is the sign, unless the value is zero (R189). -/
theorem encodeNeg_eq (hnan : isNan x = false) (h : isInf x = true ∨ (f64Mag x).coeff ≠ 0) : encodeNeg x = f64Sign x := by
  rcases h with h | h <;> simp [encodeNeg, hnan, h]

theorem signed_and_eq_signBits (c : CodecCfg) (sgn : Bool) :
    (if (c.signed && sgn) = true then c.signMask else 0) = signBits c sgn := by
  simp [signBits]

/-- Outside the fast paths `encode` is the general path (R190). -/
theorem encodeFloat_eq_encodeGeneral
    (h : isNan x = true ∨ encodeSub c x = true ∨ c ≠ presetF32S ∧ c ≠ presetF64S) :
    encodeFloat numerics c x = encodeGeneral numerics c x := by
  unfold encodeFloat
  rcases h with h | h | ⟨h32, h64⟩
  · simp [h]
  · simp [h]
  · have h32' : decide (c = ⟨32, 8, true⟩) = false := decide_eq_false h32
    have h64' : decide (c = ⟨64, 11, true⟩) = false := decide_eq_false h64
    simp [h32', h64']

/-- Every NaN encodes as the one NaN, without a sign (R191 (c), R194). -/
theorem encodeFloat_nan (c : CodecCfg) (h : isNan x = true) : encodeFloat numerics c x = c.exponentMask ||| 1 := by
  rw [encodeFloat_eq_encodeGeneral (.inl h)]
  simp [encodeGeneral, encodeNeg, h, numerics, nanMantissaField]

/-- A magnitude below `min_value` encodes as 0 (R191 (a)). -/
theorem encodeFloat_underflow (hfin : isFinite x = true) (hlt : (f64Mag x).value < (codecMinValue c).value) :
    encodeFloat numerics c x = 0 := by
  obtain ⟨hnan, hinf⟩ := isFinite_parts hfin
  have hsub : encodeSub c x = true := by
    rw [encodeSub_iff hfin]
    refine hlt.trans_le ?_
    rw [codecMinValue_value]
    exact zpow_le_zpow_right₀ (by norm_num) (by omega)
  rw [encodeFloat_eq_encodeGeneral (.inr (.inl hsub))]
  simp [encodeGeneral, hnan, hinf, numerics, (Mag.lt_iff _ _).2 hlt]

theorem encodeFloat_of_value_eq_zero (c : CodecCfg) (hfin : isFinite x = true) (h : (f64Mag x).value = 0) :
    encodeFloat numerics c x = 0 :=
  encodeFloat_underflow hfin (h ▸ codecMinValue_pos c)

/-- The sign beside the special exponent. -/
theorem CodecCfg.Valid.signBits_or_exponentMask (h : c.Valid) (sgn : Bool) :
    signBits c sgn ||| c.exponentMask ||| 0 = signBits c sgn + c.exponentMask := by
  rw [Nat.or_zero]
  exact sign_or_eq_add (h.signBits_eq sgn) (binaryTop_lt _ _)

/-- (64,11,signed) takes an operand as its own pattern unless it is NaN or subnormal (R190). -/
theorem encodeFloat_f64 (hnan : isNan x = false) (hsub : encodeSub presetF64S x = false) :
    encodeFloat numerics presetF64S x = x.toNat := by
  have hcfg : decide (presetF64S = ⟨64, 11, true⟩) = true := rfl
  have hcfg' : decide (presetF64S = ⟨32, 8, true⟩) = false := rfl
  simp [encodeFloat, hnan, hsub, hcfg, hcfg']

theorem presetF64S_valid : presetF64S.Valid := by decide

theorem presetF32S_valid : presetF32S.Valid := by decide

/-- The sign of (64,11,signed) is binary64's. -/
theorem f64_toNat_eq_signBits (x : F64) : x.toNat = signBits presetF64S (f64Sign x) + x.toNat % 2 ^ 63 := by
  conv_lhs => rw [f64_toNat_eq x]
  cases f64Sign x <;> rfl

theorem f32_signBits_eq (sgn : Bool) : signBits presetF32S sgn = if sgn then 2 ^ 31 else 0 := by
  cases sgn <;> rfl

/-- Infinity encodes as Infinity with its sign (R190, R191 (c)). -/
theorem encodeFloat_inf (h : c.Valid) (hinf : isInf x = true) :
    encodeFloat numerics c x = signBits c (f64Sign x) + c.exponentMask := by
  have hnan : isNan x = false := by
    simp only [isInf, Bool.and_eq_true, decide_eq_true_eq] at hinf
    simp [isNan, hinf]
  have hsub : encodeSub c x = false := by simp [encodeSub, hinf]
  by_cases h32 : c = presetF32S
  · subst h32
    have hcfg : decide (presetF32S = ⟨32, 8, true⟩) = true := rfl
    have hmask : presetF32S.exponentMask = 0x7F800000 := rfl
    rw [← h.signBits_or_exponentMask, f32_signBits_eq, hmask, Nat.or_zero]
    simp [encodeFloat, hnan, hsub, hinf, hcfg]
  · by_cases h64 : c = presetF64S
    · subst h64
      rw [encodeFloat_f64 hnan hsub, f64_toNat_eq_signBits, (isInf_iff x).1 hinf]
      rfl
    · rw [encodeFloat_eq_encodeGeneral (.inr (.inr ⟨h32, h64⟩)), ← h.signBits_or_exponentMask,
        ← signed_and_eq_signBits, ← encodeNeg_eq hnan (.inl hinf)]
      simp [encodeGeneral, hnan, hinf]

/-- No finite magnitude is above the `max_value` of (64,11,signed). -/
theorem f64Mag_le_codecMaxValue (hfin : isFinite x = true) : (f64Mag x).value ≤ (codecMaxValue presetF64S).value := by
  have hlow := (isFinite_iff x).1 hfin
  rw [f64Mag_value, codecMaxValue_eq_binaryValue presetF64S_valid.1]
  exact (binaryValue_strictMono 11 52).monotone (Nat.le_pred_of_lt hlow)

/-- A finite magnitude above `max_value` encodes as Infinity with the sign (R191 (b)). -/
theorem encodeFloat_overflow (h : c.Valid) (hfin : isFinite x = true)
    (hmin : (codecMinValue c).value ≤ (f64Mag x).value) (hmax : (codecMaxValue c).value < (f64Mag x).value)
    (h32 : c ≠ presetF32S) : encodeFloat numerics c x = signBits c (f64Sign x) + c.exponentMask := by
  obtain ⟨hnan, hinf⟩ := isFinite_parts hfin
  have h64 : c ≠ presetF64S := by
    rintro rfl
    exact absurd hmax (not_lt.2 (f64Mag_le_codecMaxValue hfin))
  have ha : (f64Mag x).coeff ≠ 0 := fun h0 =>
    absurd ((Mag.value_eq_zero _).2 h0) ((codecMinValue_pos c).trans_le hmin).ne'
  rw [encodeFloat_eq_encodeGeneral (.inr (.inr ⟨h32, h64⟩)), ← h.signBits_or_exponentMask, ← signed_and_eq_signBits,
    ← encodeNeg_eq hnan (.inr ha)]
  simp [encodeGeneral, hnan, hinf, numerics, (Mag.value_le_iff _ _).1 hmin, (Mag.lt_iff _ _).2 hmax]

/-- The fraction of a subnormal magnitude, as `encode` gives it to `frac_to_bin` (R191 (d)). -/
theorem fracToBin_subnormal (mw : Nat) {e : Int} (ha : a.coeff ≠ 0) (hlt : a.value < 2 ^ e) :
    fracToBin a.coeff (e - a.expo).toNat mw = roundedMantissa (a.value / 2 ^ e) mw := by
  have hexpo : a.expo ≤ e := by
    have := (Mag.log2_lt_iff ha e).2 hlt
    unfold Mag.log2 at this
    omega
  have hnum : a.coeff < 2 ^ (e - a.expo).toNat := by
    rw [← div_lt_one (by positivity), a.value_div_two_pow hexpo, div_lt_one (by positivity)] at hlt
    exact_mod_cast hlt
  rw [fracToBin_eq_roundedMantissa mw hnum, a.value_div_two_pow hexpo]

/-- The fraction of a normal magnitude, as `encode` gives it to `frac_to_bin` (R191 (d)). -/
theorem fracToBin_normal (mw : Nat) (ha : a.coeff ≠ 0) :
    fracToBin (a.coeff - 2 ^ Nat.log2 a.coeff) (Nat.log2 a.coeff) mw =
      roundedMantissa (a.value / 2 ^ a.log2 - 1) mw := by
  have hlow := Nat.log2_self_le ha
  have hhigh := Nat.lt_log2_self (n := a.coeff)
  rw [pow_succ] at hhigh
  have hlog : (a.log2 - a.expo).toNat = Nat.log2 a.coeff := by
    unfold Mag.log2
    omega
  rw [fracToBin_eq_roundedMantissa mw (by omega), a.value_div_two_pow (by unfold Mag.log2; omega), hlog,
    Nat.cast_sub hlow, sub_div, Nat.cast_pow, Nat.cast_ofNat, div_self (by positivity)]

/-- Between the bounds the general path computes steps (d) to (f) of R191 exactly. -/
theorem encodeGeneral_eq_generalPattern (hfin : isFinite x = true)
    (hmin : (codecMinValue c).value ≤ (f64Mag x).value) (hmax : (f64Mag x).value ≤ (codecMaxValue c).value) :
    encodeGeneral numerics c x = generalPattern c (f64Sign x) (f64Mag x) := by
  obtain ⟨hnan, hinf⟩ := isFinite_parts hfin
  have ha : (f64Mag x).coeff ≠ 0 := fun h0 =>
    absurd ((Mag.value_eq_zero _).2 h0) ((codecMinValue_pos c).trans_le hmin).ne'
  have hsub := encodeSub_iff (c := c) hfin
  have hunit : subnormalUnitExpo c + c.mantissaWidth = 1 - (c.bias : Int) := sub_add_cancel _ _
  rw [generalPattern, encodedField, mantissaFraction, ← signed_and_eq_signBits, ← encodeNeg_eq hnan (.inr ha)]
  unfold encodeGeneral
  simp only [hnan, hinf, numerics, (Mag.value_le_iff _ _).1 hmin, (Mag.value_le_iff _ _).1 hmax, hsub, hunit,
    assemblePattern, Bool.and_false, Bool.or_false, Bool.false_eq_true, if_false]
  split
  · next hlt => rw [fracToBin_subnormal _ ha hlt, Nat.zero_mul]
  · rw [fracToBin_normal _ ha]

/-- Outside the binary32 fast path `encode` computes steps (d) to (f) of R191 between the bounds: the fast path of
(64,11,signed) gives the same pattern (R190). -/
theorem encodeFloat_eq_generalPattern (hfin : isFinite x = true)
    (h32 : c = presetF32S → (f64Mag x).value < 2 ^ (-126 : Int))
    (hmin : (codecMinValue c).value ≤ (f64Mag x).value) (hmax : (f64Mag x).value ≤ (codecMaxValue c).value) :
    encodeFloat numerics c x = generalPattern c (f64Sign x) (f64Mag x) := by
  obtain ⟨hnan, -⟩ := isFinite_parts hfin
  by_cases hsub : encodeSub c x = true
  · rw [encodeFloat_eq_encodeGeneral (.inr (.inl hsub)), encodeGeneral_eq_generalPattern hfin hmin hmax]
  · by_cases h64 : c = presetF64S
    · subst h64
      have hlow := (isFinite_iff x).1 hfin
      rw [encodeFloat_f64 hnan (Bool.not_eq_true _ ▸ hsub), f64_toNat_eq_signBits]
      exact (generalPattern_of_value presetF64S_valid _ hlow (f64Mag_value x)).symm
    · have hne32 : c ≠ presetF32S := by
        rintro rfl
        exact hsub ((encodeSub_iff hfin).2 (h32 rfl))
      rw [encodeFloat_eq_encodeGeneral (.inr (.inr ⟨hne32, h64⟩)), encodeGeneral_eq_generalPattern hfin hmin hmax]

/-! ## Representable values -/

/-- A magnitude that a pattern stands for is rounded to that pattern. -/
theorem roundToBinary_of_value {ew fw q : Nat} (hew : 1 ≤ ew) (hfw : 1 ≤ fw) (hq : q < binaryTop ew fw)
    (hv : a.value = binaryValue ew fw q) : roundToBinary ew fw a = q := by
  have hlt : a.value < 2 ^ (binaryBias ew + 1) := by
    rw [hv, ← binaryValue_top fw hew]
    exact binaryValue_strictMono _ _ hq
  have hl : a.coeff = 0 ∨ a.log2 ≤ binaryBias ew := by
    by_cases ha : a.coeff = 0
    · exact .inl ha
    · exact .inr (Int.lt_add_one_iff.1 ((Mag.log2_lt_iff ha _).2 hlt))
  obtain ⟨hnear, -⟩ := roundToBinary_isNearest hfw hl q
  rw [hv, sub_self, abs_zero] at hnear
  exact (binaryValue_strictMono ew fw).injective (sub_eq_zero.1 (abs_nonpos_iff.1 hnear))

/-- The result of rounding is at most Infinity. -/
theorem roundToBinary_le_top {ew fw : Nat} (hew : 2 ≤ ew) : roundToBinary ew fw a ≤ binaryTop ew fw := by
  rcases lt_or_ge a.value (binaryBound ew fw) with h | h
  · exact (roundToBinary_lt_top hew h).le
  · exact (roundToBinary_eq_top hew h).le

/-- The binary32 fast path: a sign beside the rounded magnitude (R190). -/
theorem encodeFloat_f32_eq (hfin : isFinite x = true) (hx : (2 : ℚ) ^ (-126 : Int) ≤ (f64Mag x).value) :
    encodeFloat numerics presetF32S x = signBits presetF32S (f64Sign x) + rne32 (f64Mag x) := by
  have hle : rne32 (f64Mag x) ≤ binaryTop 8 23 := roundToBinary_le_top (by decide)
  rw [encodeFloat_f32 hfin hx (hle.trans_lt (by decide)), f32_signBits_eq]

/-- A magnitude that a pattern stands for encodes as that pattern with the operand's sign (R199). -/
theorem encodeFloat_of_value (h : c.Valid) (hfin : isFinite x = true) {q : Nat} (h0 : 0 < q)
    (hq : q < binaryTop c.ebits c.mantissaWidth) (hv : (f64Mag x).value = binaryValue c.ebits c.mantissaWidth q) :
    encodeFloat numerics c x = signBits c (f64Sign x) + q := by
  by_cases hfast : c = presetF32S ∧ (2 : ℚ) ^ (-126 : Int) ≤ (f64Mag x).value
  · obtain ⟨rfl, hx⟩ := hfast
    rw [encodeFloat_f32_eq hfin hx]
    congr 1
    exact roundToBinary_of_value (by decide) (by decide) hq hv
  · obtain ⟨hmin, hmax⟩ := binaryValue_between h.1 h0 hq
    rw [← hv] at hmin hmax
    rw [encodeFloat_eq_generalPattern hfin (fun h32 => not_le.1 fun hx => hfast ⟨h32, hx⟩) hmin hmax]
    exact generalPattern_of_value h _ hq hv

/-! ## Operands without a sign -/

/-- The mask of all bits but the sign. -/
theorem f64_abs_toNat (x : F64) : (x &&& 0x7FFFFFFFFFFFFFFF).toNat = x.toNat % 2 ^ 63 := by
  rw [BitVec.toNat_and]
  exact Nat.and_two_pow_sub_one_eq_mod _ 63

/-- Everything but the sign depends on the other bits only. -/
theorem f64_congr_of_low {y : F64} (h : x.toNat % 2 ^ 63 = y.toNat % 2 ^ 63) :
    isNan x = isNan y ∧ isInf x = isInf y ∧ f64Mag x = f64Mag y := by
  have he : f64Exp x = f64Exp y := by rw [f64Exp_eq, f64Exp_eq, h]
  have hf : f64Frac x = f64Frac y := by rw [f64Frac_eq, f64Frac_eq, h]
  simp only [isNan, isInf, f64Mag, he, hf, and_self]

/-- The operand without its sign. -/
theorem f64_abs_parts (x : F64) :
    f64Sign (x &&& 0x7FFFFFFFFFFFFFFF) = false ∧ isNan (x &&& 0x7FFFFFFFFFFFFFFF) = isNan x ∧
      isInf (x &&& 0x7FFFFFFFFFFFFFFF) = isInf x ∧ f64Mag (x &&& 0x7FFFFFFFFFFFFFFF) = f64Mag x := by
  have hlow := f64_abs_toNat x
  have hlt : x.toNat % 2 ^ 63 < 2 ^ 63 := Nat.mod_lt _ (Nat.two_pow_pos _)
  refine ⟨?_, f64_congr_of_low (by omega)⟩
  rw [f64Sign_eq, hlow]
  exact decide_eq_false (not_le.2 hlt)

/-- An unsigned configuration encodes the magnitude (R194). -/
theorem encodeFloat_abs (hs : c.signed = false) (x : F64) :
    encodeFloat numerics c x = encodeFloat numerics c (x &&& 0x7FFFFFFFFFFFFFFF) := by
  obtain ⟨-, hnan, hinf, hmag⟩ := f64_abs_parts x
  have h32 : c ≠ presetF32S := by
    rintro rfl
    exact absurd hs (by decide)
  have h64 : c ≠ presetF64S := by
    rintro rfl
    exact absurd hs (by decide)
  rw [encodeFloat_eq_encodeGeneral (.inr (.inr ⟨h32, h64⟩)), encodeFloat_eq_encodeGeneral (.inr (.inr ⟨h32, h64⟩))]
  simp only [encodeGeneral, encodeSub, hnan, hinf, hmag, hs, Bool.false_and]

/-- A sign and a positive magnitude are determined by their product. -/
theorem sign_eq_of_value_eq {s t : Bool} {v w : ℚ} (hv : 0 < v) (hw : 0 ≤ w)
    (h : signFactor s * v = signFactor t * w) : s = t ∧ v = w := by
  have habs := congrArg abs h
  rw [abs_signFactor_mul, abs_signFactor_mul, abs_of_pos hv, abs_of_nonneg hw] at habs
  subst habs
  have hsign := mul_right_cancel₀ hv.ne' h
  refine ⟨?_, rfl⟩
  cases s <;> cases t
  · rfl
  · norm_num [signFactor] at hsign
  · norm_num [signFactor] at hsign
  · rfl

/-- The only pattern of value zero but −0.0 is 0. -/
theorem f64_eq_zero_of_value {x : F64} (hx : x ≠ 0x8000000000000000) (hv : (f64Mag x).value = 0) : x = 0 := by
  have hzero : (f64Mag (0 : F64)).value = 0 := by rw [Mag.value_eq_zero]; rfl
  have hsign : f64Sign x = false := by
    rw [← Bool.not_eq_true]
    intro hs
    refine hx (f64_ext_value (hs.trans (by decide)) (hv.trans ?_))
    rw [eq_comm, Mag.value_eq_zero]
    rfl
  exact f64_ext_value hsign (hv.trans hzero.symm)

end

end Sys2Proof.Machine

namespace Sys2Proof.Machine

/-! ## Round trips -/

section
variable {c : CodecCfg} {p : Nat}

/-- A pattern whose bits below the sign are 0 decodes to a zero. -/
theorem CodecCfg.Valid.decodeFloat_zero (h : c.Valid) (hE : c.ebits ≤ 11) (hM : c.mantissaWidth ≤ 52)
    (hp : p % 2 ^ (c.ebits + c.mantissaWidth) = 0) :
    isFinite (decodeFloat numerics c p) = true ∧ f64Sign (decodeFloat numerics c p) = patternSign c p ∧
      (f64Mag (decodeFloat numerics c p)).value = 0 := by
  have hexp : patternExp c p ≠ c.specialExp :=
    (patternExp_ne_special_iff c p).2 (hp ▸ binaryTop_pos c.mantissaWidth h.1)
  obtain ⟨hfin, hsign, hval⟩ := h.decodeFloat_exact hE hM hexp
  refine ⟨hfin, hsign, ?_⟩
  rw [hval, patternMag_value, hp, binaryValue_zero]

/-- The special pattern with mantissa 0 is Infinity's. -/
theorem special_low_eq (hp : patternExp c p = c.specialExp) (hm : patternMantissa c p = 0) :
    p % 2 ^ (c.ebits + c.mantissaWidth) = binaryTop c.ebits c.mantissaWidth := by
  have hsplit := Nat.div_add_mod' (p % 2 ^ (c.ebits + c.mantissaWidth)) (2 ^ c.mantissaWidth)
  rw [← patternExp_low, ← patternMantissa_low, hp, hm] at hsplit
  exact hsplit.symm

/-- A pattern that is no NaN and not the sign alone is re-encoded exactly (R199 (1)). -/
theorem CodecCfg.Valid.encodeFloat_decodeFloat (h : c.Valid) (hE : c.ebits ≤ 11) (hM : c.mantissaWidth ≤ 52)
    (hnan : patternIsNan c p = false) (hne : ¬(c.signed = true ∧ p % 2 ^ c.bits = c.signMask)) :
    encodeFloat numerics c (decodeFloat numerics c p) = p % 2 ^ c.bits := by
  by_cases hp : patternExp c p = c.specialExp
  · have hm : patternMantissa c p = 0 := by simpa [patternIsNan, hp] using hnan
    obtain ⟨hsign, hlow⟩ := f64Pack_parts (patternSign c p) (m := binaryTop 11 52) (by decide)
    rw [h.decodeFloat_special hp, if_pos hm, encodeFloat_inf h ((isInf_iff _).2 hlow), hsign, h.pattern_eq,
      special_low_eq hp hm]
    rfl
  · rcases Nat.eq_zero_or_pos (p % 2 ^ (c.ebits + c.mantissaWidth)) with h0 | hpos
    · obtain ⟨hfin, -, hval⟩ := h.decodeFloat_zero hE hM h0
      have hpat := h.pattern_eq p
      rw [h0, Nat.add_zero] at hpat
      rw [encodeFloat_of_value_eq_zero c hfin hval, hpat, signBits]
      split
      · next hs => exact absurd ⟨hs.1, hpat.trans (if_pos hs)⟩ hne
      · rfl
    · obtain ⟨hfin, hsign, hval⟩ := h.decodeFloat_exact hE hM hp
      rw [patternMag_value] at hval
      rw [encodeFloat_of_value h hfin hpos ((patternExp_ne_special_iff c p).1 hp) hval, hsign, h.pattern_eq]

/-- A representable value survives encoding and decoding (R199 (4)). -/
theorem CodecCfg.Valid.decodeFloat_encodeFloat (h : c.Valid) (hE : c.ebits ≤ 11) (hM : c.mantissaWidth ≤ 52) {x : F64}
    (hfin : isFinite x = true) (hx : x ≠ 0x8000000000000000) (hp : patternExp c p ≠ c.specialExp)
    (hv : patternValue c p = f64Value x) : decodeFloat numerics c (encodeFloat numerics c x) = x := by
  rcases (Mag.value_nonneg (f64Mag x)).eq_or_lt with h0 | hpos
  · obtain ⟨-, hsign, hval⟩ := h.decodeFloat_zero hE hM (p := 0) (Nat.zero_mod _)
    have hsign0 : patternSign c 0 = false := by simp [patternSign]
    rw [encodeFloat_of_value_eq_zero c hfin h0.symm, f64_eq_zero_of_value hx h0.symm]
    exact f64_eq_zero_of_value (fun heq => by rw [hsign0, heq] at hsign; exact absurd hsign (by decide)) hval
  · obtain ⟨hsign, hmag⟩ := sign_eq_of_value_eq hpos (Mag.value_nonneg _) (hv.symm.trans (patternValue_eq c p))
    obtain ⟨-, hdsign, hdval⟩ := h.decodeFloat_exact hE hM hp
    have hlow : 0 < p % 2 ^ (c.ebits + c.mantissaWidth) := by
      refine Nat.pos_of_ne_zero fun hzero => hpos.ne' ?_
      rw [hmag, patternMag_value, hzero, binaryValue_zero]
    rw [encodeFloat_of_value h hfin hlow ((patternExp_ne_special_iff c p).1 hp) (hmag.trans (patternMag_value c p)),
      hsign, ← h.pattern_eq, ← h.decodeFloat_mod]
    exact f64_ext_value (hdsign.trans hsign.symm) (hdval.trans hmag.symm)

end

end Sys2Proof.Machine

namespace Sys2Proof.Proofs

open Sys2Proof Sys2Proof.Machine

/-! ## The obligations on `encode` and on round trips -/

/-- Settles O44: NaN and the magnitudes below `min_value` take their branch of the general path before any sign. -/
theorem encodeDropsSignsAsRuleR194Says : Obligations.EncodeDropsSignsAsRuleR194Says := by
  intro c x _
  exact ⟨fun hs => encodeFloat_abs hs x, encodeFloat_nan c, encodeFloat_underflow,
    encodeFloat_of_value_eq_zero c (by decide) ((Mag.value_eq_zero _).2 rfl)⟩

/-- Settles O45: Infinity on every path, and overflow on the general one. -/
theorem encodeOverflowsToInfinity : Obligations.EncodeOverflowsToInfinity := by
  rintro c x hc (hinf | ⟨hfin, hmin, hmax, h32⟩)
  · exact encodeFloat_inf hc hinf
  · exact encodeFloat_overflow hc hfin hmin hmax h32

/-- Settles O46: the general path is `generalPattern`, whose binade and field are the only ones of the statement. -/
theorem encodeFollowsTheGeneralPath : Obligations.EncodeFollowsTheGeneralPath := by
  intro c x e f field _ hfin h32 hmin hmax hparts
  have hfield : encodedField c (f64Mag x) = field ∧ mantissaFraction c (f64Mag x) = f := by
    unfold encodedField mantissaFraction
    split at hparts
    · next hlt =>
      obtain ⟨hfield, hf⟩ := hparts
      rw [if_pos hlt, if_pos hlt]
      exact ⟨hfield.symm, hf.symm⟩
    · next hge =>
      obtain ⟨hlow, hhigh, hfield, hf⟩ := hparts
      rw [if_neg hge, if_neg hge, Mag.log2_eq hlow hhigh]
      exact ⟨by omega, hf.symm⟩
  obtain ⟨hfield, hf⟩ := hfield
  rw [encodeFloat_eq_generalPattern hfin h32 hmin hmax, generalPattern, hfield, hf]
  rfl

/-- Settles O43: a sign and bits below Infinity's pattern, or parts that fit one by one. -/
theorem encodedPatternFitsItsWidth : Obligations.EncodedPatternFitsItsWidth := by
  intro c x hc
  have he : 1 ≤ c.ebits := hc.1
  have hbits := hc.bits_eq
  have hle : 2 ^ (c.ebits + c.mantissaWidth) ≤ 2 ^ c.bits := Nat.pow_le_pow_right (by decide) (by omega)
  by_cases hnan : isNan x = true
  · rw [encodeFloat_nan c hnan]
    exact (Nat.or_lt_two_pow (binaryTop_lt _ _) (Nat.one_lt_two_pow (by omega))).trans_le hle
  by_cases hinf : isInf x = true
  · rw [encodeFloat_inf hc hinf]
    exact hc.signBits_add_lt _ (binaryTop_lt _ _)
  have hfin : isFinite x = true := by simp [isFinite, hnan, hinf]
  rcases lt_or_ge (f64Mag x).value (codecMinValue c).value with hlt | hmin
  · rw [encodeFloat_underflow hfin hlt]
    exact Nat.two_pow_pos _
  by_cases hfast : c = presetF32S ∧ (2 : ℚ) ^ (-126 : Int) ≤ (f64Mag x).value
  · obtain ⟨rfl, hx⟩ := hfast
    rw [encodeFloat_f32_eq hfin hx]
    exact hc.signBits_add_lt _ ((roundToBinary_le_top (by decide)).trans_lt (binaryTop_lt 8 23))
  have h32 (h : c = presetF32S) : (f64Mag x).value < 2 ^ (-126 : Int) := not_le.1 fun hx => hfast ⟨h, hx⟩
  rcases lt_or_ge (codecMaxValue c).value (f64Mag x).value with hover | hmax
  · have hne : c ≠ presetF32S := by
      rintro rfl
      obtain ⟨-, -, hmax⟩ := codecBounds_eq (c := presetF32S) (b := 127) (m := 23) (by decide) rfl rfl rfl rfl
      have hsmall : (2 : ℚ) ^ (-126 : Int) ≤ 2 ^ (127 : Int) * (2 - 2 ^ (-23 : Int)) := by norm_num
      exact absurd (hover.trans (h32 rfl)) (not_lt.2 (hmax ▸ hsmall))
    rw [encodeFloat_overflow hc hfin hmin hover hne]
    exact hc.signBits_add_lt _ (binaryTop_lt _ _)
  · rw [encodeFloat_eq_generalPattern hfin h32 hmin hmax]
    exact generalPattern_lt hc _ (hmax.trans_lt (codecMaxValue_lt he))

/-- Settles O47: without a carry the sign-less pattern is the magnitude rounded in units of its last place. -/
theorem encodedValueIsWithinTwoThirdsOfAUnit : Obligations.EncodedValueIsWithinTwoThirdsOfAUnit := by
  intro c x p ulp hc hfin h32 hmin hmax hp hm hulp
  have he : 1 ≤ c.ebits := hc.1
  have ha : (f64Mag x).coeff ≠ 0 := fun h0 =>
    absurd ((Mag.value_eq_zero _).2 h0) ((codecMinValue_pos c).trans_le hmin).ne'
  have hv := hmax.trans_lt (codecMaxValue_lt he)
  have hfield := encodedField_lt he hv
  have hlow := field_add_lt (Nat.lt_of_succ_lt hfield) hm
  obtain ⟨hsign, hrest⟩ := hc.pattern_parts (f64Sign x) hlow
  rw [encodeFloat_eq_generalPattern hfin h32 hmin hmax, generalPattern_eq_add hc _ hv hm] at hp
  rw [← hp] at hsign hrest
  refine ⟨?_, hsign, ?_⟩
  · rw [patternExp_low, hrest, Nat.mul_comm, Nat.mul_add_div (Nat.two_pow_pos _), Nat.div_eq_of_lt hm,
      CodecCfg.specialExp]
    omega
  · refine encodedLow_value c ha hm ?_ ?_
    · rw [abs_patternValue, patternMag_value, hrest]
    · rw [hulp, magUnit, magScale_add_min, c.binaryMin_eq]

/-- Settles O49: a binary64 pattern is a pattern of (64,11,signed), on the fast path or not. -/
theorem binary64IsReproduced : Obligations.Binary64IsReproduced := by
  have hinfinite {x : F64} (hnan : isNan x = false) (hfin : isFinite x ≠ true) : isInf x = true := by
    simpa [isFinite, hnan] using hfin
  refine ⟨fun x hnan hx => ?_, fun x hnan => ?_⟩
  · by_cases hfin : isFinite x = true
    · have hval := f64Mag_value x
      rcases Nat.eq_zero_or_pos (x.toNat % 2 ^ 63) with h0 | hpos
      · rw [h0, binaryValue_zero] at hval
        rw [encodeFloat_of_value_eq_zero _ hfin hval, f64_eq_zero_of_value hx hval]
        rfl
      · rw [encodeFloat_of_value presetF64S_valid hfin hpos ((isFinite_iff x).1 hfin) hval]
        exact (f64_toNat_eq_signBits x).symm
    · have hinf := hinfinite hnan hfin
      rw [encodeFloat_inf presetF64S_valid hinf, f64_toNat_eq_signBits x, (isInf_iff x).1 hinf]
      rfl
  · have hsign : patternSign presetF64S x.toNat = f64Sign x := by
      rw [patternSign_eq]
      exact BitVec.testBit_toNat x
    by_cases hfin : isFinite x = true
    · obtain ⟨-, hdsign, hdval⟩ := presetF64S_valid.decodeFloat_exact (by decide) (by decide)
        ((patternExp_ne_special_iff presetF64S x.toNat).2 ((isFinite_iff x).1 hfin))
      refine f64_ext_value (hdsign.trans hsign) ?_
      rw [hdval, patternMag_value, f64Mag_value]
      rfl
    · have hlow := (isInf_iff x).1 (hinfinite hnan hfin)
      have hexp : patternExp presetF64S x.toNat = presetF64S.specialExp := by
        rw [patternExp_low]
        exact congrArg (· / 2 ^ 52) hlow
      have hman : patternMantissa presetF64S x.toNat = 0 := by
        rw [patternMantissa_low]
        exact congrArg (· % 2 ^ 52) hlow
      obtain ⟨hpsign, hplow⟩ := f64Pack_parts (patternSign presetF64S x.toNat) (m := binaryTop 11 52) (by decide)
      rw [presetF64S_valid.decodeFloat_special hexp, if_pos hman]
      exact f64_ext (hpsign.trans hsign) (hplow.trans hlow.symm)

/-- Settles O53: `decode` is exact and `encode` gives back the pattern that stands for a magnitude. -/
theorem codecRoundTrip : Obligations.CodecRoundTrip := by
  intro c hc hE hM
  refine ⟨fun p => hc.encodeFloat_decodeFloat hE hM, fun hs => ?_, fun p hp => ?_, fun x hfin hx => ⟨?_, ?_⟩⟩
  · obtain ⟨-, hlow⟩ := hc.pattern_parts true (low := 0) (Nat.two_pow_pos _)
    rw [signBits, if_pos ⟨hs, rfl⟩, Nat.add_zero] at hlow
    obtain ⟨hfin, -, hval⟩ := hc.decodeFloat_zero hE hM hlow
    exact encodeFloat_of_value_eq_zero c hfin hval
  · obtain ⟨hspecial, hm⟩ : patternExp c p = c.specialExp ∧ patternMantissa c p ≠ 0 := by
      simpa [patternIsNan] using hp
    rw [hc.decodeFloat_special hspecial, if_neg hm]
    exact encodeFloat_nan c (by decide)
  · rintro - ⟨p, hp, hv⟩
    exact hc.decodeFloat_encodeFloat hE hM hfin hx hp hv
  · rintro hs ⟨p, hp, hv⟩
    obtain ⟨hsign, hnan, hinf, hmag⟩ := f64_abs_parts x
    rw [encodeFloat_abs hs]
    refine hc.decodeFloat_encodeFloat hE hM ?_ ?_ hp (hv.trans ?_)
    · rw [isFinite, hnan, hinf]
      exact hfin
    · intro heq
      rw [heq] at hsign
      exact absurd hsign (by decide)
    · rw [f64Value, f64Value, hsign, hmag]
      exact (abs_signFactor_mul (f64Sign x) _).trans ((abs_of_nonneg (Mag.value_nonneg _)).trans (one_mul _).symm)

end Sys2Proof.Proofs

/-! # Float commands of the cursor

A float command moves its preset's pattern as the integer command of its width does: a read decodes what it moved, a
write encodes what it moves (R221, R222). -/

namespace Sys2Proof.Machine

section
variable {i : Instr} {s : State} {x w : Nat} {c : CodecCfg}

/-! ## Float reads -/

/-- `res[63:0]` holds the decoded value, zeros above (R221, R74). -/
theorem floatResult_eq (c : CodecCfg) (p : Nat) : floatResult c p = (decodeFloat numerics c p).setWidth 128 := by
  rw [floatResult, f64Result, zext128, BitVec.ofNat_toNat]

/-- A command that makes one raw read of `w` bits, when they are there (R141). -/
theorem readCommand_narrow (hx : slotOk x s = true) (hw : 1 ≤ w ∧ w ≤ 32) (h : w ≤ (s.slot x).bitsLeft) :
    ∃ v, Memory.Holds (s.slot x).buf (s.slot x).big (s.slot x).idx w w v ∧
      ∀ f, readCommand x (readNarrow x w) f s =
        .next ((s.setSlot x { s.slot x with idx := (s.slot x).idx + w }).withResp (some ⟨.ok, f v⟩)) := by
  obtain ⟨h1, h32⟩ := hw
  exact ⟨_, memRead_holds .., readCommand_raw hx (check_none.2 ⟨h1, h32, h⟩)⟩

/-- A float read answers the decoding of the value its read finds (R221). -/
theorem floatRead_decodes {read : State → SubStep Nat} {n : Nat} {t : State}
    (run : exec i s = readCommand x read (floatResult c) s)
    (hread : ∃ v, Memory.Holds (s.slot x).buf (s.slot x).big (s.slot x).idx w n v ∧
      ∀ f, readCommand x read f s = .next (t.withResp (some ⟨.ok, f v⟩))) :
    ∃ v, Memory.Holds (s.slot x).buf (s.slot x).big (s.slot x).idx w n v ∧
      exec i s = .next (t.withResp (some ⟨.ok, (decodeFloat numerics c v).setWidth 128⟩)) := by
  obtain ⟨v, hholds, hanswer⟩ := hread
  exact ⟨v, hholds, by rw [run, hanswer, floatResult_eq]⟩

/-! ## Float reads as integer reads -/

/-- What a reading command can do, whatever puts its value in the result field: leave a state with an error, or leave
one and answer a value of `w` bits. -/
inductive ReadsOrFails (w : Nat) (run : (Nat → Operand) → Result) : Prop
  | failed (t : State) (e : Status) (herr : e ≠ .ok) (hrun : ∀ f, run f = .next (t.withResp (some ⟨e, 0⟩)))
  | answered (t : State) (v : Nat) (hlt : v < 2 ^ w) (hrun : ∀ f, run f = .next (t.withResp (some ⟨.ok, f v⟩)))

theorem readCommand_bad_slot (hx : slotOk x s = false) (read : State → SubStep Nat) :
    ReadsOrFails w fun f => readCommand x read f s :=
  .failed s .slot (by decide) fun _ => withSlot_bad hx _

/-- One raw read: ERR_SLOT, ERR_EXHAUSTED, or the bits (R141). -/
theorem readNarrow_readsOrFails (x : Nat) (s : State) (hw : 1 ≤ w ∧ w ≤ 32) :
    ReadsOrFails w fun f => readCommand x (readNarrow x w) f s := by
  cases hx : slotOk x s with
  | false => exact readCommand_bad_slot hx _
  | true =>
    rcases Nat.lt_or_ge (s.slot x).bitsLeft w with hshort | hfits
    · obtain ⟨h1, h32⟩ := hw
      exact .failed s .exhausted (by decide) (readCommand_refused hx (check_some.2 (.inr ⟨h1, h32, hshort, rfl⟩)))
    · obtain ⟨v, ⟨hlt, -⟩, hanswer⟩ := readCommand_narrow hx hw hfits
      exact .answered _ v hlt hanswer

/-- A read of `k` chunks: ERR_SLOT, ERR_EXHAUSTED after the chunks that fit, or the bits (R142). -/
theorem readWide_readsOrFails (x : Nat) (s : State) {k : Nat} (hw : w = 32 * k) :
    ReadsOrFails w fun f => readCommand x (readWide x w) f s := by
  cases hx : slotOk x s with
  | false => exact readCommand_bad_slot hx _
  | true =>
    rcases Nat.lt_or_ge (s.slot x).bitsLeft w with hshort | hfits
    · exact .failed _ .exhausted (by decide) (readCommand_wide_short hx hw hshort)
    · obtain ⟨v, ⟨hlt, -⟩, hanswer⟩ := readCommand_wide hx hw hfits
      exact .answered _ v hlt hanswer

/-- With the same read, the float command answers the decoding of what the unsigned integer command answers, and fails
as it fails (R239). -/
theorem ReadsOrFails.floatRead_routes {run : (Nat → Operand) → Result} (h : ReadsOrFails w run) (hw : w ≤ 128)
    (c : CodecCfg) :
    ∃ t r, run zext128 = .next t ∧ t.resp = some r ∧
      run (floatResult c) = .next (t.withResp (some
        ⟨r.status, if r.status = .ok then (decodeFloat numerics c r.res.toNat).setWidth 128 else 0⟩)) := by
  cases h with
  | failed t e herr hrun =>
    refine ⟨_, _, hrun zext128, rfl, ?_⟩
    rw [hrun, if_neg herr]
    rfl
  | answered t v hlt hrun =>
    have hv : v < 2 ^ 128 := hlt.trans_le (Nat.pow_le_pow_right (by decide) hw)
    have hvalue : (zext128 v).toNat = v := (BitVec.toNat_ofNat v 128).trans (Nat.mod_eq_of_lt hv)
    refine ⟨_, _, hrun zext128, rfl, ?_⟩
    rw [hrun, if_pos rfl, hvalue, floatResult_eq]
    rfl

/-! ## Float writes as integer writes -/

/-- The pattern a configuration encodes is the whole of an operand of its width (R222, R239). -/
theorem toNat_ofNat_encodeFloat (hc : c.Valid) (f : F64) :
    (BitVec.ofNat c.bits (encodeFloat numerics c f)).toNat = encodeFloat numerics c f :=
  (BitVec.toNat_ofNat _ _).trans (Nat.mod_eq_of_lt (Proofs.encodedPatternFitsItsWidth c f hc))

/-- Writing an encoded pattern is writing it as an operand of its width, whatever the write (R239). -/
theorem writeCommand_encodeFloat (hc : c.Valid) (f : F64) (write : Nat → State → SubStep Unit) :
    writeCommand x (write (encodeFloat numerics c f)) s =
      writeCommand x (write (BitVec.ofNat c.bits (encodeFloat numerics c f)).toNat) s := by
  rw [toNat_ofNat_encodeFloat hc]

end

end Sys2Proof.Machine

namespace Sys2Proof.Proofs

open Sys2Proof Sys2Proof.Machine

/-! ## The obligations on the float commands of the cursor -/

/-- Settles O38: one raw read, or two chunks for 64 bits, and the value decoded with the command's preset. -/
theorem floatReadCommandsDecodeTheirBits : Obligations.FloatReadCommandsDecodeTheirBits := by
  intro s x hx p hp hfits
  simp only [List.mem_cons, List.not_mem_nil, or_false] at hp
  rcases hp with rfl | rfl | rfl | rfl | rfl | rfl | rfl | rfl
  · exact floatRead_decodes rfl (readCommand_narrow (w := 8) hx (by decide) hfits)
  · exact floatRead_decodes rfl (readCommand_narrow (w := 16) hx (by decide) hfits)
  · exact floatRead_decodes rfl (readCommand_narrow (w := 32) hx (by decide) hfits)
  · exact floatRead_decodes rfl (readCommand_wide (k := 2) hx rfl hfits)
  · exact floatRead_decodes rfl (readCommand_narrow (w := 8) hx (by decide) hfits)
  · exact floatRead_decodes rfl (readCommand_narrow (w := 16) hx (by decide) hfits)
  · exact floatRead_decodes rfl (readCommand_narrow (w := 32) hx (by decide) hfits)
  · exact floatRead_decodes rfl (readCommand_wide (k := 2) hx rfl hfits)

/-- Settles O39: one raw write, or two chunks for 64 bits, of the operand's encoding. -/
theorem floatWriteCommandsStoreTheirPattern : Obligations.FloatWriteCommandsStoreTheirPattern := by
  intro s x f hx hm p hp hfits
  simp only [List.mem_cons, List.not_mem_nil, or_false] at hp
  rcases hp with rfl | rfl | rfl | rfl | rfl | rfl | rfl | rfl
  · exact (narrowWrite_stores (w := 8) rfl hx hm (by decide)).2 hfits
  · exact (narrowWrite_stores (w := 16) rfl hx hm (by decide)).2 hfits
  · exact (narrowWrite_stores (w := 32) rfl hx hm (by decide)).2 hfits
  · exact writeCommand_wide (k := 2) _ hx hm rfl hfits
  · exact (narrowWrite_stores (w := 8) rfl hx hm (by decide)).2 hfits
  · exact (narrowWrite_stores (w := 16) rfl hx hm (by decide)).2 hfits
  · exact (narrowWrite_stores (w := 32) rfl hx hm (by decide)).2 hfits
  · exact writeCommand_wide (k := 2) _ hx hm rfl hfits

/-- Settles O40: an encoded pattern fits its operand, and a float read and the integer read share their sub-step. -/
theorem floatCommandsRouteThroughIntegers : Obligations.FloatCommandsRouteThroughIntegers := by
  intro s x
  refine ⟨fun f => ⟨?_, ?_, ?_, ?_, ?_, ?_, ?_, ?_⟩, fun p hp => ?_⟩
  · exact writeCommand_encodeFloat (c := presetF8S) (by decide) f (writeNarrow x · 8)
  · exact writeCommand_encodeFloat (c := presetF16S) (by decide) f (writeNarrow x · 16)
  · exact writeCommand_encodeFloat (c := presetF32S) (by decide) f (writeNarrow x · 32)
  · exact writeCommand_encodeFloat (c := presetF64S) (by decide) f (writeWide x · 64)
  · exact writeCommand_encodeFloat (c := presetF8U) (by decide) f (writeNarrow x · 8)
  · exact writeCommand_encodeFloat (c := presetF16U) (by decide) f (writeNarrow x · 16)
  · exact writeCommand_encodeFloat (c := presetF32U) (by decide) f (writeNarrow x · 32)
  · exact writeCommand_encodeFloat (c := presetF64U) (by decide) f (writeWide x · 64)
  · have narrow {w : Nat} (hw : 1 ≤ w ∧ w ≤ 32) := (readNarrow_readsOrFails x s hw).floatRead_routes (by omega)
    have wide := (readWide_readsOrFails (w := 64) (k := 2) x s rfl).floatRead_routes (by decide)
    simp only [List.mem_cons, List.not_mem_nil, or_false] at hp
    rcases hp with rfl | rfl | rfl | rfl | rfl | rfl | rfl | rfl
    · exact narrow (w := 8) (by decide) presetF8S
    · exact narrow (w := 16) (by decide) presetF16S
    · exact narrow (w := 32) (by decide) presetF32S
    · exact wide presetF64S
    · exact narrow (w := 8) (by decide) presetF8U
    · exact narrow (w := 16) (by decide) presetF16U
    · exact narrow (w := 32) (by decide) presetF32U
    · exact wide presetF64U

end Sys2Proof.Proofs

/-! # The nested stream

WRBS is followed chunk by chunk through the states in which the first bits are copied and no more; where it stops
depends on the next chunk alone. The host's commands for a chunk do what the chunk does, apart from their responses. -/

namespace Sys2Proof.Machine

/-! ## The bits of a copy -/

section
variable {src dst : Memory} {bigSrc bigDst : Bool} {a b : Nat}

theorem copies_zero (hdst : Memory.wf dst) : Memory.Copies src dst dst bigSrc bigDst a b 0 :=
  ⟨hdst, fun _ _ _ hk => absurd hk (Nat.not_lt_zero _), fun _ _ => rfl⟩

/-- One more chunk after `k` whole ones: its value is written past the bits already copied (R250). -/
theorem Memory.Copies.chunk {m : Memory} {k : Nat} (h : Memory.Copies src dst m bigSrc bigDst a b (32 * k))
    {c : Nat} (hc : c ≤ 32) :
    Memory.Copies src dst
      (memWrite m bigDst (b + 32 * k) c (memRead src bigSrc (a + 32 * k) c % 2 ^ c)) bigSrc bigDst a b (32 * k + c) := by
  obtain ⟨hm, hcopied, hout⟩ := h
  obtain ⟨hlt, hread⟩ := memRead_holdsAt src bigSrc (a + 32 * k) c
  rw [Nat.mod_eq_of_lt hlt]
  have hstore := memWrite_storesAt hm bigDst (b + 32 * k) c (memRead src bigSrc (a + 32 * k) c)
  refine ⟨memWrite_wf hm .., fun i j w hi hw hj => ?_, fun x hx => ?_⟩
  · rcases Nat.lt_or_ge i k with hik | hik
    · have hmem := bitAddress_mem bigDst (b + 32 * i) hj
      rw [hstore.outside (by omega), hcopied i j w (by omega) (by omega) hj]
    · obtain rfl : i = k := by omega
      obtain rfl : w = c := by omega
      rw [hstore.inside hj, hread j hj]
  · rw [hstore.outside (by omega), hout x (by omega)]

/-- Every bit of `n` is a bit of its chunk, at the same place of the chunk on every side with that endianness. -/
theorem exists_chunk_bit (big : Bool) {n i : Nat} (hi : i < n) :
    ∃ k j c, 32 * k < n ∧ c = min 32 (n - 32 * k) ∧ j < c ∧ ∀ x, bitAddress big (x + 32 * k) c j = x + i := by
  have hin : 32 * (i / 32) ≤ i ∧ i < 32 * (i / 32) + min 32 (n - 32 * (i / 32)) := by omega
  obtain ⟨hlt, -⟩ := bitAddress_bitIndex big hin
  refine ⟨i / 32, _, _, by omega, rfl, hlt, fun x => ?_⟩
  unfold bitIndex bitAddress
  split <;> omega

/-- Under equal endianness the bits come in the order of their addresses (R250). -/
theorem Memory.Copies.verbatim {m : Memory} {n : Nat} (h : Memory.Copies src dst m bigSrc bigDst a b n)
    (hbig : bigDst = bigSrc) {i : Nat} (hi : i < n) :
    Memory.bitAt m bigDst (b + i) = Memory.bitAt src bigSrc (a + i) := by
  obtain ⟨-, hcopied, -⟩ := h
  subst hbig
  obtain ⟨k, j, c, hk, hc, hj, haddr⟩ := exists_chunk_bit bigDst hi
  rw [← haddr b, ← haddr a, hcopied k j c hk hc hj]

end

/-! ## The state in which some bits are copied -/

/-- A slot whose index has moved by `n` bits and whose buffer is now `m` (R120, R250). -/
def Slot.filled (c : Slot) (m : Memory) (n : Nat) : Slot := { c with buf := m, idx := c.idx + n }

theorem filled_bitsLeft (c : Slot) (m : Memory) (n : Nat) : (c.filled m n).bitsLeft = c.bitsLeft - n :=
  advance_bitsLeft c n

theorem filled_filled (c : Slot) (m m' : Memory) (n n' : Nat) : (c.filled m n).filled m' n' = c.filled m' (n + n') := by
  simp [Slot.filled, Nat.add_assoc]

section
variable {s : State} {d src : Nat} {m : Memory} {n c : Nat}

/-- The state after `n` bits have gone from slot `src` to slot `d`, whose buffer is now `m`: both indices have advanced
over them (R250). -/
def State.copied (s : State) (d src : Nat) (m : Memory) (n : Nat) : State :=
  (s.setSlot src ((s.slot src).advance n)).setSlot d ((s.slot d).filled m n)

/-- The buffer `m` is slot `d`'s with `n` bits copied to its index from slot `src` at that one's index (R250). -/
abbrev State.Copies (s : State) (d src : Nat) (m : Memory) (n : Nat) : Prop :=
  Memory.Copies (s.slot src).buf (s.slot d).buf m (s.slot src).big (s.slot d).big (s.slot src).idx (s.slot d).idx n

theorem copied_zero : s.copied d src (s.slot d).buf 0 = s := by
  rw [State.copied, advance_zero, setSlot_self]
  exact setSlot_self ..

theorem copied_slot_dest (hd : d < s.nslot) : (s.copied d src m n).slot d = (s.slot d).filled m n :=
  slot_setSlot_same (by rwa [setSlot_nslot]) _

theorem copied_slot_source (hsrc : src < s.nslot) (hne : d ≠ src) :
    (s.copied d src m n).slot src = (s.slot src).advance n := by
  rw [State.copied, slot_setSlot_ne _ _ hne, slot_setSlot_same hsrc]

theorem copied_setSlot_source (hne : d ≠ src) (k : Slot) :
    (s.copied d src m n).setSlot src k = (s.setSlot src k).setSlot d ((s.slot d).filled m n) := by
  rw [State.copied, setSlot_comm _ _ hne, setSlot_setSlot]

/-- Copying goes on from where it stands. -/
theorem copied_copied (hd : d < s.nslot) (hsrc : src < s.nslot) (hne : d ≠ src) (m' : Memory) (n' : Nat) :
    (s.copied d src m n).copied d src m' n' = s.copied d src m' (n + n') := by
  rw [State.copied, copied_slot_dest hd, copied_slot_source hsrc hne, copied_setSlot_source hne, setSlot_setSlot,
    advance_advance, filled_filled, State.copied]

/-! ## One chunk -/

/-- A chunk that cannot be read changes nothing (R250). -/
theorem copyChunk_unread (hc : 1 ≤ c ∧ c ≤ 32) (hleft : (s.slot src).bitsLeft < c) :
    copyChunk d src c s = .raised .exhausted s := by
  obtain ⟨h1, h32⟩ := hc
  rw [copyChunk, readBits_bad (check_some.2 (.inr ⟨h1, h32, hleft, rfl⟩))]
  rfl

/-- A chunk that was read and does not fit is lost: the source has advanced over it (R250). -/
theorem copyChunk_lost (hne : d ≠ src) (hc : 1 ≤ c ∧ c ≤ 32) (hleft : c ≤ (s.slot src).bitsLeft)
    (hroom : (s.slot d).bitsLeft < c) :
    copyChunk d src c s = .raised .exhausted (s.setSlot src ((s.slot src).advance c)) := by
  obtain ⟨h1, h32⟩ := hc
  rw [copyChunk, readBits_ok (check_none.2 ⟨h1, h32, hleft⟩)]
  exact writeBits_bad (check_some.2 (.inr ⟨h1, h32, by rwa [slot_setSlot_ne _ _ hne.symm], rfl⟩))

/-- A chunk that is read and fits is copied (R250). -/
theorem copyChunk_ok (hne : d ≠ src) (hc : 1 ≤ c ∧ c ≤ 32) (hleft : c ≤ (s.slot src).bitsLeft)
    (hroom : c ≤ (s.slot d).bitsLeft) :
    copyChunk d src c s = .done () (s.copied d src (memWrite (s.slot d).buf (s.slot d).big (s.slot d).idx c
      (memRead (s.slot src).buf (s.slot src).big (s.slot src).idx c % 2 ^ c)) c) := by
  obtain ⟨h1, h32⟩ := hc
  have hslot : (s.setSlot src { s.slot src with idx := (s.slot src).idx + c }).slot d = s.slot d :=
    slot_setSlot_ne _ _ hne.symm
  rw [copyChunk, readBits_ok (check_none.2 ⟨h1, h32, hleft⟩), SubStep.andThen,
    writeBits_ok (check_none.2 ⟨h1, h32, by rwa [hslot]⟩), hslot]
  rfl

/-- The next chunk after `k` whole ones, when both sides have room for it. -/
theorem copyChunk_copied {k : Nat} (hd : d < s.nslot) (hsrc : src < s.nslot) (hne : d ≠ src)
    (hm : s.Copies d src m (32 * k)) (hc : 1 ≤ c ∧ c ≤ 32) (hleft : 32 * k + c ≤ (s.slot src).bitsLeft)
    (hroom : 32 * k + c ≤ (s.slot d).bitsLeft) :
    ∃ m', s.Copies d src m' (32 * k + c) ∧
      copyChunk d src c (s.copied d src m (32 * k)) = .done () (s.copied d src m' (32 * k + c)) := by
  have h32 : c ≤ 32 := hc.2
  have hsource := copied_slot_source (m := m) (n := 32 * k) hsrc hne
  have hdest := copied_slot_dest (src := src) (m := m) (n := 32 * k) hd
  refine ⟨_, hm.chunk h32, ?_⟩
  rw [copyChunk_ok hne hc (by rw [hsource, advance_bitsLeft]; omega) (by rw [hdest, filled_bitsLeft]; omega),
    copied_copied hd hsrc hne, hdest, hsource]
  rfl

/-! ## The loop -/

/-- A turn of the loop copies one chunk and goes on with the bits that are left. -/
theorem copyLoop_turn (s : State) (h : n ≠ 0) :
    copyLoop d src n n s = (copyChunk d src (min 32 n) s).andThen fun _ t =>
      copyLoop d src (n - min 32 n) (n - min 32 n) t := by
  rw [copyLoop_fuel d src (fuel' := n + 1) s (le_refl n) (Nat.le_succ n), copyLoop_chunk s h]
  exact congrArg _ (funext fun _ => funext fun t => copyLoop_fuel d src t (Nat.sub_le ..) (le_refl _))

/-- Where a chunk fails the loop stops. -/
theorem copyLoop_raised {e : Status} {t : State} (h : n ≠ 0) (hchunk : copyChunk d src (min 32 n) s = .raised e t) :
    copyLoop d src n n s = .raised e t := by
  rw [copyLoop_turn s h, hchunk]
  rfl

/-- A chunk that cannot be read stops the loop where it stands (R250). -/
theorem copyLoop_unread (h : 1 ≤ n) (hleft : (s.slot src).bitsLeft < min 32 n) :
    copyLoop d src n n s = .raised .exhausted s :=
  copyLoop_raised (by omega) (copyChunk_unread (by omega) hleft)

/-- A chunk that does not fit stops the loop, with the source advanced over it (R250). -/
theorem copyLoop_lost (hne : d ≠ src) (h : 1 ≤ n) (hleft : min 32 n ≤ (s.slot src).bitsLeft)
    (hroom : (s.slot d).bitsLeft < min 32 n) :
    copyLoop d src n n s = .raised .exhausted (s.setSlot src ((s.slot src).advance (min 32 n))) :=
  copyLoop_raised (by omega) (copyChunk_lost hne (by omega) hleft hroom)

/-- Past `k` whole chunks with room on both sides the loop goes on in the state that has their bits copied (R250). -/
theorem copyLoop_whole_chunks (hd : d < s.nslot) (hsrc : src < s.nslot) (hne : d ≠ src)
    (hwf : Memory.wf (s.slot d).buf) (k : Nat) (hk : 32 * k ≤ n) (hleft : 32 * k ≤ (s.slot src).bitsLeft)
    (hroom : 32 * k ≤ (s.slot d).bitsLeft) :
    ∃ m, s.Copies d src m (32 * k) ∧
      copyLoop d src n n s = copyLoop d src (n - 32 * k) (n - 32 * k) (s.copied d src m (32 * k)) := by
  induction k with
  | zero => exact ⟨_, copies_zero hwf, by rw [Nat.mul_zero, copied_zero, Nat.sub_zero]⟩
  | succ k ih =>
    obtain ⟨m, hm, hloop⟩ := ih (by omega) (by omega) (by omega)
    obtain ⟨m', hm', hchunk⟩ := copyChunk_copied (c := 32) hd hsrc hne hm (by decide) hleft hroom
    have hwhole : min 32 (n - 32 * k) = 32 := by omega
    refine ⟨m', hm', ?_⟩
    rw [hloop, copyLoop_turn _ (by omega), hwhole, hchunk, Nat.sub_sub]
    rfl

/-- With room on both sides the loop copies every bit (R250). -/
theorem copyLoop_copies (hd : d < s.nslot) (hsrc : src < s.nslot) (hne : d ≠ src)
    (hwf : Memory.wf (s.slot d).buf) (hleft : n ≤ (s.slot src).bitsLeft) (hroom : n ≤ (s.slot d).bitsLeft) :
    ∃ m, s.Copies d src m n ∧ copyLoop d src n n s = .done () (s.copied d src m n) := by
  obtain ⟨m, hm, hloop⟩ := copyLoop_whole_chunks hd hsrc hne hwf (n / 32) (n := n) (by omega) (by omega) (by omega)
  have hn : 32 * (n / 32) + n % 32 = n := Nat.div_add_mod n 32
  have hrest : n - 32 * (n / 32) = n % 32 := by omega
  rw [hrest] at hloop
  by_cases h0 : n % 32 = 0
  · rw [h0, copyLoop_zero] at hloop
    rw [h0, Nat.add_zero] at hn
    rw [hn] at hm hloop
    exact ⟨m, hm, hloop⟩
  · obtain ⟨m', hm', hchunk⟩ := copyChunk_copied (c := n % 32) hd hsrc hne hm (by omega) (by omega) (by omega)
    have hlast : min 32 (n % 32) = n % 32 := by omega
    rw [copyLoop_turn _ h0, hlast, hchunk, SubStep.andThen, Nat.sub_self, copyLoop_zero] at hloop
    rw [hn] at hm' hloop
    exact ⟨m', hm', hloop⟩

/-- WRBS between two different constructed slots answers what its loop does (R250). -/
theorem exec_wrbs (nbits : BitVec 64) (hd : slotOk d s = true) (hsrc : slotOk src s = true) (hne : d ≠ src) :
    exec (.wrbs d src nbits) s = (copyLoop d src nbits.toNat nbits.toNat s).answer fun _ => 0 :=
  (withSlot_ok hd _).trans ((withSlot_ok hsrc _).trans (if_neg hne))

end

end Sys2Proof.Machine

namespace Sys2Proof.Proofs

open Sys2Proof Sys2Proof.Machine

/-! ## The obligations on the copy -/

/-- Settles O56: the whole chunks first and then the shorter one, if there is one. -/
theorem wrbsCopiesEveryBit : Obligations.WrbsCopiesEveryBit := by
  intro s d src nbits hd hsrc hne hwf hroom hleft
  obtain ⟨hdn, -⟩ := slotOk_iff.1 hd
  obtain ⟨hsrcn, -⟩ := slotOk_iff.1 hsrc
  obtain ⟨m, hm, hloop⟩ := copyLoop_copies hdn hsrcn hne hwf hleft hroom
  refine ⟨m, hm, ?_, fun hbig i hi => hm.verbatim hbig hi⟩
  rw [exec_wrbs nbits hd hsrc hne, hloop]
  rfl

/-- Settles O57: the loop stops in the state that its last chunk leaves, wherever that chunk starts. -/
theorem wrbsLosesTheChunkThatDoesNotFit : Obligations.WrbsLosesTheChunkThatDoesNotFit := by
  intro s d src nbits hd hsrc hne hpos
  obtain ⟨hdn, -⟩ := slotOk_iff.1 hd
  obtain ⟨hsrcn, -⟩ := slotOk_iff.1 hsrc
  rw [exec_wrbs nbits hd hsrc hne]
  refine ⟨fun hleft => ?_, fun hleft hroom => ?_, fun hwf k c hk hc hleft hroom => ?_⟩
  · rw [copyLoop_unread hpos hleft]
    rfl
  · rw [copyLoop_lost hne hpos hleft hroom]
    rfl
  · subst hc
    obtain ⟨m, hm, hloop⟩ := copyLoop_whole_chunks hdn hsrcn hne hwf k hk.le hleft hroom
    have hsource := copied_slot_source (m := m) (n := 32 * k) hsrcn hne
    have hdest := copied_slot_dest (src := src) (m := m) (n := 32 * k) hdn
    rw [hloop]
    refine ⟨m, hm, fun hshort => ?_, fun hread hshort => ?_⟩
    · rw [copyLoop_unread (by omega) (by rw [hsource, advance_bitsLeft]; omega)]
      rfl
    · rw [copyLoop_lost hne (by omega) (by rw [hsource, advance_bitsLeft]; omega)
        (by rw [hdest, filled_bitsLeft]; omega), copied_setSlot_source hne, hsource]
      rfl

end Sys2Proof.Proofs

namespace Sys2Proof.Machine

/-! ## The host's commands -/

section
variable {d src fuel rem c : Nat} {s : State}

/-- A command that ends a sub-step gives the host its value, or the status it raised, and leaves its state but for the
response (R260). -/
theorem issue_answer {α : Type} {i : Instr} {r : SubStep α} {f : α → Operand} {es : List Status}
    (h : exec i s = r.answer f) (hr : r.RaisesIn es) (hok : .ok ∉ es) :
    ∃ q, issue i s = (r.withResp q).andThen fun v t => .done (f v) t := by
  cases r with
  | done v t =>
    refine ⟨some ⟨.ok, f v⟩, ?_⟩
    rw [issue, h]
    rfl
  | raised e t =>
    have he : e ≠ .ok := ne_of_mem_of_not_mem (show e ∈ es from hr) hok
    refine ⟨some ⟨e, 0⟩, ?_⟩
    rw [issue, h]
    exact if_neg he

/-- RDB is the raw read (R122). -/
theorem issue_rdb_eq (hsrc : slotOk src s = true) (c : Nat) :
    ∃ q, issue (.rdb src c) s = ((readBits src c s).withResp q).andThen fun v t => .done (zext128 v) t :=
  issue_answer (withSlot_ok hsrc _) (readBits_raisesIn (checkIn_any c) src s) (by decide)

/-- WRBU is the raw write (R124). -/
theorem issue_wrbu_eq (hd : slotOk d s = true) (c : Nat) (v : BitVec 32) :
    ∃ q, issue (.wrbu d c v) s = ((writeBits d v.toNat c s).withResp q).andThen fun _ t => .done 0 t :=
  issue_answer (withSlot_ok hd _) (writeBits_raisesIn (checkIn_any c) d _ s) (by decide)

/-- A value of up to 32 bits passes unchanged from RDB's result to WRBU's operand (R74). -/
theorem zext128_setWidth_toNat {v n : Nat} (hn : n ≤ 32) (hv : v < 2 ^ n) : ((zext128 v).setWidth 32).toNat = v := by
  have hpow : 2 ^ n ≤ 2 ^ 32 := Nat.pow_le_pow_right (by decide) hn
  rw [BitVec.toNat_setWidth, zext128, BitVec.toNat_ofNat]
  omega

/-- The host's RDB and WRBU for one chunk (R251). -/
def hostChunk (d src c : Nat) (s : State) : SubStep Unit :=
  (issue (.rdb src c) s).andThen fun v t =>
    (issue (.wrbu d c (v.setWidth 32)) t).andThen fun _ u => .done () u

theorem hostCopy_zero (d src fuel : Nat) (s : State) : hostCopy d src fuel 0 s = .done () s := by
  cases fuel <;> rfl

theorem hostCopy_chunk (s : State) (h : rem ≠ 0) :
    hostCopy d src (fuel + 1) rem s =
      (hostChunk d src (min 32 rem) s).andThen fun _ t => hostCopy d src fuel (rem - min 32 rem) t := by
  rw [hostCopy, if_neg h, hostChunk]
  cases issue (.rdb src (min 32 rem)) s with
  | raised e t => rfl
  | done v t =>
    dsimp only [SubStep.andThen]
    cases issue (.wrbu d (min 32 rem) (v.setWidth 32)) t <;> rfl

/-- Reading from a constructed slot leaves constructed what was. -/
theorem slotOk_advance (hsrc : slotOk src s = true) (n : Nat) {x : Nat} (hx : slotOk x s = true) :
    slotOk x (s.setSlot src ((s.slot src).advance n)) = true := by
  obtain ⟨-, hvalid⟩ := slotOk_iff.1 hsrc
  exact slotOk_setSlot (c := (s.slot src).advance n) hvalid hx

/-- Writing to a constructed slot leaves constructed what was. -/
theorem slotOk_filled (hd : slotOk d s = true) (m : Memory) (n : Nat) {x : Nat} (hx : slotOk x s = true) :
    slotOk x (s.setSlot d ((s.slot d).filled m n)) = true := by
  obtain ⟨-, hvalid⟩ := slotOk_iff.1 hd
  exact slotOk_setSlot (c := (s.slot d).filled m n) hvalid hx

/-- The host's two commands for a chunk do what the chunk does, apart from the response they leave (R251). -/
theorem hostChunk_eq (hd : slotOk d s = true) (hsrc : slotOk src s = true) (hc : c ≤ 32) :
    ∃ q, hostChunk d src c s = (copyChunk d src c s).withResp q := by
  obtain ⟨q, hrdb⟩ := issue_rdb_eq hsrc c
  rw [hostChunk, copyChunk, hrdb]
  rcases readBits_eq src c s with ⟨-, hread⟩ | ⟨e, -, hread⟩
  · obtain ⟨hlt, -⟩ := memRead_holdsAt (s.slot src).buf (s.slot src).big (s.slot src).idx c
    rw [hread]
    generalize hv : memRead (s.slot src).buf (s.slot src).big (s.slot src).idx c = v at hlt ⊢
    generalize ht : s.setSlot src { s.slot src with idx := (s.slot src).idx + c } = t
    have hdt : slotOk d (t.withResp q) = true := ht ▸ slotOk_advance hsrc c hd
    obtain ⟨q', hwrbu⟩ := issue_wrbu_eq hdt c ((zext128 v).setWidth 32)
    rw [zext128_setWidth_toNat hc hlt, writeBits_withResp] at hwrbu
    refine ⟨q', ?_⟩
    dsimp only [SubStep.withResp, SubStep.andThen]
    rw [hwrbu]
    cases writeBits d v c t <;> rfl
  · rw [hread]
    exact ⟨q, rfl⟩

/-- A chunk of the copy leaves constructed what was. -/
theorem slotOk_copyChunk {t : State} (hd : slotOk d s = true) (hsrc : slotOk src s = true)
    (h : copyChunk d src c s = .done () t) {x : Nat} (hx : slotOk x s = true) : slotOk x t = true := by
  rcases copyChunk_eq d src c s with ⟨e, -, he⟩ | ⟨e, s', -, -, -, he⟩ | ⟨v, s', -, -, rfl, -, he⟩
  · cases h.symm.trans he
  · cases h.symm.trans he
  · cases h.symm.trans he
    exact slotOk_filled (slotOk_advance hsrc c hd) _ c (slotOk_advance hsrc c hx)

/-- Of two responses left one after the other the later stands. -/
theorem subStep_withResp_withResp {α : Type} (r : SubStep α) (p q : Option Response) :
    (r.withResp p).withResp q = r.withResp q := by
  cases r <;> rfl

/-- The host's commands do what the loop of WRBS does, apart from the response they leave (R251). -/
theorem hostCopy_withResp (hd : slotOk d s = true) (hsrc : slotOk src s = true) (q : Option Response) :
    (hostCopy d src fuel rem s).withResp q = (copyLoop d src fuel rem s).withResp q := by
  induction fuel generalizing rem s with
  | zero => rfl
  | succ fuel ih =>
    by_cases h0 : rem = 0
    · rw [h0, hostCopy_zero, copyLoop_zero]
    · obtain ⟨p, hchunk⟩ := hostChunk_eq (c := min 32 rem) hd hsrc (Nat.min_le_left ..)
      rw [hostCopy_chunk s h0, copyLoop_chunk s h0, hchunk]
      cases hcopy : copyChunk d src (min 32 rem) s with
      | raised e t => rfl
      | done _ t =>
        have hd' : slotOk d (t.withResp p) = true := slotOk_copyChunk hd hsrc hcopy hd
        have hsrc' : slotOk src (t.withResp p) = true := slotOk_copyChunk hd hsrc hcopy hsrc
        refine (ih hd' hsrc').trans ?_
        rw [copyLoop_withResp, subStep_withResp_withResp]
        rfl

/-- A sub-step's end without a result is its state and its status (R73). -/
theorem answer_zero {α : Type} (r : SubStep α) :
    (r.answer fun _ => 0) = .next (r.state.withResp (some ⟨r.status, 0⟩)) := by
  cases r <;> rfl

end

end Sys2Proof.Machine

namespace Sys2Proof.Proofs

open Sys2Proof Sys2Proof.Machine

/-! ## The obligation on the host's commands -/

/-- Settles O58: the loop and the host's sequence differ in the response alone, which WRBS overwrites. -/
theorem wrbsEqualsTheHostsCommands : Obligations.WrbsEqualsTheHostsCommands := by
  intro s d src nbits hd hsrc hne
  calc exec (.wrbs d src nbits) s
      = (copyLoop d src nbits.toNat nbits.toNat s).answer fun _ => 0 := exec_wrbs nbits hd hsrc hne
    _ = (hostCopy d src nbits.toNat nbits.toNat s).answer fun _ => 0 := by
      rw [← answer_withResp _ none, ← hostCopy_withResp hd hsrc, answer_withResp]
    _ = _ := answer_zero _

end Sys2Proof.Proofs

/-! # String sequences

The bytes of a string in either encoding, and the state that the host's WRU8 and RDU8 commands for it leave. -/

namespace Sys2Proof.Machine

/-! ## The bytes of one character -/

section
variable {c : Char} {b : Byte} {least cp lo x : Nat}

theorem continuationByte_toNat (cp lo : Nat) : (continuationByte cp lo).toNat = 0x80 + cp / 2 ^ lo % 64 := by
  rw [continuationByte, BitVec.toNat_ofNat]
  omega

theorem eq_continuationByte (h : b.toNat = 0x80 + cp / 2 ^ lo % 64) : b = continuationByte cp lo :=
  BitVec.eq_of_toNat_eq (h.trans (continuationByte_toNat cp lo).symm)

theorem byte_eq_ofNat {n : Nat} (h : b.toNat = n) : b = BitVec.ofNat 8 n := by
  rw [← h, BitVec.ofNat_toNat, BitVec.setWidth_eq]

/-- A byte holds six payload bits when it is tag `10` and these bits (R266). -/
theorem continuationBits_eq_some : continuationBits b = some x ↔ b.toNat = 0x80 + x ∧ x < 64 := by
  unfold continuationBits
  split
  · rw [Option.some.injEq]
    omega
  · simp only [reduceCtorEq, false_iff]
    omega

/-- A code point is read as the character that has it, if it is in its shortest form (G4). -/
theorem scalarOf_eq_some : scalarOf least cp = some c ↔ c.toNat = cp ∧ least ≤ cp := by
  unfold scalarOf
  constructor
  · intro h
    obtain ⟨⟨hleast, hvalid⟩, hc⟩ := Option.ite_none_right_eq_some.1 h
    rw [← Option.some.inj hc, Char.toNat_ofNat, if_pos hvalid]
    exact ⟨rfl, hleast⟩
  · rintro ⟨rfl, hleast⟩
    rw [if_pos ⟨hleast, c.valid⟩, Char.ofNat_toNat]

theorem utf8Char_one (h : c.toNat ≤ 0x7F) : utf8Char c = [BitVec.ofNat 8 c.toNat] := if_pos h

theorem utf8Char_two (h : 0x80 ≤ c.toNat) (h' : c.toNat ≤ 0x7FF) :
    utf8Char c = [BitVec.ofNat 8 (0xC0 + c.toNat / 2 ^ 6 % 32), continuationByte c.toNat 0] := by
  rw [utf8Char, if_neg (by omega), if_pos h']

theorem utf8Char_three (h : 0x800 ≤ c.toNat) (h' : c.toNat ≤ 0xFFFF) :
    utf8Char c = [BitVec.ofNat 8 (0xE0 + c.toNat / 2 ^ 12 % 16), continuationByte c.toNat 6,
      continuationByte c.toNat 0] := by
  rw [utf8Char, if_neg (by omega), if_neg (by omega), if_pos h']

theorem utf8Char_four (h : 0x10000 ≤ c.toNat) :
    utf8Char c = [BitVec.ofNat 8 (0xF0 + c.toNat / 2 ^ 18 % 8), continuationByte c.toNat 12,
      continuationByte c.toNat 6, continuationByte c.toNat 0] := by
  rw [utf8Char, if_neg (by omega), if_neg (by omega), if_neg (by omega)]

/-- The code points end at U+10FFFF (G4). -/
theorem char_toNat_lt (c : Char) : c.toNat < 0x110000 := by
  have hvalid : c.toNat.isValidChar := c.valid
  unfold Nat.isValidChar at hvalid
  omega

/-- The four forms of a character, by the range of its code point (R266). -/
theorem char_cases (c : Char) : c.toNat ≤ 0x7F ∨ (0x80 ≤ c.toNat ∧ c.toNat ≤ 0x7FF) ∨
    (0x800 ≤ c.toNat ∧ c.toNat ≤ 0xFFFF) ∨ (0x10000 ≤ c.toNat ∧ c.toNat < 0x110000) := by
  have hlt := char_toNat_lt c
  omega

theorem utf8Char_ne_nil (c : Char) : utf8Char c ≠ [] := by
  rcases char_cases c with h | ⟨h, h'⟩ | ⟨h, h'⟩ | ⟨h, -⟩
  · simp [utf8Char_one h]
  · simp [utf8Char_two h h']
  · simp [utf8Char_three h h']
  · simp [utf8Char_four h]

/-- The bytes of a character as numbers: its leading tag and then six bits a byte (R266). -/
theorem map_toNat_utf8Char (c : Char) : (utf8Char c).map BitVec.toNat =
    if c.toNat ≤ 0x7F then [c.toNat]
    else if c.toNat ≤ 0x7FF then [0xC0 + c.toNat / 64, 0x80 + c.toNat % 64]
    else if c.toNat ≤ 0xFFFF then [0xE0 + c.toNat / 4096, 0x80 + c.toNat / 64 % 64, 0x80 + c.toNat % 64]
    else [0xF0 + c.toNat / 262144, 0x80 + c.toNat / 4096 % 64, 0x80 + c.toNat / 64 % 64, 0x80 + c.toNat % 64] := by
  rcases char_cases c with h | ⟨h, h'⟩ | ⟨h, h'⟩ | ⟨h, h'⟩
  · rw [utf8Char_one h, if_pos h]
    simp only [List.map_cons, List.map_nil, BitVec.toNat_ofNat, List.cons.injEq, and_true]
    omega
  · rw [utf8Char_two h h', if_neg (by omega), if_pos h']
    simp only [List.map_cons, List.map_nil, BitVec.toNat_ofNat, continuationByte_toNat, List.cons.injEq, and_true]
    omega
  · rw [utf8Char_three h h', if_neg (by omega), if_neg (by omega), if_pos h']
    simp only [List.map_cons, List.map_nil, BitVec.toNat_ofNat, continuationByte_toNat, List.cons.injEq, and_true]
    omega
  · rw [utf8Char_four h, if_neg (by omega), if_neg (by omega), if_neg (by omega)]
    simp only [List.map_cons, List.map_nil, BitVec.toNat_ofNat, continuationByte_toNat, List.cons.injEq, and_true]
    omega

/-- No byte of a character is zero but that of U+0000 (R266). -/
theorem ne_zero_of_mem_utf8Char (hc : c.toNat ≠ 0) (hb : b ∈ utf8Char c) : b ≠ 0 := by
  have hmem : b.toNat ∈ (utf8Char c).map BitVec.toNat := List.mem_map_of_mem hb
  have hne : b.toNat ≠ 0 := by
    rw [map_toNat_utf8Char] at hmem
    split_ifs at hmem <;> simp only [List.mem_cons, List.not_mem_nil, or_false] at hmem <;> omega
  rintro rfl
  exact hne rfl

end

/-! ## Decoding -/

section
variable {c : Char} {rest bytes : List Byte} {str : List Char} {fuel : Nat}

/-! What `utf8Next` reads after each leading byte (G4). -/

variable {b0 : Byte} {r : List Byte}

theorem utf8Next_one (h : b0.toNat < 0x80) :
    utf8Next (b0 :: r) = some (c, rest) ↔ c.toNat = b0.toNat ∧ r = rest := by
  simp [utf8Next, h, scalarOf_eq_some]

theorem utf8Next_two (h : 0xC0 ≤ b0.toNat) (h' : b0.toNat < 0xE0) :
    utf8Next (b0 :: r) = some (c, rest) ↔ ∃ b1 x1, (b1.toNat = 0x80 + x1 ∧ x1 < 64) ∧
      (c.toNat = (b0.toNat - 0xC0) * 64 + x1 ∧ 0x80 ≤ (b0.toNat - 0xC0) * 64 + x1) ∧ r = b1 :: rest := by
  simp only [utf8Next]
  rw [if_neg (by omega), if_pos ⟨h, h'⟩]
  rcases r with _ | ⟨b1, r⟩
  · simp
  · simp [Option.bind_eq_some_iff, scalarOf_eq_some, continuationBits_eq_some]

theorem utf8Next_three (h : 0xE0 ≤ b0.toNat) (h' : b0.toNat < 0xF0) :
    utf8Next (b0 :: r) = some (c, rest) ↔ ∃ b1 x1, (b1.toNat = 0x80 + x1 ∧ x1 < 64) ∧
      ∃ b2 x2, (b2.toNat = 0x80 + x2 ∧ x2 < 64) ∧ (c.toNat = (b0.toNat - 0xE0) * 4096 + x1 * 64 + x2 ∧
        0x800 ≤ (b0.toNat - 0xE0) * 4096 + x1 * 64 + x2) ∧ r = b1 :: b2 :: rest := by
  simp only [utf8Next]
  rw [if_neg (by omega), if_neg (by omega), if_pos ⟨h, h'⟩]
  rcases r with _ | ⟨b1, _ | ⟨b2, r⟩⟩
  · simp
  · simp
  · simp [Option.bind_eq_some_iff, scalarOf_eq_some, continuationBits_eq_some]

theorem utf8Next_four (h : 0xF0 ≤ b0.toNat) (h' : b0.toNat < 0xF8) :
    utf8Next (b0 :: r) = some (c, rest) ↔ ∃ b1 x1, (b1.toNat = 0x80 + x1 ∧ x1 < 64) ∧
      ∃ b2 x2, (b2.toNat = 0x80 + x2 ∧ x2 < 64) ∧ ∃ b3 x3, (b3.toNat = 0x80 + x3 ∧ x3 < 64) ∧
        (c.toNat = (b0.toNat - 0xF0) * 262144 + x1 * 4096 + x2 * 64 + x3 ∧
          0x10000 ≤ (b0.toNat - 0xF0) * 262144 + x1 * 4096 + x2 * 64 + x3) ∧ r = b1 :: b2 :: b3 :: rest := by
  simp only [utf8Next]
  rw [if_neg (by omega), if_neg (by omega), if_neg (by omega), if_pos ⟨h, h'⟩]
  rcases r with _ | ⟨b1, _ | ⟨b2, _ | ⟨b3, r⟩⟩⟩
  · simp
  · simp
  · simp
  · simp [Option.bind_eq_some_iff, scalarOf_eq_some, continuationBits_eq_some]

/-- The bytes that start a sequence (G4). -/
theorem lead_of_utf8Next (h : utf8Next (b0 :: r) = some (c, rest)) : b0.toNat < 0x80 ∨
    (0xC0 ≤ b0.toNat ∧ b0.toNat < 0xE0) ∨ (0xE0 ≤ b0.toNat ∧ b0.toNat < 0xF0) ∨
    (0xF0 ≤ b0.toNat ∧ b0.toNat < 0xF8) := by
  by_contra hlead
  unfold utf8Next at h
  dsimp only at h
  rw [if_neg (by omega), if_neg (by omega), if_neg (by omega), if_neg (by omega)] at h
  cases h

/-- The bytes of a character are read as that character (R265, R266). -/
theorem utf8Next_utf8Char_append (c : Char) (rest : List Byte) :
    utf8Next (utf8Char c ++ rest) = some (c, rest) := by
  have hcont := continuationByte_toNat c.toNat
  rcases char_cases c with h | ⟨h, h'⟩ | ⟨h, h'⟩ | ⟨h, h'⟩
  · have hlead : (BitVec.ofNat 8 c.toNat).toNat = c.toNat := by rw [BitVec.toNat_ofNat]; omega
    rw [utf8Char_one h]
    exact (utf8Next_one (by omega)).2 ⟨hlead.symm, rfl⟩
  · have hlead : (BitVec.ofNat 8 (0xC0 + c.toNat / 2 ^ 6 % 32)).toNat = 0xC0 + c.toNat / 64 := by
      rw [BitVec.toNat_ofNat]; omega
    rw [utf8Char_two h h']
    exact (utf8Next_two (by omega) (by omega)).2 ⟨_, _, ⟨hcont 0, by omega⟩, by omega, rfl⟩
  · have hlead : (BitVec.ofNat 8 (0xE0 + c.toNat / 2 ^ 12 % 16)).toNat = 0xE0 + c.toNat / 4096 := by
      rw [BitVec.toNat_ofNat]; omega
    rw [utf8Char_three h h']
    exact (utf8Next_three (by omega) (by omega)).2
      ⟨_, _, ⟨hcont 6, by omega⟩, _, _, ⟨hcont 0, by omega⟩, by omega, rfl⟩
  · have hlead : (BitVec.ofNat 8 (0xF0 + c.toNat / 2 ^ 18 % 8)).toNat = 0xF0 + c.toNat / 262144 := by
      rw [BitVec.toNat_ofNat]; omega
    rw [utf8Char_four h]
    exact (utf8Next_four (by omega) (by omega)).2
      ⟨_, _, ⟨hcont 12, by omega⟩, _, _, ⟨hcont 6, by omega⟩, _, _, ⟨hcont 0, by omega⟩, by omega, rfl⟩

/-- A character is read from its own bytes only: its code point fixes the payload bits of each (R265, G4). -/
theorem eq_append_of_utf8Next (h : utf8Next bytes = some (c, rest)) : bytes = utf8Char c ++ rest := by
  rcases bytes with _ | ⟨b0, r⟩
  · cases h
  rcases lead_of_utf8Next h with h0 | ⟨h0, h0'⟩ | ⟨h0, h0'⟩ | ⟨h0, h0'⟩
  · obtain ⟨hc, rfl⟩ := (utf8Next_one h0).1 h
    rw [utf8Char_one (by omega), ← byte_eq_ofNat hc.symm]
    rfl
  · obtain ⟨b1, x1, ⟨hb1, hx1⟩, ⟨hc, hleast⟩, rfl⟩ := (utf8Next_two h0 h0').1 h
    rw [utf8Char_two (by omega) (by omega), ← byte_eq_ofNat (b := b0) (by omega),
      ← eq_continuationByte (b := b1) (by omega)]
    rfl
  · obtain ⟨b1, x1, ⟨hb1, hx1⟩, b2, x2, ⟨hb2, hx2⟩, ⟨hc, hleast⟩, rfl⟩ := (utf8Next_three h0 h0').1 h
    rw [utf8Char_three (by omega) (by omega), ← byte_eq_ofNat (b := b0) (by omega),
      ← eq_continuationByte (b := b1) (by omega), ← eq_continuationByte (b := b2) (by omega)]
    rfl
  · obtain ⟨b1, x1, ⟨hb1, hx1⟩, b2, x2, ⟨hb2, hx2⟩, b3, x3, ⟨hb3, hx3⟩, ⟨hc, hleast⟩, rfl⟩ :=
      (utf8Next_four h0 h0').1 h
    rw [utf8Char_four (by omega), ← byte_eq_ofNat (b := b0) (by omega), ← eq_continuationByte (b := b1) (by omega),
      ← eq_continuationByte (b := b2) (by omega), ← eq_continuationByte (b := b3) (by omega)]
    rfl

theorem utf8Next_eq_some : utf8Next bytes = some (c, rest) ↔ bytes = utf8Char c ++ rest :=
  ⟨eq_append_of_utf8Next, fun h => h ▸ utf8Next_utf8Char_append c rest⟩

theorem utf8_nil : utf8 [] = [] := rfl

theorem utf8_cons (c : Char) (str : List Char) : utf8 (c :: str) = utf8Char c ++ utf8 str := List.flatMap_cons

theorem utf8_eq_nil : utf8 str = [] ↔ str = [] := by
  cases str with
  | nil => simp [utf8_nil]
  | cons c str => simp [utf8_cons, utf8Char_ne_nil]

/-- A turn a byte is enough: each character takes at least one (R265). -/
theorem utf8DecodeLoop_eq_some (hfuel : bytes.length ≤ fuel) :
    utf8DecodeLoop fuel bytes = some str ↔ bytes = utf8 str := by
  induction fuel generalizing bytes str with
  | zero =>
    obtain rfl : bytes = [] := List.length_eq_zero_iff.1 (by omega)
    simp [utf8DecodeLoop, utf8_eq_nil]
  | succ fuel ih =>
    rcases bytes with _ | ⟨b, r⟩
    · simp [utf8DecodeLoop, utf8_eq_nil]
    have hshorter {c : Char} {rest : List Byte} (hr : b :: r = utf8Char c ++ rest) : rest.length ≤ fuel := by
      have hpos : 0 < (utf8Char c).length := List.length_pos_iff.2 (utf8Char_ne_nil c)
      have hlength := congrArg List.length hr
      rw [List.length_append] at hlength
      omega
    simp only [utf8DecodeLoop, Option.bind_eq_some_iff, Option.map_eq_some_iff, Prod.exists, utf8Next_eq_some]
    constructor
    · rintro ⟨c, rest, hr, cs, hcs, rfl⟩
      rw [hr, (ih (hshorter hr)).1 hcs, utf8_cons]
    · intro hr
      rcases str with _ | ⟨c, cs⟩
      · cases hr
      rw [utf8_cons] at hr
      exact ⟨c, utf8 cs, hr, cs, (ih (hshorter hr)).2 rfl, rfl⟩

theorem utf8Decode_eq_some : utf8Decode bytes = some str ↔ bytes = utf8 str := utf8DecodeLoop_eq_some le_rfl

/-! ## ASCII -/

theorem allAscii_iff : allAscii str = true ↔ ∀ c ∈ str, c.toNat ≤ 0x7F := by
  simp [allAscii]

/-- An ASCII character is its own byte in UTF-8 (R262, R266). -/
theorem utf8_of_ascii (h : ∀ c ∈ str, c.toNat ≤ 0x7F) : utf8 str = str.map fun c => BitVec.ofNat 8 c.toNat := by
  induction str with
  | nil => rfl
  | cons c str ih =>
    obtain ⟨hc, hstr⟩ := List.forall_mem_cons.1 h
    rw [utf8_cons, utf8Char_one hc, ih hstr]
    rfl

theorem writeAscii_of_ascii {x : Nat} {fixed : Option Nat} {s : State} (h : ∀ c ∈ str, c.toNat ≤ 0x7F) :
    writeAscii x str fixed s = writeUtf8 x str fixed s := by
  rw [writeAscii, if_pos (allAscii_iff.2 h), writeUtf8, utf8_of_ascii h]

end
end Sys2Proof.Machine

namespace Sys2Proof.Proofs

open Sys2Proof Sys2Proof.Machine

/-! ## The obligation on the bytes of strings -/

/-- Settles O59: a character and its bytes determine each other, and so character by character does a string. -/
theorem stringBytesAreThoseOfTheEncodings : Obligations.StringBytesAreThoseOfTheEncodings := by
  refine ⟨fun c rest => ?_, utf8_nil, fun bytes str => utf8Decode_eq_some,
    fun x str fixed s h => writeAscii_of_ascii h, fun x str fixed s ⟨c, hc, hlarge⟩ => if_neg fun h => ?_⟩
  · rw [utf8_cons, List.map_append, map_toNat_utf8Char]
  · have := allAscii_iff.1 h c hc
    omega

end Sys2Proof.Proofs

namespace Sys2Proof.Machine

/-! ## Bytes in a buffer -/

/-- The buffer `m` with whole bytes stored from bit address `a` on, one WRU8 each (R260). -/
def byteStore (m : Memory) (big : Bool) (a : Nat) (bytes : List Byte) : Memory :=
  match bytes with
  | [] => m
  | b :: rest => byteStore (memWrite m big a 8 b.toNat) big (a + 8) rest

/-- One RDU8 each from bit address `a` on gives these bytes (R260). -/
def Memory.HoldsBytes (m : Memory) (big : Bool) (a : Nat) (bytes : List Byte) : Prop :=
  match bytes with
  | [] => True
  | b :: rest => Memory.HoldsAt m big a 8 b.toNat ∧ Memory.HoldsBytes m big (a + 8) rest

/-- Bytes stored after an access keep what it holds. -/
theorem Memory.HoldsAt.byteStore {m : Memory} {big : Bool} {a n v p : Nat} (hm : Memory.wf m)
    (h : Memory.HoldsAt m big a n v) (hp : a + n ≤ p) (bytes : List Byte) :
    Memory.HoldsAt (byteStore m big p bytes) big a n v := by
  induction bytes generalizing m p with
  | nil => exact h
  | cons b rest ih =>
    exact ih (memWrite_wf hm ..) (h.of_storesAt (memWrite_storesAt hm _ _ _ _) (.inl hp)) (by omega)

theorem byteStore_holdsBytes {m : Memory} (hm : Memory.wf m) (big : Bool) (a : Nat) (bytes : List Byte) :
    Memory.HoldsBytes (byteStore m big a bytes) big a bytes := by
  induction bytes generalizing m a with
  | nil => trivial
  | cons b rest ih =>
    have hstored : Memory.HoldsAt (memWrite m big a 8 b.toNat) big a 8 b.toNat :=
      (memWrite_storesAt hm _ _ _ _).holdsAt b.isLt
    exact ⟨hstored.byteStore (memWrite_wf hm ..) (le_refl _) rest, ih (memWrite_wf hm ..) (a + 8)⟩

/-! ## Writing bytes -/

section
variable {x : Nat} {s t : State} {b : Byte} {bytes out : List Byte} {fixed : Option Nat}

/-- A slot after whole bytes were written to it (R260). -/
def Slot.withBytes (c : Slot) (bytes : List Byte) : Slot :=
  c.filled (byteStore c.buf c.big c.idx bytes) (8 * bytes.length)

theorem withBytes_nil (c : Slot) : c.withBytes [] = c := rfl

theorem withBytes_cons (c : Slot) (b : Byte) (bytes : List Byte) :
    (c.withBytes [b]).withBytes bytes = c.withBytes (b :: bytes) := by
  have hlength : 8 + 8 * bytes.length = 8 * (b :: bytes).length := by
    rw [List.length_cons]
    omega
  exact (filled_filled ..).trans (congrArg (c.filled _) hlength)

/-- A WRU8 that the host sees succeed had room for its byte and stored it (R158). -/
theorem of_issue_wru8_eq_done {r : Operand} (hx : slotOk x s = true) (h : issue (.wru8 x b) s = .done r t) :
    8 ≤ (s.slot x).bitsLeft ∧ slotOk x t = true ∧ t.slot x = (s.slot x).withBytes [b] := by
  have hrun : exec (.wru8 x b) s = (writeBits x b.toNat 8 s).answer fun _ => 0 := by
    rw [← writeNarrow_eq]
    exact withSlot_ok hx _
  obtain ⟨q, hissue⟩ := issue_answer hrun (writeBits_raisesIn (checkIn_any 8) x _ s) (by decide)
  rw [hissue] at h
  rcases writeBits_eq x b.toNat 8 s with ⟨hc, hwrite⟩ | ⟨_, -, hwrite⟩ <;> rw [hwrite] at h
  · obtain ⟨-, -, hleft⟩ := check_none.1 hc
    obtain ⟨hbank, -⟩ := slotOk_iff.1 hx
    rw [Nat.mod_eq_of_lt b.isLt] at h
    cases h
    exact ⟨hleft, slotOk_filled hx _ 8 hx, slot_setSlot_same hbank _⟩
  · cases h

/-- Bytes that the host wrote without an error had room and stand in the slot (R260). -/
theorem of_writeBytes_eq_done (hx : slotOk x s = true) (h : writeBytes x bytes s = .done () t) :
    8 * bytes.length ≤ (s.slot x).bitsLeft ∧ slotOk x t = true ∧ t.slot x = (s.slot x).withBytes bytes := by
  induction bytes generalizing s with
  | nil =>
    cases h
    exact ⟨Nat.zero_le _, hx, rfl⟩
  | cons b rest ih =>
    rw [writeBytes] at h
    cases hissue : issue (.wru8 x b) s with
    | raised e s' =>
      rw [hissue] at h
      cases h
    | done r s' =>
      rw [hissue] at h
      obtain ⟨hleft, hx', hslot⟩ := of_issue_wru8_eq_done hx hissue
      obtain ⟨hrest, hxt, hslot'⟩ := ih hx' h
      have hroom : (s'.slot x).bitsLeft = (s.slot x).bitsLeft - 8 := hslot ▸ filled_bitsLeft (s.slot x) _ 8
      refine ⟨?_, hxt, ?_⟩
      · rw [List.length_cons]
        omega
      · rw [hslot', hslot, withBytes_cons]

/-! ## Reading bytes -/

/-- Slot `x` is constructed and its next bytes are these. -/
def State.HasBytes (s : State) (x : Nat) (bytes : List Byte) : Prop :=
  slotOk x s = true ∧ 8 * bytes.length ≤ (s.slot x).bitsLeft ∧
    Memory.HoldsBytes (s.slot x).buf (s.slot x).big (s.slot x).idx bytes

/-- The state in which `n` more bits of slot `x` are consumed. -/
def State.consume (s : State) (x n : Nat) : State := s.setSlot x ((s.slot x).advance n)

theorem consume_zero (s : State) (x : Nat) : s.consume x 0 = s := setSlot_self s x

theorem consume_slot (hx : slotOk x s = true) (n : Nat) : (s.consume x n).slot x = (s.slot x).advance n :=
  slot_setSlot_same (slotOk_iff.1 hx).1 _

theorem consume_withResp (s : State) (x n : Nat) (q : Option Response) :
    (s.withResp q).consume x n = (s.consume x n).withResp q := rfl

theorem consume_consume (hx : slotOk x s = true) (m n : Nat) : (s.consume x m).consume x n = s.consume x (m + n) := by
  rw [State.consume, consume_slot hx, advance_advance]
  exact setSlot_setSlot ..

/-- The byte comes back from the result field as the host takes it (R74). -/
theorem zext128_byte (b : Byte) : (zext128 b.toNat).setWidth 8 = b := by
  refine BitVec.eq_of_toNat_eq ?_
  rw [BitVec.toNat_setWidth, zext128, BitVec.toNat_ofNat]
  omega

/-- RDU8 gives the next byte and leaves those after it (R146). -/
theorem issue_rdu8_of_hasBytes (h : s.HasBytes x (b :: bytes)) : ∃ q,
    issue (.rdu8 x) s = .done (zext128 b.toNat) ((s.consume x 8).withResp q) ∧
      ((s.consume x 8).withResp q).HasBytes x bytes := by
  obtain ⟨hx, hleft, hbyte, hrest⟩ := h
  rw [List.length_cons] at hleft
  have hrun : exec (.rdu8 x) s = (readBits x 8 s).answer zext128 := withSlot_ok hx _
  obtain ⟨q, hissue⟩ := issue_answer hrun (readBits_raisesIn (checkIn_any 8) x s) (by decide)
  rw [readBits_ok (check_none.2 ⟨by omega, by omega, by omega⟩), (memRead_holdsAt ..).unique hbyte] at hissue
  refine ⟨q, hissue, slotOk_advance hx 8 hx, ?_⟩
  rw [withResp_slot, consume_slot hx, advance_bitsLeft]
  exact ⟨by omega, hrest⟩

/-- A read with a count consumes all of its bytes and returns those before the first zero (R261). -/
theorem readFixed_of_hasBytes (h : s.HasBytes x bytes) (stopped : Bool) (out : List Byte) : ∃ q,
    readFixed x bytes.length stopped out s =
      .done (out ++ if stopped then [] else bytes.takeWhile (· ≠ 0))
        ((s.consume x (8 * bytes.length)).withResp q) := by
  induction bytes generalizing s stopped out with
  | nil =>
    refine ⟨s.resp, ?_⟩
    simp only [List.length_nil, List.takeWhile_nil, ite_self, List.append_nil, Nat.mul_zero, consume_zero]
    rfl
  | cons b rest ih =>
    obtain ⟨p, hissue, hrest⟩ := issue_rdu8_of_hasBytes h
    obtain ⟨hx, -⟩ := h
    obtain ⟨q, hread⟩ := ih hrest (stopped || decide (b = 0))
      (if stopped || decide (b = 0) then out else out ++ [b])
    refine ⟨q, ?_⟩
    rw [List.length_cons, readFixed, hissue]
    dsimp only [SubStep.andThen]
    rw [zext128_byte, hread, consume_withResp, consume_consume hx, withResp_withResp,
      Nat.mul_succ, Nat.add_comm 8]
    cases stopped with
    | true => rfl
    | false =>
      by_cases hb : b = 0
      · simp only [Bool.false_or, decide_eq_true hb, if_true, List.append_nil, Bool.false_eq_true, if_false,
          List.takeWhile_cons_of_neg (p := fun b : Byte => decide (b ≠ 0)) (by simpa using hb)]
      · simp only [Bool.false_or, decide_eq_false hb, Bool.false_eq_true, if_false, List.append_assoc,
          List.takeWhile_cons_of_pos (p := fun b : Byte => decide (b ≠ 0)) (by simpa using hb)]
        rfl

/-- A read without a count consumes the first zero and returns the bytes before it (R261). -/
theorem readUntilZero_of_hasBytes {fuel : Nat} (h : s.HasBytes x (bytes ++ [0])) (hne : ∀ b ∈ bytes, b ≠ 0)
    (hfuel : bytes.length < fuel) (out : List Byte) : ∃ q,
    readUntilZero x fuel out s = .done (out ++ bytes) ((s.consume x (8 * (bytes ++ [0]).length)).withResp q) := by
  induction bytes generalizing s fuel out with
  | nil =>
    obtain ⟨fuel, rfl⟩ : ∃ k, fuel = k + 1 := ⟨fuel - 1, by omega⟩
    obtain ⟨q, hissue, -⟩ := issue_rdu8_of_hasBytes h
    refine ⟨q, ?_⟩
    rw [readUntilZero, hissue]
    dsimp only [SubStep.andThen]
    rw [zext128_byte, if_pos rfl, List.append_nil]
    rfl
  | cons b rest ih =>
    obtain ⟨fuel, rfl⟩ : ∃ k, fuel = k + 1 := ⟨fuel - 1, by omega⟩
    obtain ⟨hb, hrestne⟩ := List.forall_mem_cons.1 hne
    rw [List.length_cons] at hfuel
    obtain ⟨p, hissue, hrest⟩ := issue_rdu8_of_hasBytes h
    obtain ⟨hx, -⟩ := h
    obtain ⟨q, hread⟩ := ih hrest hrestne (by omega : rest.length < fuel) (out ++ [b])
    refine ⟨q, ?_⟩
    rw [readUntilZero, hissue]
    dsimp only [SubStep.andThen]
    rw [zext128_byte, if_neg hb, hread, consume_withResp, consume_consume hx, withResp_withResp,
      List.append_assoc, List.cons_append, List.cons_append,
      List.nil_append, List.length_cons, Nat.mul_succ, Nat.add_comm 8]

/-! ## The policy -/

/-- The written bytes are the string's and zeros after them (R261). -/
theorem policyBytes_eq (hfit : ∀ k ∈ fixed, bytes.length ≤ k) : policyBytes bytes fixed =
    bytes ++ List.replicate (fixed.getD (bytes.length + 1) - bytes.length) 0 := by
  have hlength : bytes.length ≤ fixed.getD (bytes.length + 1) := by
    cases fixed with
    | none => exact Nat.le_succ _
    | some k => exact hfit k rfl
  refine List.ext_getElem (by simp [policyBytes, hlength]) fun i _ _ => ?_
  rcases Nat.lt_or_ge i bytes.length with hi | hi
  · simp [policyBytes, hi]
  · simp [policyBytes, hi]

/-- Where `write_policy` could have written them, `read_policy` returns the string's bytes and consumes them all
(R261, R267). -/
theorem readPolicy_of_hasBytes (h : s.HasBytes x (policyBytes bytes fixed)) (hne : ∀ b ∈ bytes, b ≠ 0)
    (hfit : ∀ k ∈ fixed, bytes.length ≤ k) : ∃ q, readPolicy x fixed s =
      .done bytes ((s.consume x (8 * (policyBytes bytes fixed).length)).withResp q) := by
  cases fixed with
  | none =>
    have hpolicy : policyBytes bytes none = bytes ++ [0] := by
      rw [policyBytes_eq hfit, Option.getD_none, Nat.add_sub_cancel_left]
      rfl
    rw [hpolicy] at h ⊢
    have hfuel : bytes.length < (s.slot x).bitsLeft / 8 + 1 := by
      obtain ⟨-, hleft, -⟩ := h
      rw [List.length_append, List.length_singleton] at hleft
      omega
    exact readUntilZero_of_hasBytes h hne hfuel []
  | some k =>
    have hlength : (policyBytes bytes (some k)).length = k := by simp [policyBytes]
    have htake : (policyBytes bytes (some k)).takeWhile (· ≠ 0) = bytes := by
      rw [policyBytes_eq hfit, List.takeWhile_append_of_pos (by simpa using hne), List.takeWhile_replicate]
      simp
    obtain ⟨q, hread⟩ := readFixed_of_hasBytes h false []
    rw [if_neg (by decide), List.nil_append, htake] at hread
    exact ⟨q, by rw [← hread, hlength]; rfl⟩

/-! ## Reading back -/

/-- The state with the index of slot `x` moved, as the host does before it reads back (R267). -/
def State.rewind (s : State) (x idx : Nat) : State := s.setSlot x { s.slot x with idx := idx }

theorem rewind_slot (hx : slotOk x s = true) (idx : Nat) : (s.rewind x idx).slot x = { s.slot x with idx := idx } :=
  slot_setSlot_same (slotOk_iff.1 hx).1 _

theorem slotOk_rewind (hx : slotOk x s = true) (idx : Nat) : slotOk x (s.rewind x idx) = true :=
  slotOk_setSlot (c := { s.slot x with idx := idx }) (slotOk_iff.1 hx).2 hx

/-- Consuming the bits again brings the state back. -/
theorem rewind_consume (hx : slotOk x s = true) {idx n : Nat} (h : (s.slot x).idx = idx + n) :
    (s.rewind x idx).consume x n = s := by
  have hslot : ({ s.slot x with idx := idx } : Slot).advance n = s.slot x := by
    rw [Slot.advance, ← h]
  rw [State.consume, rewind_slot hx, hslot, State.rewind, setSlot_setSlot, setSlot_self]

theorem rewind_hasBytes {c : Slot} (hx : slotOk x s = true) (h : s.slot x = c.withBytes bytes)
    (hm : Memory.wf c.buf) (hleft : 8 * bytes.length ≤ c.bitsLeft) : (s.rewind x c.idx).HasBytes x bytes := by
  refine ⟨slotOk_rewind hx _, ?_⟩
  rw [rewind_slot hx, h]
  exact ⟨hleft, byteStore_holdsBytes hm ..⟩

/-- Bytes written under the policy and read back at the same index come back, and the index ends where the write left
it (R267). -/
theorem readPolicy_of_writePolicy_eq_done (hx : slotOk x s = true) (hm : Memory.wf (s.slot x).buf)
    (hne : ∀ b ∈ bytes, b ≠ 0) (hfit : ∀ k ∈ fixed, bytes.length ≤ k)
    (h : writePolicy x bytes fixed s = .done () t) :
    ∃ u, readPolicy x fixed (t.rewind x (s.slot x).idx) = .done bytes u ∧ u.slots = t.slots := by
  obtain ⟨hleft, hxt, hslot⟩ := of_writeBytes_eq_done hx h
  obtain ⟨q, hread⟩ := readPolicy_of_hasBytes (rewind_hasBytes hxt hslot hm hleft) hne hfit
  have hidx : (t.slot x).idx = (s.slot x).idx + 8 * (policyBytes bytes fixed).length := by rw [hslot]; rfl
  exact ⟨_, hread, by rw [rewind_consume hxt hidx, withResp_slots]⟩

/-! ## The two encodings -/

variable {str : List Char}

theorem utf8_ne_zero (hne : ∀ c ∈ str, c.toNat ≠ 0) : ∀ b ∈ utf8 str, b ≠ 0 := by
  intro b hb
  obtain ⟨c, hc, hbc⟩ := List.mem_flatMap.1 hb
  exact ne_zero_of_mem_utf8Char (hne c hc) hbc

/-- The bytes of an ASCII string pass RDASCII's check and are read as the string (R262, R263). -/
theorem readAscii_of_readPolicy (hascii : ∀ c ∈ str, c.toNat ≤ 0x7F)
    (h : readPolicy x fixed s = .done (utf8 str) t) :
    readAscii x fixed s = .done str t := by
  have htoNat (c : Char) (hc : c ∈ str) : (BitVec.ofNat 8 c.toNat).toNat = c.toNat := by
    have := hascii c hc
    rw [BitVec.toNat_ofNat]
    omega
  have hchecked : ((utf8 str).all fun b => decide (b.toNat ≤ 0x7F)) = true := by
    rw [utf8_of_ascii hascii, List.all_map, List.all_eq_true]
    intro c hc
    exact decide_eq_true ((htoNat c hc).trans_le (hascii c hc))
  have hchars : (utf8 str).map (fun b => Char.ofNat b.toNat) = str := by
    rw [utf8_of_ascii hascii, List.map_map]
    refine (List.map_congr_left fun c hc => ?_).trans (List.map_id str)
    exact (congrArg Char.ofNat (htoNat c hc)).trans (Char.ofNat_toNat c)
  rw [readAscii, h]
  dsimp only [SubStep.andThen]
  rw [if_pos hchecked, hchars]

theorem readUtf8_of_readPolicy (h : readPolicy x fixed s = .done (utf8 str) t) : readUtf8 x fixed s = .done str t := by
  rw [readUtf8, h]
  dsimp only [SubStep.andThen]
  rw [utf8Decode_eq_some.2 rfl]

end

end Sys2Proof.Machine

namespace Sys2Proof.Proofs

open Sys2Proof Sys2Proof.Machine

/-! ## The obligation on the round trip -/

/-- Settles O60: the policy brings back the bytes, none of which is zero, and the bytes determine the string. -/
theorem stringRoundTrip : Obligations.StringRoundTrip := by
  intro s t x str fixed hx hm hne
  refine ⟨fun hall hfit h => ?_, fun hfit h => ?_⟩
  · have hascii := allAscii_iff.1 hall
    have hlength : (utf8 str).length = str.length := by rw [utf8_of_ascii hascii, List.length_map]
    rw [writeAscii_of_ascii hascii] at h
    obtain ⟨u, hread, hu⟩ := readPolicy_of_writePolicy_eq_done hx hm (utf8_ne_zero hne) (hlength ▸ hfit) h
    exact ⟨u, readAscii_of_readPolicy hascii hread, hu⟩
  · obtain ⟨u, hread, hu⟩ := readPolicy_of_writePolicy_eq_done hx hm (utf8_ne_zero hne) hfit h
    exact ⟨u, readUtf8_of_readPolicy hread, hu⟩

end Sys2Proof.Proofs

/-! # Slot and context errors

Every command checks the slots or the context it names before it does anything, so a number that fails its check ends
the command with the state as it was (R110, R311, R312). -/

namespace Sys2Proof.Machine

section
variable {i : Instr} {s : State}

/-! ## The checks on numbers -/

theorem slotOk_of_le {x : Nat} (h : s.nslot ≤ x) : slotOk x s = false :=
  Bool.eq_false_iff.2 fun hx => Nat.not_lt.2 h (slotOk_iff.1 hx).1

theorem slotOk_of_invalid {x : Nat} (h : (s.slot x).valid = false) : slotOk x s = false :=
  Bool.eq_false_iff.2 fun hx => Bool.false_ne_true (h.symm.trans (slotOk_iff.1 hx).2)

theorem ctxOk_of_le {j : Nat} (h : s.nctx ≤ j) : ctxOk j s = false :=
  Bool.eq_false_iff.2 fun hj => Nat.not_lt.2 h (ctxOk_iff.1 hj).1

theorem ctxOk_of_invalid {j : Nat} (h : (s.ctx j).valid = false) : ctxOk j s = false :=
  Bool.eq_false_iff.2 fun hj => Bool.false_ne_true (h.symm.trans (ctxOk_iff.1 hj).2)

/-! ## Cursor commands -/

/-- A `slotcheck` before a body that itself ends in ERR_SLOT makes no difference to the outcome. -/
theorem withSlot_eq_raise {x : Nat} {body : Result} (h : slotOk x s = true → body = raise .slot s) :
    withSlot x s body = raise .slot s := by
  rcases withSlot_eq x s body with ⟨hx, e⟩ | ⟨-, e⟩
  · exact e.trans (h hx)
  · exact e

/-- A cursor command that constructs nothing is its body behind `slotcheck` of its primary slot (R110). -/
theorem exec_eq_withSlot (hi : i.isCodec = false) (hc : i.constructs = false) (s : State) :
    ∃ body, exec i s = withSlot i.primary s body := by
  cases i with
  | new | slice => exact Bool.noConfusion hc
  | cnew | enc | dec => exact Bool.noConfusion hi
  | _ => exact ⟨_, rfl⟩

theorem exec_unconstructed (hi : i.isCodec = false) (hc : i.constructs = false) (hx : slotOk i.primary s = false) :
    exec i s = raise .slot s := by
  obtain ⟨body, e⟩ := exec_eq_withSlot hi hc s
  exact e.trans (withSlot_bad hx body)

/-- NEW and SLICE test the range of their destination only; the others test its `VALID` bit too (R100, R108). -/
theorem exec_slot_out (hi : i.isCodec = false) (hx : s.nslot ≤ i.primary) : exec i s = raise .slot s := by
  cases hc : i.constructs with
  | false => exact exec_unconstructed hi hc (slotOk_of_le hx)
  | true =>
    cases i with
    | new => exact execNew_badSlot hx
    | slice => exact if_pos hx
    | _ => exact Bool.noConfusion hc

theorem execSlice_badSource {d src : Nat} (start stop : BitVec 64) (h : slotOk src s = false ∨ d = src) :
    execSlice d src start stop s = raise .slot s := by
  unfold execSlice
  split
  · rfl
  · exact withSlot_eq_raise fun hsrc => if_pos (h.resolve_left (ne_false_of_eq_true hsrc))

theorem execWrbs_badSource {d src : Nat} (nbits : BitVec 64) (h : slotOk src s = false ∨ d = src) :
    execWrbs d src nbits s = raise .slot s :=
  withSlot_eq_raise fun _ => withSlot_eq_raise fun hsrc =>
    if_pos (h.resolve_left (ne_false_of_eq_true hsrc))

/-- SLICE and WRBS end in ERR_SLOT when the source holds no cursor or is the destination (R311). -/
theorem exec_badSource (hi : i.hasSource = true) (h : slotOk i.secondary s = false ∨ i.primary = i.secondary) :
    exec i s = raise .slot s := by
  cases i with
  | slice d src start stop => exact execSlice_badSource start stop h
  | wrbs d src nbits => exact execWrbs_badSource nbits h
  | _ => exact Bool.noConfusion hi

/-! ## Codec commands -/

/-- ENC and DEC end in ERR_CTX when their context fails its check (R201, R202). -/
theorem exec_unconfigured (hi : i.isCodec = true) (hc : i.configures = false) (hj : ctxOk i.primary s = false) :
    exec i s = raise .ctx s := by
  cases i with
  | enc | dec => exact if_neg (ne_true_of_eq_false hj)
  | cnew => exact Bool.noConfusion hc
  | _ => exact Bool.noConfusion hi

/-- CNEW tests the range of its context only (R200). -/
theorem exec_ctx_out (hi : i.isCodec = true) (hj : s.nctx ≤ i.primary) : exec i s = raise .ctx s := by
  cases hc : i.configures with
  | false => exact exec_unconfigured hi hc (ctxOk_of_le hj)
  | true =>
    cases i with
    | cnew => exact if_pos hj
    | _ => exact Bool.noConfusion hc

/-- In the table R307 only the rows of the codec commands hold ERR_CTX. -/
theorem isCodec_of_ctx_mem_mayRaise (h : Status.ctx ∈ i.mayRaise) : i.isCodec = true := by
  cases i with
  | cnew | enc | dec => rfl
  | _ => simp [Instr.mayRaise] at h

end

end Sys2Proof.Machine

namespace Sys2Proof.Proofs

open Sys2Proof Sys2Proof.Machine

/-! ## The obligations on slot and context errors -/

/-- Settles O17: each case of R311 fails a check that the command makes before it acts. -/
theorem slotErrorsChangeNothing : Obligations.SlotErrorsChangeNothing :=
  ⟨fun _ _ hi hx => exec_slot_out hi hx,
    fun _ _ hi hx => exec_badSource hi (.inl (slotOk_of_le hx)),
    fun _ _ hi hc hx => exec_unconstructed hi hc (slotOk_of_invalid hx),
    fun _ _ hi hx => exec_badSource hi (.inl (slotOk_of_invalid hx)),
    fun _ _ hi he => exec_badSource hi (.inr he)⟩

/-- Settles O18: the context checks come first, and O7 leaves no other command a way to raise ERR_CTX. -/
theorem contextErrorsChangeNothing : Obligations.ContextErrorsChangeNothing := by
  refine ⟨fun _ _ hi hj => exec_ctx_out hi hj,
    fun _ _ hi hc hj => exec_unconfigured hi hc (ctxOk_of_invalid hj), fun i s t r hi h hr hctx => ?_⟩
  obtain ⟨-, hmem⟩ := errorResponsesObeyTheTables i s t r h hr (by simp [hctx])
  have hcodec : i.isCodec = true := isCodec_of_ctx_mem_mayRaise (hctx ▸ hmem)
  exact Bool.false_ne_true (hi.symm.trans hcodec)

end Sys2Proof.Proofs
